-- ==== Sys2Proof/Word.lean ====
section
/-! DEFINITION. The word types of the core (spec/10_state.md, spec/20_memory.md R150) and their plainest arithmetic. -/

namespace Sys2Proof

/-- A 32-bit register or command word (`10_state.md` §3, `30_encoding.md` R200). -/
abbrev Word := BitVec 32

/-- A byte: an element of `HSPEC` and `STATS`, an entry of a byte port (`20_memory.md` R150, R162). -/
abbrev Byte := BitVec 8

/-- A stored coefficient: 16 bits, two's complement (`00_scope.md` R12 `COEF_WIDTH`). -/
abbrev Coef := BitVec 16

end Sys2Proof
end

