-- ==== Sys2Proof/Syntax.lean ====
section
/-! DEFINITION. The commands of the core as syntax: one constructor of `Instr` per row of the opcode map
(`30_encoding.md` R210), with the operands of its format (R202 to R206). -/

namespace Sys2Proof

/-- `CLS` of format H (`30_encoding.md` R203): 0 = DC table, 1 = AC table. -/
inductive TableClass where
  | dc | ac
  deriving DecidableEq, Repr

/-- The statistics bin named by `BANK`, `SLOT`, `BIN` of format A (`30_encoding.md` R205). -/
inductive BinOperand where
  | dc (slot bin : Nat)
  | ac (slot bin : Nat)
  | fixed
  deriving DecidableEq, Repr

/-- `DIR` of format S (`30_encoding.md` R206): 0 = decode, 1 = encode. -/
inductive Direction where
  | decode | encode
  deriving DecidableEq, Repr

/-- The 24 commands (`30_encoding.md` R210). -/
inductive Instr where
  | nop
  | reset
  | startImage
  | eoi
  | htBuildDec (cls : TableClass) (slot : Nat)
  | htBuildEnc (cls : TableClass) (slot : Nat)
  | htDecode (cls : TableClass) (slot : Nat)
  | htGetbits (n : Nat)
  | htEncode (cls : TableClass) (slot : Nat) (sym : Byte)
  | htPutbits (n : Nat) (value : BitVec 16)
  | htFlush
  | htResetBits
  | arithEncInit
  | arithEncode (bin : BinOperand) (bit : Bool)
  | arithEncFlush
  | arithDecInit
  | arithDecode (bin : BinOperand)
  | startScan (dir : Direction)
  | encodeMcu
  | decodeMcu
  | finishScan
  | consumeInput
  | startOutputPass
  | produceOutput
  deriving DecidableEq, Repr

end Sys2Proof
end

