-- ==== Sys2Proof/WellFormed.lean ====
section
/-! DEFINITION. Which terms of `Instr` are commands of the core: the operand ranges of `30_encoding.md` R203 to R205. -/

namespace Sys2Proof

/-- `SLOT` is a 4-bit field (`30_encoding.md` R203, R205). -/
def slotOk (slot : Nat) : Bool := decide (slot < 16)

/-- `N` is legal for 1..16 (`30_encoding.md` R204). -/
def countOk (n : Nat) : Bool := decide (1 ≤ n) && decide (n ≤ 16)

/-- `BIN` is legal for 0..63 in `BANK` 0 and 0..255 in `BANK` 1 (`30_encoding.md` R205). -/
def BinOperand.wf : BinOperand → Bool
  | .dc slot bin => slotOk slot && decide (bin < 64)
  | .ac slot bin => slotOk slot && decide (bin < 256)
  | .fixed => true

/-- The term stands for a legal command word (`30_encoding.md` R201 to R206). -/
def Instr.wf : Instr → Bool
  | .htBuildDec _ slot => slotOk slot
  | .htBuildEnc _ slot => slotOk slot
  | .htDecode _ slot => slotOk slot
  | .htGetbits n => countOk n
  | .htEncode _ slot _ => slotOk slot
  | .htPutbits n _ => countOk n
  | .arithEncode bin _ => bin.wf
  | .arithDecode bin => bin.wf
  | .nop => true
  | .reset => true
  | .startImage => true
  | .eoi => true
  | .htFlush => true
  | .htResetBits => true
  | .arithEncInit => true
  | .arithEncFlush => true
  | .arithDecInit => true
  | .startScan _ => true
  | .encodeMcu => true
  | .decodeMcu => true
  | .finishScan => true
  | .consumeInput => true
  | .startOutputPass => true
  | .produceOutput => true

end Sys2Proof
end

