-- ==== Sys2Proof/Decode.lean ====
section
/-! DEFINITION. The decoder of 32-bit command words, total and rejecting by name, and the encoder
(`30_encoding.md` R201 to R210). -/

namespace Sys2Proof

/-- `w[lo + n - 1 : lo]`, the unsigned field of `n` bits of `w` from bit `lo` up (`00_scope.md` R14). -/
def bits (w : Word) (lo n : Nat) : Nat := w.toNat / 2 ^ lo % 2 ^ n

/-- Bit `i` of `w` (`00_scope.md` R14). -/
def bit (w : Word) (i : Nat) : Bool := bits w i 1 == 1

/-- Why a word is illegal (`30_encoding.md` R201): each raises `Fault(ILLEGAL_COMMAND)`. -/
inductive Illegal where
  /-- `OPC` is not in the opcode map (R210). -/
  | unknownOpcode
  /-- a bit that the format (or the command) requires to be 0 is set (R202 to R206). -/
  | reservedBits
  /-- an operand value the format calls illegal: `N`, `BANK` or `BIN` (R204, R205). -/
  | operand
  deriving DecidableEq, Repr

/-- Format N (R202): bits [23:0] are 0. -/
def formatN (w : Word) (i : Instr) : Except Illegal Instr :=
  if bits w 0 24 = 0 then .ok i else .error .reservedBits

/-- `CLS`, bit 23 (R203). -/
def clsOf (w : Word) : TableClass := if bit w 23 then .ac else .dc

/-- Format H without `SYM` (R203): bits [22:20] and [15:0] are 0. -/
def formatH (w : Word) (mk : TableClass → Nat → Instr) : Except Illegal Instr :=
  if bits w 20 3 = 0 ∧ bits w 0 16 = 0 then .ok (mk (clsOf w) (bits w 16 4)) else .error .reservedBits

/-- Format H of `HT_ENCODE` (R203): `SYM` is bits [15:8], bits [22:20] and [7:0] are 0. -/
def formatHSym (w : Word) : Except Illegal Instr :=
  if bits w 20 3 = 0 ∧ bits w 0 8 = 0 then
    .ok (.htEncode (clsOf w) (bits w 16 4) (BitVec.ofNat 8 (bits w 8 8)))
  else .error .reservedBits

/-- Format B (R204): bits [23:21] are 0, `N` is 1..16, `VALUE` is bits [15:0]. -/
def formatB (w : Word) (mk : Nat → Nat → Except Illegal Instr) : Except Illegal Instr :=
  if bits w 21 3 ≠ 0 then .error .reservedBits
  else if countOk (bits w 16 5) then mk (bits w 16 5) (bits w 0 16)
  else .error .operand

/-- The bin operand of format A (R205): `BANK` bits [23:22], `SLOT` bits [19:16], `BIN` bits [15:8]. -/
def binOf (w : Word) : Except Illegal BinOperand :=
  if bits w 22 2 = 0 then
    if bits w 8 8 < 64 then .ok (.dc (bits w 16 4) (bits w 8 8)) else .error .operand
  else if bits w 22 2 = 1 then .ok (.ac (bits w 16 4) (bits w 8 8))
  else if bits w 22 2 = 2 then
    if bits w 16 4 = 0 ∧ bits w 8 8 = 0 then .ok .fixed else .error .operand
  else .error .operand

/-- Format A (R205): bits [21:20] and [7:1] are 0; `mk` says what bit 0 is. -/
def formatA (w : Word) (mk : BinOperand → Bool → Except Illegal Instr) : Except Illegal Instr :=
  if bits w 20 2 = 0 ∧ bits w 1 7 = 0 then
    match binOf w with
    | .ok b => mk b (bit w 0)
    | .error e => .error e
  else .error .reservedBits

/-- Format S (R206): `DIR` is bit 23, bits [22:0] are 0. -/
def formatS (w : Word) : Except Illegal Instr :=
  if bits w 0 23 = 0 then .ok (.startScan (if bit w 23 then .encode else .decode)) else .error .reservedBits

/-- The command a word stands for, by the opcode map (R210). -/
def decode (w : Word) : Except Illegal Instr :=
  match bits w 24 8 with
  | 0x00 => formatN w .nop
  | 0x01 => formatN w .reset
  | 0x02 => formatN w .startImage
  | 0x03 => formatN w .eoi
  | 0x10 => formatH w .htBuildDec
  | 0x11 => formatH w .htBuildEnc
  | 0x12 => formatH w .htDecode
  | 0x13 => formatB w fun n v => if v = 0 then .ok (.htGetbits n) else .error .reservedBits
  | 0x14 => formatHSym w
  | 0x15 => formatB w fun n v => .ok (.htPutbits n (BitVec.ofNat 16 v))
  | 0x16 => formatN w .htFlush
  | 0x17 => formatN w .htResetBits
  | 0x20 => formatN w .arithEncInit
  | 0x21 => formatA w fun b x => .ok (.arithEncode b x)
  | 0x22 => formatN w .arithEncFlush
  | 0x23 => formatN w .arithDecInit
  | 0x24 => formatA w fun b x => if x then .error .reservedBits else .ok (.arithDecode b)
  | 0x30 => formatS w
  | 0x31 => formatN w .encodeMcu
  | 0x32 => formatN w .decodeMcu
  | 0x33 => formatN w .finishScan
  | 0x41 => formatN w .consumeInput
  | 0x42 => formatN w .startOutputPass
  | 0x43 => formatN w .produceOutput
  | _ => .error .unknownOpcode

/-- The `OPC` of a command (R210). -/
def opcode : Instr → Nat
  | .nop => 0x00
  | .reset => 0x01
  | .startImage => 0x02
  | .eoi => 0x03
  | .htBuildDec .. => 0x10
  | .htBuildEnc .. => 0x11
  | .htDecode .. => 0x12
  | .htGetbits .. => 0x13
  | .htEncode .. => 0x14
  | .htPutbits .. => 0x15
  | .htFlush => 0x16
  | .htResetBits => 0x17
  | .arithEncInit => 0x20
  | .arithEncode .. => 0x21
  | .arithEncFlush => 0x22
  | .arithDecInit => 0x23
  | .arithDecode .. => 0x24
  | .startScan .. => 0x30
  | .encodeMcu => 0x31
  | .decodeMcu => 0x32
  | .finishScan => 0x33
  | .consumeInput => 0x41
  | .startOutputPass => 0x42
  | .produceOutput => 0x43

/-- Bits [23:0] of a format H word (R203). -/
def encodeH (cls : TableClass) (slot sym : Nat) : Nat :=
  (if cls = .ac then 1 else 0) * 2 ^ 23 + slot * 2 ^ 16 + sym * 2 ^ 8

/-- Bits [23:8] of a format A word (R205). -/
def encodeBin : BinOperand → Nat
  | .dc slot bin => slot * 2 ^ 16 + bin * 2 ^ 8
  | .ac slot bin => 1 * 2 ^ 22 + slot * 2 ^ 16 + bin * 2 ^ 8
  | .fixed => 2 * 2 ^ 22

/-- Bits [23:0] of a command's word (R202 to R206). -/
def encodeOperands : Instr → Nat
  | .htBuildDec cls slot => encodeH cls slot 0
  | .htBuildEnc cls slot => encodeH cls slot 0
  | .htDecode cls slot => encodeH cls slot 0
  | .htGetbits n => n * 2 ^ 16
  | .htEncode cls slot sym => encodeH cls slot sym.toNat
  | .htPutbits n value => n * 2 ^ 16 + value.toNat
  | .arithEncode bin x => encodeBin bin + (if x then 1 else 0)
  | .arithDecode bin => encodeBin bin
  | .startScan dir => (if dir = .encode then 1 else 0) * 2 ^ 23
  | .nop => 0
  | .reset => 0
  | .startImage => 0
  | .eoi => 0
  | .htFlush => 0
  | .htResetBits => 0
  | .arithEncInit => 0
  | .arithEncFlush => 0
  | .arithDecInit => 0
  | .encodeMcu => 0
  | .decodeMcu => 0
  | .finishScan => 0
  | .consumeInput => 0
  | .startOutputPass => 0
  | .produceOutput => 0

/-- The word of a well-formed command (R201 to R210). -/
def encode (i : Instr) : Word := BitVec.ofNat 32 (opcode i * 2 ^ 24 + encodeOperands i)

/-- The host's view of the decoder: the command of the word whose low `nbits` bits are `w` and whose other bits
are 0. The core has one 32-bit command word, so no byte order arises (`20_memory.md` R167). -/
def decodeTableWord (nbits w : Nat) : Option Instr :=
  match decode (BitVec.ofNat 32 (w % 2 ^ nbits)) with
  | .ok i => some i
  | .error _ => none

end Sys2Proof
end

