-- ==== Sys2Proof/Config.lean ====
section
/-! DEFINITION. The implementation parameters of `00_scope.md` R12: the fixed ones as constants, the OPEN ones as
the record `Config` (an argument of the model, held in `State.cfg`), and the model's free values. -/

namespace Sys2Proof

/-- `FIXED_BIN_MODE` (`00_scope.md` R12, `40_qm_coder.md` R306). -/
inductive FixedBinMode where
  | zeroEachUse | persistentZero | entry113
  deriving DecidableEq, Repr

/-- `AC_SIGN_CTX` (`00_scope.md` R12, `43_arith_entropy.md` R601). -/
inductive AcSignCtx where
  | bin245 | fixed
  deriving DecidableEq, Repr

/-- The OPEN parameters of `00_scope.md` R12 that are fixed for one machine. No step changes them (log 2). -/
structure Config where
  /-- `COEF_MEM_BLOCKS`: the block capacity of the coefficient memory. -/
  coefMemBlocks : Nat
  fixedBinMode : FixedBinMode
  acSignCtx : AcSignCtx
  deriving DecidableEq, Repr

/-- The parameters the reset state names. DESIGN CHOICE (log 2): the defaults of `00_scope.md` R12, and for
`COEF_MEM_BLOCKS`, which has none, the value `95_test_vectors.md` uses. -/
def Config.default : Config :=
  { coefMemBlocks := 4096, fixedBinMode := .zeroEachUse, acSignCtx := .bin245 }

/-- Free value (log 9): `a` multiplied by 2 to the power `-n` where that is no integer. The spec states no value. -/
opaque Config.unstatedShift (a n : Nat) : Nat

/-- Free value (log 10): the byte appended for an output value `v` above 0xFF. The spec states no value. -/
opaque Config.unstatedByte (v : Nat) : Byte

/-- `DCTSIZE2` (`00_scope.md` R12). -/
def dctSize2 : Nat := 64
/-- `MAX_COEF_BITS` (`00_scope.md` R12). -/
def maxCoefBits : Nat := 10
/-- `MAX_CORR_BITS` (`00_scope.md` R12). -/
def maxCorrBits : Nat := 1000
/-- `MAX_BLOCKS_IN_MCU` (`00_scope.md` R12). -/
def maxBlocksInMcu : Nat := 10
/-- `MAX_COMPS_IN_SCAN` (`00_scope.md` R12). -/
def maxCompsInScan : Nat := 4
/-- `MAX_COMPONENTS` (`00_scope.md` R12). -/
def maxComponents : Nat := 10
/-- `MAX_SAMP_FACTOR` (`00_scope.md` R12). -/
def maxSampFactor : Nat := 4
/-- `MAX_DIMENSION` (`00_scope.md` R12). -/
def maxDimension : Nat := 65500

end Sys2Proof
end

