-- ==== Sys2Proof/Machine/State.lean ====
section
/-! DEFINITION. The state of the core as plain data (spec/10_state.md, spec/20_memory.md), the reasons a step can
stop, and the state after reset (`70_reset_and_hazards.md` R950). -/

namespace Sys2Proof.Machine

/-! ## Outcomes -/

/-- The machine stops. None of these is a fault of the core's own (`60_exceptions.md` R901): taking one of those is a
next state. -/
inductive Fault where
  /-- Raised when a core-internal access computes an address outside its space (`20_memory.md` R152 "to be read as
  `fault`"). Safe: the spec says no rule computes one (log 6). -/
  | addressOutOfRange
  /-- Raised when a loop of the spec has no end: the renormalization of `40_qm_coder.md` R311, R321 on an interval of
  size 0. Safe: the machine never reaches an outcome (log 7). -/
  | loopNeverEnds
  /-- Raised by an MCU command in a state no run reaches: a scan active with mode `NONE` (`10_state.md` R72).
  Safe (log 6). -/
  | scanWithoutMode
  deriving DecidableEq, Repr

/-- The machine has no step. -/
inductive Refusal where
  /-- Raised by `exec` for an instruction whose meaning is not written yet. Safe. -/
  | notModelled (mnemonic : String)
  /-- Raised by a host access to a CSR address `10_state.md` does not define (`20_memory.md` R151 "refused"). Safe. -/
  | undefinedCsr
  /-- Raised by a host access outside its space's range (`20_memory.md` R151). Safe. -/
  | addressOutsideSpace
  /-- Raised by a host write to a read-only register or to `DTBL` (`20_memory.md` R151). Safe. -/
  | readOnlyWrite
  /-- Raised by a host write of a value wider than the space's element, which is no access of the spec
  (`20_memory.md` R151, log 5). Safe. -/
  | valueTooWide
  /-- Raised by `in.take N` with fewer than `N` bytes in the port, to which `30_encoding.md` R214 gives no meaning
  (log 5). Safe. -/
  | takeBeyondPort
  deriving DecidableEq, Repr

/-! ## Names -/

/-- The fault codes of `60_exceptions.md` R901, in the table's order: codes 1 to 14. -/
inductive FaultCode where
  | illegalCommand | badState | badHuffTable | noHuffTable | noArithTable | badProgression | badComponent
  | badSampling | badMcuSize | badDimension | outOfMemory | badDctCoef | huffMissingCode | badProbState
  deriving DecidableEq, Repr

/-- The warning codes of `60_exceptions.md` R904, in the table's order: codes 1 to 7. -/
inductive Warning where
  | hitMarker | huffBadCode | arithBadCode | bogusProgression | notSequential | mustResync | extraneousData
  deriving DecidableEq, Repr

/-- `STATUS.RESULT_KIND` (`10_state.md` R63): 0 to 3. -/
inductive ResultKind where
  | done | suspended | rowCompleted | scanCompleted
  deriving DecidableEq, Repr

/-- `STATUS.SUSPEND_CAUSE` (`10_state.md` R63): 0 to 3. -/
inductive SuspendCause where
  | none | inputEmpty | outputFull | scanNeeded
  deriving DecidableEq, Repr

/-- The scan mode (`10_state.md` R72): 0 to 10. -/
inductive ScanMode where
  | none | hufSeq | hufDcFirst | hufAcFirst | hufDcRefine | hufAcRefine
  | ariSeq | ariDcFirst | ariAcFirst | ariDcRefine | ariAcRefine
  deriving DecidableEq, Repr

/-- `ctl_mode` (`10_state.md` R86). -/
inductive CtlMode where
  | singlePass | multiScan
  deriving DecidableEq, Repr

/-! ## Tables of cells -/

/-- A memory or table by key: the cells that do not hold the background value, in rising order of key
(`Cells.wf` in Machine/Ops.lean). `Host.Cell` is the cell of a byte memory. -/
abbrev Cells (α : Type) := List (Nat × α)

/-! ## Registers -/

/-- The configuration registers (`10_state.md` R54 to R61, R90, R91), each as the word the host reads. -/
structure Regs where
  imgDim : Word
  imgCfg : Word
  restart : Word
  scan : Word
  scanComps : Word
  outScan : Word
  hspecValid : Word
  qtblValid : Word
  compCfg : Vector Word 10
  arithCond : Vector Word 16
  deriving DecidableEq, Repr

/-- The status registers that hold state of their own (`10_state.md` R63 to R67). -/
structure Status where
  resultKind : ResultKind
  suspendCause : SuspendCause
  /-- `FAULT` (R64): `none` is code 0. -/
  fault : Option FaultCode
  warnCount : Nat
  /-- `WARN_LAST` (R65): `none` is code 0. -/
  warnLast : Option Warning
  result : Word
  discarded : Word
  deriving DecidableEq, Repr

/-- The image state of one component (`10_state.md` R70). -/
structure ImageComp where
  hSamp : Nat
  vSamp : Nat
  widthInBlocks : Nat
  heightInBlocks : Nat
  qLatched : Bool
  /-- `qtab[c][0..63]`, in natural order; background 0. -/
  qtab : Cells (BitVec 16)
  /-- `coef_bits[c][0..63]`, by zigzag index; background -1. -/
  coefBits : Cells Int
  deriving DecidableEq, Repr

/-- The image state (`10_state.md` R70). -/
structure Image where
  active : Bool
  /-- the copy of `IMG_DIM` -/
  dim : Word
  /-- the copy of `IMG_CFG`, with `MULTI` forced by `PROG` (`45_scan_interface.md` R802) -/
  cfg : Word
  maxH : Nat
  maxV : Nat
  comps : Vector ImageComp 10
  totalRows : Nat
  inputScanNumber : BitVec 16
  eoiReached : Bool
  deriving DecidableEq, Repr

/-- The scan state of one scan component (`10_state.md` R72, R73). -/
structure ScanComp where
  /-- `scomp[i]`, the image component's index -/
  comp : Nat
  dcTbl : Nat
  acTbl : Nat
  mcuWidth : Nat
  mcuHeight : Nat
  mcuBlocks : Nat
  lastColWidth : Nat
  lastRowHeight : Nat
  deriving DecidableEq, Repr

/-- The scan state (`10_state.md` R72, R73). -/
structure Scan where
  active : Bool
  dir : Direction
  mode : ScanMode
  ss : Nat
  se : Nat
  ah : Nat
  al : Nat
  compsInScan : Nat
  comps : Vector ScanComp 4
  restartInterval : Nat
  mcusPerRow : Nat
  mcuRowsInScan : Nat
  blocksInMcu : Nat
  membership : Vector Nat 10
  deriving DecidableEq, Repr

/-- The entropy running state (`10_state.md` R74 to R85). -/
structure Entropy where
  lastDc : Vector Word 4
  dcContext : Vector Byte 4
  eobrun : Nat
  /-- `bit_buffer[0..BE-1]`: `BE` is its length (log 18) -/
  bitBuffer : List Bool
  putBuffer : BitVec 24
  putBits : Nat
  getBuffer : Word
  bitsLeft : Nat
  insufficient : Bool
  unreadMarker : Byte
  restartsToGo : Nat
  nextRestart : Nat
  c : Word
  a : Word
  ct : Word
  sc : Word
  zc : Word
  buffer : Word
  fixedBin : Byte
  deriving DecidableEq, Repr

/-- The coefficient-controller state (`10_state.md` R86 to R88). -/
structure Ctl where
  mode : CtlMode
  inputRow : Nat
  mcuCtr : Nat
  mcuVert : Nat
  mcuRowsPerImcu : Nat
  outputRow : Nat
  outputPass : Bool
  smoothing : Bool
  /-- `coef_bits_latch[c][k]` under the key `6 * c + k`; background 0 -/
  coefBitsLatch : Cells Int
  /-- the scan number latched by `START_OUTPUT_PASS` (`44_coef_controller.md` R725, log 12) -/
  outputScan : BitVec 16
  /-- `Ss` of the current input scan, or of the last one started (`44_coef_controller.md` R731, log 26) -/
  inputSs : Nat
  deriving DecidableEq, Repr

/-- The derived record of one Huffman slot (`20_memory.md` R154); every table is indexed as in that rule and has
background 0. -/
structure DerivedTable where
  dvalid : Bool
  evalid : Bool
  maxcode : Cells Word
  valoffset : Cells Word
  lookNbits : Cells Byte
  lookSym : Cells Byte
  ehufco : Cells (BitVec 16)
  ehufsi : Cells Byte
  dval : Cells Byte
  deriving DecidableEq, Repr

/-- One record of the IDCT port (`20_memory.md` R165): `{c, r, x, coef[0..63]}`. -/
structure IdctRecord where
  comp : Nat
  row : Nat
  col : Nat
  coefs : List Coef
  deriving DecidableEq, Repr

/-! ## The host -/

/-- The element-addressed memories a host access can name (`20_memory.md` R150); `CSR` has operations of its own. -/
inductive Space where
  | hspec | dtbl | qtbl | stats | mcubuf | coef
  deriving DecidableEq, Repr

/-- A host operation (`30_encoding.md` R214); issuing a command is the write of its word to `CMD` (R200). -/
inductive HostOp where
  | csrWrite (addr : Nat) (v : Word)
  | csrRead (addr : Nat)
  | memWrite (sp : Space) (addr : Nat) (v : Word)
  | memRead (sp : Space) (addr : Nat)
  | inPush (bs : List Byte)
  | inTake (n : Nat)
  | outPop
  | idctPop
  /-- the host offers this free space on the output port from now on (`20_memory.md` R164); `none` is unbounded -/
  | offerSpace (cap : Option Nat)
  deriving DecidableEq, Repr

/-- What a host operation returned to the host. -/
inductive HostReply where
  | nothing
  | word (v : Word)
  | bytes (bs : List Byte)
  | records (rs : List IdctRecord)
  deriving DecidableEq, Repr

/-! ## The state -/

/-- The state of the core, with the parameters and the host's pending operations beside it. -/
structure State where
  cfg : Config
  outCapacity : Option Nat
  host : List HostOp
  reply : HostReply
  regs : Regs
  status : Status
  image : Image
  scan : Scan
  ent : Entropy
  ctl : Ctl
  hspec : Cells Byte
  dtbl : Vector DerivedTable 8
  qtbl : Cells (BitVec 16)
  stats : Cells Byte
  mcubuf : Cells Coef
  coef : Cells Coef
  inPort : List Byte
  outPort : List Byte
  idctPort : List IdctRecord
  deriving DecidableEq, Repr

/-! ## Reset values (`70_reset_and_hazards.md` R950) -/

def Regs.reset : Regs :=
  { imgDim := 0, imgCfg := 0x40, restart := 0, scan := 0, scanComps := 0, outScan := 0, hspecValid := 0,
    qtblValid := 0, compCfg := Vector.replicate 10 0, arithCond := Vector.replicate 16 0x510 }

def Status.reset : Status :=
  { resultKind := .done, suspendCause := .none, fault := none, warnCount := 0, warnLast := none, result := 0,
    discarded := 0 }

def ImageComp.reset : ImageComp :=
  { hSamp := 0, vSamp := 0, widthInBlocks := 0, heightInBlocks := 0, qLatched := false, qtab := [], coefBits := [] }

def Image.reset : Image :=
  { active := false, dim := 0, cfg := 0, maxH := 0, maxV := 0, comps := Vector.replicate 10 ImageComp.reset,
    totalRows := 0, inputScanNumber := 0, eoiReached := false }

def ScanComp.reset : ScanComp :=
  { comp := 0, dcTbl := 0, acTbl := 0, mcuWidth := 0, mcuHeight := 0, mcuBlocks := 0, lastColWidth := 0,
    lastRowHeight := 0 }

def Scan.reset : Scan :=
  { active := false, dir := .decode, mode := .none, ss := 0, se := 0, ah := 0, al := 0, compsInScan := 0,
    comps := Vector.replicate 4 ScanComp.reset, restartInterval := 0, mcusPerRow := 0, mcuRowsInScan := 0,
    blocksInMcu := 0, membership := Vector.replicate 10 0 }

/-- The arithmetic registers hold the values of `arith_enc_init` (`70_reset_and_hazards.md` R950). -/
def Entropy.reset : Entropy :=
  { lastDc := Vector.replicate 4 0, dcContext := Vector.replicate 4 0, eobrun := 0, bitBuffer := [], putBuffer := 0,
    putBits := 0, getBuffer := 0, bitsLeft := 0, insufficient := false, unreadMarker := 0, restartsToGo := 0,
    nextRestart := 0, c := 0, a := 0x10000, ct := 11, sc := 0, zc := 0, buffer := -1, fixedBin := 0 }

def Ctl.reset : Ctl :=
  { mode := .singlePass, inputRow := 0, mcuCtr := 0, mcuVert := 0, mcuRowsPerImcu := 0, outputRow := 0,
    outputPass := false, smoothing := false, coefBitsLatch := [], outputScan := 0, inputSs := 0 }

def DerivedTable.reset : DerivedTable :=
  { dvalid := false, evalid := false, maxcode := [], valoffset := [], lookNbits := [], lookSym := [], ehufco := [],
    ehufsi := [], dval := [] }

/-- The state of R950 on a machine with parameters `cfg`, a host that will do `host` and offers `cap`. Memory
contents the spec leaves unspecified are at the background 0 (log 4). -/
def State.resetWith (cfg : Config) (cap : Option Nat) (host : List HostOp) (reply : HostReply) : State :=
  { cfg := cfg, outCapacity := cap, host := host, reply := reply, regs := Regs.reset, status := Status.reset,
    image := Image.reset, scan := Scan.reset, ent := Entropy.reset, ctl := Ctl.reset, hspec := [],
    dtbl := Vector.replicate 8 DerivedTable.reset, qtbl := [], stats := [], mcubuf := [], coef := [], inPort := [],
    outPort := [], idctPort := [] }

/-- Power-on (`70_reset_and_hazards.md` R950, R952); parameters and host as log 1, 2 and 3 say. -/
def State.reset : State := State.resetWith Config.default none [] .nothing

end Sys2Proof.Machine
end

