-- ==== Sys2Proof/Machine/Ops.lean ====
section
/-! DEFINITION. The named operations over state: tables of cells, procedures and their outcomes (`00_scope.md` R18),
taking a fault (`60_exceptions.md` R902) and returning from it, warnings, suspension and undo, the byte ports, and
the memories the core reads and writes. -/

namespace Sys2Proof.Machine

/-! ## Tables of cells -/

/-- The element at key `a`; `d` is the background an unlisted key reads as. -/
def Cells.read {α : Type} (d : α) : Cells α → Nat → α
  | [], _ => d
  | (k, v) :: t, a => if k = a then v else Cells.read d t a

/-- The table with `v` at key `a`. Keeps the canonical form `Cells.wf`: writing the background removes the cell. -/
def Cells.write {α : Type} [DecidableEq α] (d : α) : Cells α → Nat → α → Cells α
  | [], a, v => if v = d then [] else [(a, v)]
  | (k, x) :: t, a, v =>
    if a < k then (if v = d then (k, x) :: t else (a, v) :: (k, x) :: t)
    else if a = k then (if v = d then t else (a, v) :: t)
    else (k, x) :: Cells.write d t a v

/-- The table after the writes `ws`, first to last. -/
def Cells.writes {α : Type} [DecidableEq α] (d : α) (m : Cells α) (ws : List (Nat × α)) : Cells α :=
  ws.foldl (fun m w => Cells.write d m w.1 w.2) m

/-- The table with every key in `lo .. lo + n - 1` at the background. -/
def Cells.clear {α : Type} (m : Cells α) (lo n : Nat) : Cells α :=
  m.filter fun c => decide (c.1 < lo) || decide (lo + n ≤ c.1)

/-- The `n` elements from key `lo` up, as a table of their own with keys from 0. -/
def Cells.slice {α : Type} (m : Cells α) (lo n : Nat) : Cells α :=
  (m.filter fun c => decide (lo ≤ c.1) && decide (c.1 < lo + n)).map fun c => (c.1 - lo, c.2)

/-- The canonical form: keys strictly rising, no cell at the background. -/
abbrev Cells.wf {α : Type} [DecidableEq α] (d : α) (m : Cells α) : Prop :=
  m.Pairwise (fun x y => x.1 < y.1) ∧ ∀ c ∈ m, c.2 ≠ d

/-- All seven tables of a derived record are in canonical form. -/
abbrev DerivedTable.wf (t : DerivedTable) : Prop :=
  Cells.wf 0 t.maxcode ∧ Cells.wf 0 t.valoffset ∧ Cells.wf 0 t.lookNbits ∧ Cells.wf 0 t.lookSym ∧
    Cells.wf 0 t.ehufco ∧ Cells.wf 0 t.ehufsi ∧ Cells.wf 0 t.dval

/-- The tables of the image state (`10_state.md` R70) are in canonical form. -/
abbrev Image.wf (m : Image) : Prop := ∀ c ∈ m.comps.toList, Cells.wf 0 c.qtab ∧ Cells.wf (-1) c.coefBits

/-- The memories of `20_memory.md` R150, and the tables that latch parts of them, are in canonical form. -/
abbrev Memory.wf (s : State) : Prop :=
  Cells.wf 0 s.hspec ∧ (∀ t ∈ s.dtbl.toList, DerivedTable.wf t) ∧ Cells.wf 0 s.qtbl ∧ Cells.wf 0 s.stats ∧
    Cells.wf 0 s.mcubuf ∧ Cells.wf 0 s.coef ∧ Cells.wf 0 s.ctl.coefBitsLatch ∧ Image.wf s.image

/-! ## Procedures and their outcomes -/

/-- How a procedure ends early (`00_scope.md` R18). -/
inductive Stop where
  /-- `raise Fault(code)` (`60_exceptions.md` R902) -/
  | raise (code : FaultCode)
  /-- `suspend` (`60_exceptions.md` R907) -/
  | suspend (cause : SuspendCause)
  /-- the machine stops -/
  | stop (f : Fault)
  deriving DecidableEq, Repr

/-- A procedure of the spec: it reads and writes the state and returns a value or ends early. An early end keeps the
state it was reached in. -/
abbrev Proc (α : Type) := EStateM Stop State α

/-- `raise Fault(code)` (`00_scope.md` R18). -/
def raise {α : Type} (code : FaultCode) : Proc α := throw (.raise code)

/-- `suspend` (`00_scope.md` R18). -/
def suspend {α : Type} (cause : SuspendCause) : Proc α := throw (.suspend cause)

/-- `raise Fault(code)` unless `b` holds. -/
def demand (b : Bool) (code : FaultCode) : Proc Unit := if b then pure () else raise code

def modRegs (f : Regs → Regs) : Proc Unit := modify fun s => { s with regs := f s.regs }
def modStatus (f : Status → Status) : Proc Unit := modify fun s => { s with status := f s.status }
def modImage (f : Image → Image) : Proc Unit := modify fun s => { s with image := f s.image }
def modScan (f : Scan → Scan) : Proc Unit := modify fun s => { s with scan := f s.scan }
def modEnt (f : Entropy → Entropy) : Proc Unit := modify fun s => { s with ent := f s.ent }
def modCtl (f : Ctl → Ctl) : Proc Unit := modify fun s => { s with ctl := f s.ctl }

/-- `for i in 0..n-1` (`00_scope.md` R19). -/
def forUpTo (n : Nat) (body : Nat → Proc Unit) : Proc Unit := (List.range n).forM body

/-! ## Ends of a command -/

/-- A normal end (`60_exceptions.md` R900, R907): `RESULT_KIND` takes the result, `SUSPEND_CAUSE` is 0. -/
def State.finish (kind : ResultKind) (s : State) : State :=
  { s with status := { s.status with resultKind := kind, suspendCause := .none } }

/-- TAKING A FAULT (`60_exceptions.md` R902): `FAULT` keeps the first code, `RESULT_KIND` is `DONE`, `SUSPEND_CAUSE` is
0. `STATUS.FAULTED` is the view `FAULT != 0` (log 17). Every change made before stays. -/
def State.raiseFault (code : FaultCode) (s : State) : State :=
  { s with status := { s.status with
      fault := match s.status.fault with
        | none => some code
        | some first => some first
      resultKind := .done
      suspendCause := .none } }

/-- RETURNING FROM A FAULT is `RESET` (`60_exceptions.md` R911): the state of `70_reset_and_hazards.md` R950, R951. The
parameters and the host are not the core's state and stay. -/
def State.resetCore (s : State) : State := State.resetWith s.cfg s.outCapacity s.host s.reply

/-- `suspend(cause)` (`60_exceptions.md` R907), after the undo. -/
def State.suspended (cause : SuspendCause) (s : State) : State :=
  { s with status := { s.status with resultKind := .suspended, suspendCause := cause } }

/-- An atomic step (`45_scan_interface.md` R812): a suspension undoes every change the step made. -/
def atomically {α : Type} (p : Proc α) : Proc α := fun s =>
  match p s with
  | .ok a s' => .ok a s'
  | .error (.suspend c) _ => .error (.suspend c) s
  | .error (.raise c) s' => .error (.raise c) s'
  | .error (.stop f) s' => .error (.stop f) s'

/-- The output-space check (`20_memory.md` R164): at the end of a step that found `before` bytes in the output port,
more appended bytes than the space offered suspend it with cause 2. -/
def checkSpace (before : Nat) : Proc Unit := do
  let s ← get
  match s.outCapacity with
  | none => pure ()
  | some cap => if s.outPort.length - before ≤ cap then pure () else suspend .outputFull

/-- A step that may append output, with its space check (`20_memory.md` R164). -/
def withSpace {α : Type} (p : Proc α) : Proc α := do
  let s ← get
  let a ← p
  checkSpace s.outPort.length
  pure a

/-- A command (`60_exceptions.md` R900, R903, R909): no effect while `FAULT` != 0; else its body runs and its end is
recorded. A fault and a suspension are next states. -/
def command (body : Proc ResultKind) (s : State) : Host.Outcome State Fault Refusal :=
  if s.status.fault.isSome then .next s
  else
    match body s with
    | .ok kind s' => .next (s'.finish kind)
    | .error (.raise code) s' => .next (s'.raiseFault code)
    | .error (.suspend cause) s' => .next (s'.suspended cause)
    | .error (.stop f) _ => .fault f

/-- A command that is a single atomic step and ends `DONE` (`45_scan_interface.md` R812), with the output-space check
of `20_memory.md` R164. -/
def singleStep (body : Proc Unit) (s : State) : Host.Outcome State Fault Refusal :=
  command (atomically (withSpace (do body; pure .done))) s

/-! ## Warnings -/

/-- `warn(code)` (`60_exceptions.md` R905). -/
def warn (w : Warning) : Proc Unit :=
  modStatus fun t => { t with warnCount := min (t.warnCount + 1) 0xFFFFFFFF, warnLast := some w }

/-! ## Numbers (`00_scope.md` R15, R16) -/

/-- `trunc16(v)` (`00_scope.md` R16). -/
def trunc16 (v : Int) : Coef := BitVec.ofInt 16 v

/-- `sext_32(v)` as a 32-bit word (`00_scope.md` R16). -/
def word32 (v : Int) : Word := BitVec.ofInt 32 v

/-- `ceil_div(a, b)` (`00_scope.md` R15). -/
def ceilDiv (a b : Nat) : Nat := (a + b - 1) / b

/-- `round_up(a, b)` (`00_scope.md` R15). -/
def roundUp (a b : Nat) : Nat := ceilDiv a b * b

/-- `a << n`, multiplication by 2^n (`00_scope.md` R15), for a count of either sign: where `n` is negative and the
product is no integer the spec states no value (log 9). -/
def shiftBy (a : Nat) (n : Int) : Nat :=
  match n with
  | .ofNat k => a * 2 ^ k
  | .negSucc k => if a % 2 ^ (k + 1) = 0 then a / 2 ^ (k + 1) else Config.unstatedShift a (k + 1)

/-- `floor(log2(n))` of `n > 0`, and 0 for 0. -/
def floorLog2 (n : Nat) : Nat := Nat.log2 n

/-- `cat(v)`, the magnitude category (`30_encoding.md` R254). -/
def cat (v : Int) : Nat := if v.natAbs = 0 then 0 else floorLog2 v.natAbs + 1

/-- `bits_of(v)`, the extra bits (`42_huffman_entropy.md` R501). -/
def bitsOf (v : Int) : Nat := ((if 0 ≤ v then v else v - 1) % 2 ^ cat v).toNat

/-- `extend(x, s)` (`41_huffman_tables.md` R423). -/
def extend (x s : Nat) : Int := if 2 ^ (s - 1) ≤ x then (x : Int) else (x : Int) - 2 ^ s + 1

/-- `dc_pt(x)` (`42_huffman_entropy.md` R502): rounds toward minus infinity. -/
def dcPt (al : Nat) (x : Int) : Int := x / 2 ^ al

/-- `ac_pt(x)` (`42_huffman_entropy.md` R502): rounds toward zero. -/
def acPt (al : Nat) (x : Int) : Int := x.sign * ((x.natAbs / 2 ^ al : Nat) : Int)

/-! ## Byte ports -/

/-- `in_byte()` (`20_memory.md` R162). -/
def inByte : Proc Byte := do
  let s ← get
  match s.inPort with
  | [] => suspend .inputEmpty
  | b :: t => do
    set { s with inPort := t }
    pure b

/-- The first byte that is not 0xFF, and the bytes after it. -/
def afterFill : List Byte → Option (Byte × List Byte)
  | [] => none
  | b :: t => if b = 0xFF then afterFill t else some (b, t)

/-- `repeat: c <- in_byte() until c != 0xFF`, the fill bytes before a marker (`30_encoding.md` R252). -/
def inByteAfterFill : Proc Byte := do
  let s ← get
  match afterFill s.inPort with
  | none => suspend .inputEmpty
  | some (b, t) => do
    set { s with inPort := t }
    pure b

/-- `out_byte(v)` (`20_memory.md` R164). A value above 0xFF is no byte, and the spec does not say what is appended
(log 10). -/
def outByte (v : Nat) : Proc Unit :=
  modify fun s =>
    { s with outPort := s.outPort ++ [if v < 256 then BitVec.ofNat 8 v else Config.unstatedByte v] }

/-- `idct_out(rec)` (`20_memory.md` R165). -/
def idctOut (r : IdctRecord) : Proc Unit := modify fun s => { s with idctPort := s.idctPort ++ [r] }

/-! ## Marker search (`42_huffman_entropy.md` R529) -/

/-- The scan of `next_marker()` over the input: `n` bytes counted so far, `inFf` after an 0xFF. Answers the count, the
marker's second byte and the bytes after it, or nothing where the input runs out. -/
def scanMarker : Bool → Nat → List Byte → Option (Nat × Byte × List Byte)
  | _, _, [] => none
  | false, n, b :: t => if b = 0xFF then scanMarker true n t else scanMarker false (n + 1) t
  | true, n, b :: t =>
    if b = 0xFF then scanMarker true n t
    else if b = 0 then scanMarker false (n + 2) t
    else some (n, b, t)

/-- `next_marker()` (`42_huffman_entropy.md` R529). -/
def nextMarker : Proc Unit := do
  let s ← get
  match scanMarker false 0 s.inPort with
  | none => suspend .inputEmpty
  | some (n, c, t) => do
    set { s with inPort := t }
    if n ≠ 0 then do
      modStatus fun st => { st with discarded := BitVec.ofNat 32 n }
      warn .extraneousData
    modEnt fun e => { e with unreadMarker := c }

/-- What `resync` does on marker `m` (`42_huffman_entropy.md` R531): action 1, 2 or 3. `mod 8` is taken in 0..7
(log 13). -/
def resyncAction (desired m : Nat) : Nat :=
  if m < 0xC0 then 2
  else if m < 0xD0 ∨ 0xD7 < m then 3
  else if m = 0xD0 + (desired + 1) % 8 ∨ m = 0xD0 + (desired + 2) % 8 then 3
  else if m = 0xD0 + (desired + 7) % 8 ∨ m = 0xD0 + (desired + 6) % 8 then 2
  else 1

/-- The loop of `resync` (`42_huffman_entropy.md` R531). Each turn that scans on takes input, so the count of turns
is more than the bytes there are. -/
def resyncLoop (desired : Nat) : Nat → Proc Unit
  | 0 => throw (.stop .loopNeverEnds)
  | fuel + 1 => do
    let s ← get
    let action := resyncAction desired s.ent.unreadMarker.toNat
    if action = 1 then modEnt fun e => { e with unreadMarker := 0 }
    else if action = 2 then do
      nextMarker
      resyncLoop desired fuel
    else pure ()

/-- `resync(desired)` (`42_huffman_entropy.md` R531). -/
def resync (desired : Nat) : Proc Unit := do
  warn .mustResync
  let s ← get
  resyncLoop desired (s.inPort.length + 2)

/-- `read_restart_marker()` (`42_huffman_entropy.md` R530). -/
def readRestartMarker : Proc Unit := do
  let s ← get
  if s.ent.unreadMarker = 0 then nextMarker
  let s ← get
  if s.ent.unreadMarker.toNat = 0xD0 + s.ent.nextRestart then modEnt fun e => { e with unreadMarker := 0 }
  else resync s.ent.nextRestart
  modEnt fun e => { e with nextRestart := (e.nextRestart + 1) % 8 }

/-! ## Memories inside the core (`20_memory.md` R152) -/

/-- Where a block of an MCU lies: block `b` of `MCUBUF` (`20_memory.md` R159) or block `n` of `COEF` (R160). -/
inductive BlockRef where
  | mcubuf (b : Nat)
  | coef (n : Nat)
  deriving DecidableEq, Repr

/-- One block of the MCU a command runs, with `ci(b)` (`42_huffman_entropy.md` R500). -/
structure McuBlock where
  ref : BlockRef
  ci : Nat
  deriving DecidableEq, Repr

/-- The block lies inside its space (`20_memory.md` R150). -/
def BlockRef.inRange (cfg : Config) : BlockRef → Bool
  | .mcubuf b => decide (b < maxBlocksInMcu)
  | .coef n => decide (n < cfg.coefMemBlocks)

/-- Coefficient `p` (natural position) of the block, as stored. -/
def State.coefAt (s : State) : BlockRef → Nat → Coef
  | .mcubuf b, p => Cells.read 0 s.mcubuf (b * dctSize2 + p)
  | .coef n, p => Cells.read 0 s.coef (n * dctSize2 + p)

/-- The state with coefficient `p` of the block at `v`. -/
def State.withCoef (s : State) (ref : BlockRef) (p : Nat) (v : Coef) : State :=
  match ref with
  | .mcubuf b => { s with mcubuf := Cells.write 0 s.mcubuf (b * dctSize2 + p) v }
  | .coef n => { s with coef := Cells.write 0 s.coef (n * dctSize2 + p) v }

/-- `blk(b)[p]` as a signed integer (`42_huffman_entropy.md` R500). -/
def getCoef (ref : BlockRef) (p : Nat) : Proc Int := do
  let s ← get
  pure (s.coefAt ref p).toInt

/-- `blk(b)[p] <- v` keeps `trunc16(v)` (`00_scope.md` R16). -/
def setCoef (ref : BlockRef) (p : Nat) (v : Int) : Proc Unit := modify fun s => s.withCoef ref p (trunc16 v)

/-- The 64 coefficients of a block, in natural order. -/
def State.blockCoefs (s : State) (ref : BlockRef) : List Coef := (List.range dctSize2).map (s.coefAt ref)

/-- Every block of the MCU lies in its space, else the access is the fault of `20_memory.md` R152 (log 6). -/
def checkBlocks (blks : List McuBlock) : Proc Unit := do
  let s ← get
  if blks.all (fun b => b.ref.inRange s.cfg) then pure () else throw (.stop .addressOutOfRange)

end Sys2Proof.Machine
end

