-- ==== Sys2Proof/Machine/Operands.lean ====
section
/-! DEFINITION. The operands of the commands and the fields of the registers: statistics bins
(`30_encoding.md` R205, `40_qm_coder.md` §6), Huffman slots (R203), register fields (`10_state.md` R54 to R61), the
zigzag table (`30_encoding.md` R240). -/

namespace Sys2Proof.Machine

/-! ## Statistics bins -/

/-- The location of a probability-state byte (`40_qm_coder.md` R305): a byte of `STATS` or `fixed_bin`. -/
inductive Bin where
  | stats (addr : Nat)
  | fixed
  deriving DecidableEq, Repr

/-- DC slot `t`, bin `i` (`20_memory.md` R157). -/
def dcBin (t i : Nat) : Bin := .stats (t * 64 + i)

/-- AC slot `t`, bin `i` (`20_memory.md` R157). -/
def acBin (t i : Nat) : Bin := .stats (0x400 + t * 256 + i)

/-- The bin a format A operand names (`40_qm_coder.md` §6). -/
def binOperand : BinOperand → Bin
  | .dc slot bin => dcBin slot bin
  | .ac slot bin => acBin slot bin
  | .fixed => .fixed

/-- The probability-state byte in a bin. -/
def State.binByte (s : State) : Bin → Byte
  | .stats addr => Cells.read 0 s.stats addr
  | .fixed => s.ent.fixedBin

/-- The state with a bin rewritten. -/
def State.withBin (s : State) (b : Bin) (v : Byte) : State :=
  match b with
  | .stats addr => { s with stats := Cells.write 0 s.stats addr v }
  | .fixed => { s with ent := { s.ent with fixedBin := v } }

def setBin (b : Bin) (v : Byte) : Proc Unit := modify fun s => s.withBin b v

/-! ## Huffman slots -/

/-- `h = 4*class + t` (`20_memory.md` R153). -/
def tableSlot (cls : TableClass) (t : Nat) : Nat := (if cls = .ac then 4 else 0) + t

/-- The derived record of a slot. -/
def State.derived (s : State) (cls : TableClass) (t : Nat) : DerivedTable :=
  s.dtbl.getD (tableSlot cls t) DerivedTable.reset

/-- The state with the derived record of a slot replaced. -/
def State.withDerived (s : State) (cls : TableClass) (t : Nat) (d : DerivedTable) : State :=
  { s with dtbl := s.dtbl.setIfInBounds (tableSlot cls t) d }

/-! ## Register fields -/

/-- `image_width`, `image_height` of `IMG_DIM` (`10_state.md` R54). -/
def imgWidth (dim : Word) : Nat := bits dim 0 16
def imgHeight (dim : Word) : Nat := bits dim 16 16

/-- `num_components`, `PROG`, `ARITH`, `SMOOTH`, `MULTI` of `IMG_CFG` (`10_state.md` R55). -/
def cfgComponents (cfg : Word) : Nat := bits cfg 0 4
def cfgProg (cfg : Word) : Bool := bit cfg 4
def cfgArith (cfg : Word) : Bool := bit cfg 5
def cfgSmooth (cfg : Word) : Bool := bit cfg 6
def cfgMulti (cfg : Word) : Bool := bit cfg 7

/-- `COMP_CFG[c]` and its fields (`10_state.md` R59). -/
def Regs.comp (r : Regs) (c : Nat) : Word := r.compCfg.getD c 0
def compH (w : Word) : Nat := bits w 0 3
def compV (w : Word) : Nat := bits w 3 3
def compQuant (w : Word) : Nat := bits w 6 2
def compDc (w : Word) : Nat := bits w 8 4
def compAc (w : Word) : Nat := bits w 12 4

/-- `arith_dc_L`, `arith_dc_U`, `arith_ac_K` of `ARITH_COND[t]` (`10_state.md` R60), read live
(`70_reset_and_hazards.md` R962). -/
def Regs.condL (r : Regs) (t : Nat) : Nat := bits (r.arithCond.getD t 0) 0 4
def Regs.condU (r : Regs) (t : Nat) : Nat := bits (r.arithCond.getD t 0) 4 4
def Regs.condK (r : Regs) (t : Nat) : Nat := bits (r.arithCond.getD t 0) 8 8

/-- The restart interval, the scan's descriptor fields and the component indexes (`10_state.md` R56 to R58). -/
def restartField (w : Word) : Nat := bits w 0 16
def scanSs (w : Word) : Nat := bits w 0 6
def scanSe (w : Word) : Nat := bits w 6 6
def scanAh (w : Word) : Nat := bits w 12 4
def scanAl (w : Word) : Nat := bits w 16 4
def scanCount (w : Word) : Nat := bits w 20 3
def scanComp (w : Word) (i : Nat) : Nat := bits w (4 * i) 4

/-! ## Components -/

/-- The image state of component `c`. -/
def Image.comp (m : Image) (c : Nat) : ImageComp := m.comps.getD c ImageComp.reset

def Image.withComp (m : Image) (c : Nat) (x : ImageComp) : Image := { m with comps := m.comps.setIfInBounds c x }

/-- The scan state of scan component `i`. -/
def Scan.comp (n : Scan) (i : Nat) : ScanComp := n.comps.getD i ScanComp.reset

def Scan.withComp (n : Scan) (i : Nat) (x : ScanComp) : Scan := { n with comps := n.comps.setIfInBounds i x }

/-- The number of components, `PROG` and `ARITH` of the latched `img` (`10_state.md` R70). -/
def Image.components (m : Image) : Nat := cfgComponents m.cfg
def Image.prog (m : Image) : Bool := cfgProg m.cfg
def Image.arith (m : Image) : Bool := cfgArith m.cfg
def Image.multi (m : Image) : Bool := cfgMulti m.cfg

/-- `last_dc_val[i]` as a signed integer, `dc_context[i]` (`10_state.md` R74, R75). -/
def Entropy.dc (e : Entropy) (i : Nat) : Int := (e.lastDc.getD i 0).toInt

def Entropy.withDc (e : Entropy) (i : Nat) (v : Int) : Entropy :=
  { e with lastDc := e.lastDc.setIfInBounds i (word32 v) }

def Entropy.context (e : Entropy) (i : Nat) : Nat := (e.dcContext.getD i 0).toNat

def Entropy.withContext (e : Entropy) (i v : Nat) : Entropy :=
  { e with dcContext := e.dcContext.setIfInBounds i (BitVec.ofNat 8 v) }

/-! ## The zigzag table (`30_encoding.md` R240) -/

def naturalOrderTable : List Nat :=
  [0, 1, 8, 16, 9, 2, 3, 10, 17, 24, 32, 25, 18, 11, 4, 5] ++
  [12, 19, 26, 33, 40, 48, 41, 34, 27, 20, 13, 6, 7, 14, 21, 28] ++
  [35, 42, 49, 56, 57, 50, 43, 36, 29, 22, 15, 23, 30, 37, 44, 51] ++
  [58, 59, 52, 45, 38, 31, 39, 46, 53, 60, 61, 54, 47, 55, 62, 63]

/-- `natural_order[k]`; entries 64..79 are 63. -/
def naturalOrder (k : Nat) : Nat := naturalOrderTable.getD k 63

end Sys2Proof.Machine
end

