-- ==== Sys2Proof/Machine/Flags.lean ====
section
/-! DEFINITION. The status word and the codes of the status registers (`10_state.md` R63 to R65, R69, R72;
`60_exceptions.md` R901, R904). -/

namespace Sys2Proof.Machine

/-- `RESULT_KIND` (`10_state.md` R63). -/
def ResultKind.code : ResultKind → Nat
  | .done => 0
  | .suspended => 1
  | .rowCompleted => 2
  | .scanCompleted => 3

/-- `SUSPEND_CAUSE` (`10_state.md` R63). -/
def SuspendCause.code : SuspendCause → Nat
  | .none => 0
  | .inputEmpty => 1
  | .outputFull => 2
  | .scanNeeded => 3

/-- `SCAN_MODE` (`10_state.md` R72). -/
def ScanMode.code : ScanMode → Nat
  | .none => 0
  | .hufSeq => 1
  | .hufDcFirst => 2
  | .hufAcFirst => 3
  | .hufDcRefine => 4
  | .hufAcRefine => 5
  | .ariSeq => 6
  | .ariDcFirst => 7
  | .ariAcFirst => 8
  | .ariDcRefine => 9
  | .ariAcRefine => 10

/-- The fault codes (`60_exceptions.md` R901). -/
def FaultCode.code : FaultCode → Nat
  | .illegalCommand => 1
  | .badState => 2
  | .badHuffTable => 3
  | .noHuffTable => 4
  | .noArithTable => 5
  | .badProgression => 6
  | .badComponent => 7
  | .badSampling => 8
  | .badMcuSize => 9
  | .badDimension => 10
  | .outOfMemory => 11
  | .badDctCoef => 12
  | .huffMissingCode => 13
  | .badProbState => 14

/-- The warning codes (`60_exceptions.md` R904). -/
def Warning.code : Warning → Nat
  | .hitMarker => 1
  | .huffBadCode => 2
  | .arithBadCode => 3
  | .bogusProgression => 4
  | .notSequential => 5
  | .mustResync => 6
  | .extraneousData => 7

/-- The `FAULT` register (`10_state.md` R64). -/
def Status.faultCode (t : Status) : Nat :=
  match t.fault with
  | none => 0
  | some f => f.code

/-- The `WARN_LAST` register (`10_state.md` R65). -/
def Status.warnCode (t : Status) : Nat :=
  match t.warnLast with
  | none => 0
  | some w => w.code

/-- One bit of a status word. -/
def flag (b : Bool) : Nat := if b then 1 else 0

/-- An arithmetic decode scan is active (`10_state.md` R84). -/
def State.arithDecoding (s : State) : Bool :=
  s.scan.active && decide (s.scan.dir = .decode) && decide (6 ≤ s.scan.mode.code)

/-- `STATUS.ARITH_ERR` (`10_state.md` R84). -/
def State.arithErr (s : State) : Bool := s.arithDecoding && decide (s.ent.ct = -1)

/-- The `STATUS` register (`10_state.md` R63). -/
def State.statusWord (s : State) : Nat :=
  s.status.resultKind.code
    + flag s.status.fault.isSome * 2 ^ 2
    + flag s.ent.insufficient * 2 ^ 3
    + flag s.arithErr * 2 ^ 4
    + flag s.scan.active * 2 ^ 5
    + flag s.image.active * 2 ^ 6
    + flag s.ctl.outputPass * 2 ^ 7
    + flag s.ctl.smoothing * 2 ^ 8
    + flag s.image.eoiReached * 2 ^ 9
    + flag (decide (s.ctl.mode = .multiScan)) * 2 ^ 10
    + flag (decide (s.scan.dir = .encode)) * 2 ^ 11
    + s.scan.mode.code * 2 ^ 12
    + s.status.suspendCause.code * 2 ^ 16

end Sys2Proof.Machine
end

