-- ==== Sys2Proof/Machine/Csr.lean ====
section
/-! DEFINITION. The host's view of the registers (the `CSR` space of `20_memory.md` R150, laid out by `10_state.md` §3,
§4, §10, §11). -/

namespace Sys2Proof.Machine

/-- `hi` in the high half of a word, `lo` in the low half. -/
def halves (hi lo : Nat) : Word := BitVec.ofNat 32 (hi % 2 ^ 16 * 2 ^ 16 + lo % 2 ^ 16)

/-- `ID` (`10_state.md` R62). -/
def idWord : Word := 0x4A454331

/-- A configuration register (`10_state.md` R54 to R61, R90, R91), or nothing at another address. -/
def Regs.read (r : Regs) (a : Nat) : Option Word :=
  if a = 0x010 then some r.imgDim
  else if a = 0x011 then some r.imgCfg
  else if a = 0x012 then some r.restart
  else if a = 0x013 then some r.scan
  else if a = 0x014 then some r.scanComps
  else if a = 0x015 then some r.outScan
  else if a = 0x016 then some r.hspecValid
  else if a = 0x017 then some r.qtblValid
  else if 0x020 ≤ a ∧ a < 0x02A then some (r.comp (a - 0x020))
  else if 0x030 ≤ a ∧ a < 0x040 then some (r.arithCond.getD (a - 0x030) 0)
  else none

/-- The configuration registers after a host write, or nothing at another address. A reserved field reads 0 and ignores
writes (`10_state.md` §3), so the register keeps the bits of its fields only. -/
def Regs.write (r : Regs) (a : Nat) (v : Word) : Option Regs :=
  if a = 0x010 then some { r with imgDim := v }
  else if a = 0x011 then some { r with imgCfg := v &&& 0xFF }
  else if a = 0x012 then some { r with restart := v &&& 0xFFFF }
  else if a = 0x013 then some { r with scan := v &&& 0x7FFFFF }
  else if a = 0x014 then some { r with scanComps := v &&& 0xFFFF }
  else if a = 0x015 then some { r with outScan := v &&& 0xFFFF }
  else if a = 0x016 then some { r with hspecValid := v &&& 0xFF }
  else if a = 0x017 then some { r with qtblValid := v &&& 0xF }
  else if 0x020 ≤ a ∧ a < 0x02A then some { r with compCfg := r.compCfg.setIfInBounds (a - 0x020) (v &&& 0xFFFF) }
  else if 0x030 ≤ a ∧ a < 0x040 then some { r with arithCond := r.arithCond.setIfInBounds (a - 0x030) (v &&& 0xFFFF) }
  else none

/-- The status registers, `ID` and `CMD` (`10_state.md` R62 to R68, R92). -/
def State.readStatus (s : State) (a : Nat) : Option Word :=
  if a = 0x000 then some idWord
  else if a = 0x001 then some (BitVec.ofNat 32 s.statusWord)
  else if a = 0x002 then some (BitVec.ofNat 32 s.status.faultCode)
  else if a = 0x003 then some (BitVec.ofNat 32 s.status.warnCount)
  else if a = 0x004 then some (BitVec.ofNat 32 s.status.warnCode)
  else if a = 0x005 then some s.status.result
  else if a = 0x006 then some s.status.discarded
  else if a = 0x007 then some (BitVec.ofNat 32 s.ent.unreadMarker.toNat)
  else if a = 0x008 then some 0
  else none

/-- The observation registers 0x040 to 0x04F (`10_state.md` R69). -/
def State.readRunning (s : State) (a : Nat) : Option Word :=
  if a = 0x040 then some (BitVec.ofNat 32 s.image.inputScanNumber.toNat)
  else if a = 0x041 then some (BitVec.ofNat 32 s.ctl.inputRow)
  else if a = 0x042 then some (BitVec.ofNat 32 s.ctl.outputRow)
  else if a = 0x043 then some (halves s.ctl.mcuVert s.ctl.mcuCtr)
  else if a = 0x044 then some (halves (s.ent.nextRestart % 8) s.ent.restartsToGo)
  else if a = 0x045 then some (BitVec.ofNat 32 s.ent.eobrun)
  else if a = 0x046 then some (BitVec.ofNat 32 s.ent.bitBuffer.length)
  else if a = 0x047 then some s.ent.getBuffer
  else if a = 0x048 then some (BitVec.ofNat 32 s.ent.bitsLeft)
  else if a = 0x049 then some s.ent.c
  else if a = 0x04A then some s.ent.a
  else if a = 0x04B then some s.ent.ct
  else if a = 0x04C then some s.ent.sc
  else if a = 0x04D then some s.ent.zc
  else if a = 0x04E then some s.ent.buffer
  else if a = 0x04F then some (BitVec.ofNat 32 s.ent.putBuffer.toNat)
  else none

/-- The observation registers 0x050 to 0x06C (`10_state.md` R69). -/
def State.readGeometry (s : State) (a : Nat) : Option Word :=
  if 0x050 ≤ a ∧ a < 0x054 then some (s.ent.lastDc.getD (a - 0x050) 0)
  else if 0x054 ≤ a ∧ a < 0x058 then some (BitVec.ofNat 32 (s.ent.context (a - 0x054)))
  else if a = 0x058 then some (BitVec.ofNat 32 s.ent.fixedBin.toNat)
  else if a = 0x059 then some (BitVec.ofNat 32 s.ent.putBits)
  else if 0x060 ≤ a ∧ a < 0x06A then
    some (halves (s.image.comp (a - 0x060)).heightInBlocks (s.image.comp (a - 0x060)).widthInBlocks)
  else if a = 0x06A then some (BitVec.ofNat 32 s.image.totalRows)
  else if a = 0x06B then some (halves s.scan.mcuRowsInScan s.scan.mcusPerRow)
  else if a = 0x06C then some (BitVec.ofNat 32 s.scan.blocksInMcu)
  else none

/-- `csr.r` (`30_encoding.md` R214): the register at `a`, or nothing at an address `10_state.md` does not define. -/
def State.readCsr (s : State) (a : Nat) : Option Word :=
  s.regs.read a <|> s.readStatus a <|> s.readRunning a <|> s.readGeometry a

end Sys2Proof.Machine
end

