-- ==== Sys2Proof/Machine/QmCoder.lean ====
section
/-! DEFINITION. The QM arithmetic coder engine (spec/40_qm_coder.md): the probability table, the encoder and its
termination, the decoder, and the engine commands `ARITH_*`. -/

namespace Sys2Proof.Machine

/-! ## The probability table (`40_qm_coder.md` R300 to R303) -/

/-- One entry: `Qe`, `NLPS`, `NMPS`, `SW`. -/
structure QeEntry where
  qe : Word
  nlps : Nat
  nmps : Nat
  sw : Bool
  deriving DecidableEq, Repr

/-- Entries 0 to 19. -/
def qeTable0 : List QeEntry :=
  [⟨0x5A1D, 1, 1, true⟩, ⟨0x2586, 14, 2, false⟩, ⟨0x1114, 16, 3, false⟩, ⟨0x080B, 18, 4, false⟩,
   ⟨0x03D8, 20, 5, false⟩, ⟨0x01DA, 23, 6, false⟩, ⟨0x00E5, 25, 7, false⟩, ⟨0x006F, 28, 8, false⟩,
   ⟨0x0036, 30, 9, false⟩, ⟨0x001A, 33, 10, false⟩, ⟨0x000D, 35, 11, false⟩, ⟨0x0006, 9, 12, false⟩,
   ⟨0x0003, 10, 13, false⟩, ⟨0x0001, 12, 13, false⟩, ⟨0x5A7F, 15, 15, true⟩, ⟨0x3F25, 36, 16, false⟩,
   ⟨0x2CF2, 38, 17, false⟩, ⟨0x207C, 39, 18, false⟩, ⟨0x17B9, 40, 19, false⟩, ⟨0x1182, 42, 20, false⟩]

/-- Entries 20 to 39. -/
def qeTable1 : List QeEntry :=
  [⟨0x0CEF, 43, 21, false⟩, ⟨0x09A1, 45, 22, false⟩, ⟨0x072F, 46, 23, false⟩, ⟨0x055C, 48, 24, false⟩,
   ⟨0x0406, 49, 25, false⟩, ⟨0x0303, 51, 26, false⟩, ⟨0x0240, 52, 27, false⟩, ⟨0x01B1, 54, 28, false⟩,
   ⟨0x0144, 56, 29, false⟩, ⟨0x00F5, 57, 30, false⟩, ⟨0x00B7, 59, 31, false⟩, ⟨0x008A, 60, 32, false⟩,
   ⟨0x0068, 62, 33, false⟩, ⟨0x004E, 63, 34, false⟩, ⟨0x003B, 32, 35, false⟩, ⟨0x002C, 33, 9, false⟩,
   ⟨0x5AE1, 37, 37, true⟩, ⟨0x484C, 64, 38, false⟩, ⟨0x3A0D, 65, 39, false⟩, ⟨0x2EF1, 67, 40, false⟩]

/-- Entries 40 to 59. -/
def qeTable2 : List QeEntry :=
  [⟨0x261F, 68, 41, false⟩, ⟨0x1F33, 69, 42, false⟩, ⟨0x19A8, 70, 43, false⟩, ⟨0x1518, 72, 44, false⟩,
   ⟨0x1177, 73, 45, false⟩, ⟨0x0E74, 74, 46, false⟩, ⟨0x0BFB, 75, 47, false⟩, ⟨0x09F8, 77, 48, false⟩,
   ⟨0x0861, 78, 49, false⟩, ⟨0x0706, 79, 50, false⟩, ⟨0x05CD, 48, 51, false⟩, ⟨0x04DE, 50, 52, false⟩,
   ⟨0x040F, 50, 53, false⟩, ⟨0x0363, 51, 54, false⟩, ⟨0x02D4, 52, 55, false⟩, ⟨0x025C, 53, 56, false⟩,
   ⟨0x01F8, 54, 57, false⟩, ⟨0x01A4, 55, 58, false⟩, ⟨0x0160, 56, 59, false⟩, ⟨0x0125, 57, 60, false⟩]

/-- Entries 60 to 79. -/
def qeTable3 : List QeEntry :=
  [⟨0x00F6, 58, 61, false⟩, ⟨0x00CB, 59, 62, false⟩, ⟨0x00AB, 61, 63, false⟩, ⟨0x008F, 61, 32, false⟩,
   ⟨0x5B12, 65, 65, true⟩, ⟨0x4D04, 80, 66, false⟩, ⟨0x412C, 81, 67, false⟩, ⟨0x37D8, 82, 68, false⟩,
   ⟨0x2FE8, 83, 69, false⟩, ⟨0x293C, 84, 70, false⟩, ⟨0x2379, 86, 71, false⟩, ⟨0x1EDF, 87, 72, false⟩,
   ⟨0x1AA9, 87, 73, false⟩, ⟨0x174E, 72, 74, false⟩, ⟨0x1424, 72, 75, false⟩, ⟨0x119C, 74, 76, false⟩,
   ⟨0x0F6B, 74, 77, false⟩, ⟨0x0D51, 75, 78, false⟩, ⟨0x0BB6, 77, 79, false⟩, ⟨0x0A40, 77, 48, false⟩]

/-- Entries 80 to 99. -/
def qeTable4 : List QeEntry :=
  [⟨0x5832, 80, 81, true⟩, ⟨0x4D1C, 88, 82, false⟩, ⟨0x438E, 89, 83, false⟩, ⟨0x3BDD, 90, 84, false⟩,
   ⟨0x34EE, 91, 85, false⟩, ⟨0x2EAE, 92, 86, false⟩, ⟨0x299A, 93, 87, false⟩, ⟨0x2516, 86, 71, false⟩,
   ⟨0x5570, 88, 89, true⟩, ⟨0x4CA9, 95, 90, false⟩, ⟨0x44D9, 96, 91, false⟩, ⟨0x3E22, 97, 92, false⟩,
   ⟨0x3824, 99, 93, false⟩, ⟨0x32B4, 99, 94, false⟩, ⟨0x2E17, 93, 86, false⟩, ⟨0x56A8, 95, 96, true⟩,
   ⟨0x4F46, 101, 97, false⟩, ⟨0x47E5, 102, 98, false⟩, ⟨0x41CF, 103, 99, false⟩, ⟨0x3C3D, 104, 100, false⟩]

/-- Entries 100 to 112. -/
def qeTable5 : List QeEntry :=
  [⟨0x375E, 99, 93, false⟩, ⟨0x5231, 105, 102, false⟩, ⟨0x4C0F, 106, 103, false⟩, ⟨0x4639, 107, 104, false⟩,
   ⟨0x415E, 103, 99, false⟩, ⟨0x5627, 105, 106, true⟩, ⟨0x50E7, 108, 107, false⟩, ⟨0x4B85, 109, 103, false⟩,
   ⟨0x5597, 110, 109, false⟩, ⟨0x504F, 111, 110, false⟩, ⟨0x5A10, 110, 111, true⟩, ⟨0x5522, 112, 112, false⟩,
   ⟨0x59EB, 111, 112, true⟩]

/-- The 113 entries (`40_qm_coder.md` R300). -/
def qeTable : List QeEntry :=
  qeTable0 ++ qeTable1 ++ qeTable2 ++ qeTable3 ++ qeTable4 ++ qeTable5

/-- The entry of an index, or nothing outside the table (R300 to R302): index 113 is in it in mode `ENTRY113` only. -/
def qeEntry (mode : FixedBinMode) (i : Nat) : Option QeEntry :=
  if i < 113 then qeTable[i]?
  else if i = 113 ∧ mode = .entry113 then some ⟨0x5A1D, 113, 113, false⟩
  else none

/-- `mps(sv)` (R302; `00_scope.md` R13). -/
def mpsOf (sv : Byte) : Bool := decide (128 ≤ sv.toNat)

/-- `idx(sv)` (R302; `00_scope.md` R13). -/
def idxOf (sv : Byte) : Nat := sv.toNat % 128

/-- The probability-state byte `{mps, idx}` (`00_scope.md` R13). -/
def stateByte (mps : Bool) (idx : Nat) : Byte := BitVec.ofNat 8 ((if mps then 128 else 0) + idx)

/-- The state after an MPS (R303). -/
def afterMps (sv : Byte) (q : QeEntry) : Byte := stateByte (mpsOf sv) q.nmps

/-- The state after an LPS (R303). -/
def afterLps (sv : Byte) (q : QeEntry) : Byte := stateByte (mpsOf sv ^^ q.sw) q.nlps

/-! ## Bins (`40_qm_coder.md` R305, R306) -/

/-- What an operation does before it uses a bin: in mode `ZERO_EACH_USE` the fixed bin is 0 (R306). -/
def freshenBin (b : Bin) : Proc Unit := do
  let s ← get
  if b = .fixed ∧ s.cfg.fixedBinMode = .zeroEachUse then setBin .fixed 0

/-- The fixed bin at `START_SCAN`, at a restart and at `ARITH_ENC_INIT`/`ARITH_DEC_INIT` (R306). -/
def initFixedBin : Proc Unit := do
  let s ← get
  match s.cfg.fixedBinMode with
  | .zeroEachUse => pure ()
  | .persistentZero => setBin .fixed 0
  | .entry113 => setBin .fixed 113

/-- The state byte of a bin and its table entry; an index outside the table is `BAD_PROB_STATE` (R302). -/
def useBin (b : Bin) : Proc (Byte × QeEntry) := do
  freshenBin b
  let s ← get
  match qeEntry s.cfg.fixedBinMode (idxOf (s.binByte b)) with
  | none => raise .badProbState
  | some q => pure (s.binByte b, q)

/-! ## Encoder (`40_qm_coder.md` R310 to R312) -/

/-- `arith_enc_init()` (R310). -/
def arithEncInit : Proc Unit :=
  modEnt fun e => { e with c := 0, a := 0x10000, ct := 11, sc := 0, zc := 0, buffer := -1 }

/-- `emit(v)` (R312): a 0xFF is followed by 0x00. -/
def emitByte (v : Nat) : Proc Unit := do
  outByte v
  if v = 0xFF then outByte 0

/-- `emit_zeros()` (R312). -/
def emitZeros : Proc Unit := do
  let s ← get
  forUpTo s.ent.zc.toNat fun _ => outByte 0
  modEnt fun e => { e with zc := 0 }

/-- The held byte goes out with a carry added, and the stacked 0xFF bytes become 0x00 bytes (R312, R330). -/
def flushCarry : Proc Unit := do
  let s ← get
  if 0 ≤ s.ent.buffer.toInt then do
    emitZeros
    emitByte (s.ent.buffer.toInt + 1).toNat
  modEnt fun e => { e with zc := e.zc + e.sc, sc := 0 }

/-- The held byte goes out unchanged, then the stacked 0xFF bytes (R312, R330). -/
def flushHeld : Proc Unit := do
  let s ← get
  if s.ent.buffer = 0 then modEnt fun e => { e with zc := e.zc + 1 }
  else if 0 ≤ s.ent.buffer.toInt then do
    emitZeros
    emitByte s.ent.buffer.toNat
  if s.ent.sc ≠ 0 then do
    emitZeros
    forUpTo s.ent.sc.toNat fun _ => do
      outByte 0xFF
      outByte 0
    modEnt fun e => { e with sc := 0 }

/-- `enc_byte_out()` (R312). -/
def encByteOut : Proc Unit := do
  let s ← get
  let temp := s.ent.c.toNat / 2 ^ 19
  if 0xFF < temp then do
    flushCarry
    modEnt fun e => { e with buffer := BitVec.ofNat 32 (temp % 256) }
  else if temp = 0xFF then modEnt fun e => { e with sc := e.sc + 1 }
  else do
    flushHeld
    modEnt fun e => { e with buffer := BitVec.ofNat 32 (temp % 256) }
  modEnt fun e => { e with c := e.c &&& 0x7FFFF }

/-- The renormalization loop of `arith_encode` (R311). An interval that is not 0 reaches 0x8000 within 15 doublings;
an interval of 0 never does (log 7). -/
def encRenorm : Nat → Proc Unit
  | 0 => throw (.stop .loopNeverEnds)
  | fuel + 1 => do
    modEnt fun e => { e with a := e.a <<< 1, c := e.c <<< 1, ct := e.ct - 1 }
    let s ← get
    if s.ent.ct = 0 then do
      encByteOut
      modEnt fun e => { e with ct := e.ct + 8 }
    let s ← get
    if 0x8000 ≤ s.ent.a.toNat then pure () else encRenorm fuel

/-- `arith_encode(bin, bit)` (R311). -/
def arithEncode (b : Bin) (x : Bool) : Proc Unit := do
  let (sv, q) ← useBin b
  modEnt fun e => { e with a := e.a - q.qe }
  let s ← get
  if x ≠ mpsOf sv then do
    if q.qe.toNat ≤ s.ent.a.toNat then modEnt fun e => { e with c := e.c + e.a, a := q.qe }
    setBin b (afterLps sv q)
    encRenorm 16
  else if 0x8000 ≤ s.ent.a.toNat then pure ()
  else do
    if s.ent.a.toNat < q.qe.toNat then modEnt fun e => { e with c := e.c + e.a, a := q.qe }
    setBin b (afterMps sv q)
    encRenorm 16

/-- The value in `[C, C+A)` with most trailing zeros, aligned by `ct` (the first three lines of R330). -/
def finalCode (e : Entropy) : Nat :=
  let temp := (((e.a.toNat : Int) - 1 + e.c.toNat) % 2 ^ 32).toNat / 2 ^ 16 * 2 ^ 16
  shiftBy (if temp < e.c.toNat then (temp + 0x8000) % 2 ^ 32 else temp) e.ct.toInt

/-- `arith_enc_finish()` (R330). -/
def arithEncFinish : Proc Unit := do
  modEnt fun e => { e with c := BitVec.ofNat 32 (finalCode e) }
  let s ← get
  if s.ent.c &&& 0xF8000000 ≠ 0 then flushCarry else flushHeld
  if s.ent.c &&& 0x7FFF800 ≠ 0 then do
    emitZeros
    emitByte (s.ent.c.toNat / 2 ^ 19 % 256)
    if s.ent.c &&& 0x7F800 ≠ 0 then emitByte (s.ent.c.toNat / 2 ^ 11 % 256)

/-! ## Decoder (`40_qm_coder.md` R320 to R322) -/

/-- `arith_dec_init()` (R320). -/
def arithDecInit : Proc Unit := modEnt fun e => { e with c := 0, a := 0, ct := -16 }

/-- `dec_byte_in()` (R322). -/
def decByteIn : Proc Nat := do
  let s ← get
  if s.ent.unreadMarker ≠ 0 then pure 0
  else do
    let d ← inByte
    if d ≠ 0xFF then pure d.toNat
    else do
      let m ← inByteAfterFill
      if m = 0 then pure 0xFF
      else do
        modEnt fun e => { e with unreadMarker := m }
        pure 0

/-- The input of a byte into `C` (the body of `if ct < 0` in R321). -/
def decFetch : Proc Unit := do
  let d ← decByteIn
  modEnt fun e => { e with c := (e.c <<< 8) ||| BitVec.ofNat 32 d, ct := e.ct + 8 }
  let s ← get
  if s.ent.ct.toInt < 0 then do
    modEnt fun e => { e with ct := e.ct + 1 }
    let s ← get
    if s.ent.ct = 0 then modEnt fun e => { e with a := 0x8000 }

/-- The renormalization and byte-input loop at the start of `arith_decode` (R321). -/
def decRenorm : Nat → Proc Unit
  | 0 => throw (.stop .loopNeverEnds)
  | fuel + 1 => do
    let s ← get
    if 0x8000 ≤ s.ent.a.toNat then pure ()
    else do
      modEnt fun e => { e with ct := e.ct - 1 }
      let s ← get
      if s.ent.ct.toInt < 0 then decFetch
      modEnt fun e => { e with a := e.a <<< 1 }
      decRenorm fuel

/-- `arith_decode(bin)` (R321). -/
def arithDecode (b : Bin) : Proc Bool := do
  decRenorm 32
  let (sv, q) ← useBin b
  modEnt fun e => { e with a := e.a - q.qe }
  let s ← get
  let t := shiftBy s.ent.a.toNat s.ent.ct.toInt
  let exchanged := decide (s.ent.a.toNat < q.qe.toNat)
  if t ≤ s.ent.c.toNat then do
    modEnt fun e => { e with c := BitVec.ofNat 32 (e.c.toNat - t), a := q.qe }
    if exchanged then do
      setBin b (afterMps sv q)
      pure (mpsOf sv)
    else do
      setBin b (afterLps sv q)
      pure (!mpsOf sv)
  else if s.ent.a.toNat < 0x8000 then
    if exchanged then do
      setBin b (afterLps sv q)
      pure (!mpsOf sv)
    else do
      setBin b (afterMps sv q)
      pure (mpsOf sv)
  else pure (mpsOf sv)

/-! ## Engine commands (`40_qm_coder.md` §6) -/

/-- `SCAN_ACTIVE` = 0, else `Fault(BAD_STATE)`: every engine command (`40_qm_coder.md` §6, `41_huffman_tables.md` §4). -/
def demandNoScan : Proc Unit := do
  let s ← get
  demand (!s.scan.active) .badState

/-- `ARITH_ENC_INIT` (R350). -/
def execArithEncInit (s : State) : Host.Outcome State Fault Refusal :=
  singleStep (do demandNoScan; arithEncInit; initFixedBin) s

/-- `ARITH_ENCODE` (R351). -/
def execArithEncode (bin : BinOperand) (x : Bool) (s : State) : Host.Outcome State Fault Refusal :=
  singleStep (do demandNoScan; arithEncode (binOperand bin) x) s

/-- `ARITH_ENC_FLUSH` (R352). -/
def execArithEncFlush (s : State) : Host.Outcome State Fault Refusal :=
  singleStep (do demandNoScan; arithEncFinish; arithEncInit) s

/-- `ARITH_DEC_INIT` (R353). -/
def execArithDecInit (s : State) : Host.Outcome State Fault Refusal :=
  singleStep (do
    demandNoScan
    arithDecInit
    modEnt fun e => { e with unreadMarker := 0 }
    initFixedBin) s

/-- `ARITH_DECODE` (R354). -/
def execArithDecode (bin : BinOperand) (s : State) : Host.Outcome State Fault Refusal :=
  singleStep (do
    demandNoScan
    let x ← arithDecode (binOperand bin)
    modStatus fun t => { t with result := if x then 1 else 0 }) s

end Sys2Proof.Machine
end

