-- ==== Sys2Proof/Machine/HuffTables.lean ====
section
/-! DEFINITION. Huffman derived tables with their lookahead cache, the bit reader and writer, and the commands `HT_*`
(spec/41_huffman_tables.md). -/

namespace Sys2Proof.Machine

/-! ## Code generation (`41_huffman_tables.md` R400, R401) -/

/-- The base of a slot's record in `HSPEC` (`20_memory.md` R153). -/
def hspecBase (cls : TableClass) (t : Nat) : Nat := tableSlot cls t * 0x120

/-- `(l, bits[l])` for l = 1..16. -/
def State.specCounts (s : State) (cls : TableClass) (t : Nat) : List (Nat × Nat) :=
  (List.range 16).map fun i => (i + 1, (Cells.read 0 s.hspec (hspecBase cls t + (i + 1))).toNat)

/-- `huffval[p]`. -/
def State.specSymbol (s : State) (cls : TableClass) (t p : Nat) : Byte :=
  Cells.read 0 s.hspec (hspecBase cls t + 0x20 + p)

/-- The first half of `gen_codes`: `size[p]` of every symbol, or nothing where the counts pass 256 (R401). `p` is the
number of symbols so far. -/
def genSizes : Nat → List (Nat × Nat) → Option (List Nat)
  | _, [] => some []
  | p, (l, n) :: t =>
    if 256 < p + n then none
    else
      match genSizes (p + n) t with
      | none => none
      | some sizes => some (List.replicate n l ++ sizes)

/-- The second half of `gen_codes`: `code[p]` of every symbol, or nothing where the codes pass `l` bits (R401). `c` is
the next code. -/
def genCodeValues : Nat → List (Nat × Nat) → Option (List Nat)
  | _, [] => some []
  | c, (l, n) :: t =>
    if 2 ^ l ≤ c + n then none
    else
      match genCodeValues ((c + n) * 2) t with
      | none => none
      | some codes => some ((List.range n).map (c + ·) ++ codes)

/-- A symbol with its code, in symbol order. -/
structure HuffCode where
  size : Nat
  code : Nat
  sym : Byte
  deriving DecidableEq, Repr

/-- `gen_codes(h)` (R401) with the symbols; the overrun check comes before the overflow check. -/
def State.genCodes (s : State) (cls : TableClass) (t : Nat) : Option (List HuffCode) :=
  match genSizes 0 (s.specCounts cls t), genCodeValues 0 (s.specCounts cls t) with
  | some sizes, some codes =>
    some ((List.range sizes.length).map fun p =>
      ⟨sizes.getD p 0, codes.getD p 0, s.specSymbol cls t p⟩)
  | _, _ => none

/-! ## Decoder table (`41_huffman_tables.md` R402, R403) -/

/-- `(l, maxcode[l], valoffset[l])` for the lengths of `counts`; `p` symbols come before them. -/
def lengthLimits (codes : List HuffCode) : Nat → List (Nat × Nat) → List (Nat × Word × Word)
  | _, [] => []
  | p, (l, n) :: t =>
    (if n = 0 then (l, -1, 0)
     else (l, BitVec.ofNat 32 ((codes.getD (p + n - 1) ⟨0, 0, 0⟩).code),
       word32 ((p : Int) - (codes.getD p ⟨0, 0, 0⟩).code)))
    :: lengthLimits codes (p + n) t

/-- The entries of the lookahead cache a code of at most 8 bits fills: `w` from `code << (8 - l)` up. -/
def lookEntries (c : HuffCode) : List Nat :=
  if c.size ≤ 8 then (List.range (2 ^ (8 - c.size))).map fun j => c.code * 2 ^ (8 - c.size) + j else []

/-- The derived record with its decoder half built (R402). -/
def decoderTable (counts : List (Nat × Nat)) (codes : List HuffCode) (vals : Cells Byte) (old : DerivedTable) :
    DerivedTable :=
  let limits := lengthLimits codes 0 counts
  { old with
    maxcode := Cells.writes 0 [] (limits.map (fun x => (x.1, x.2.1)) ++ [(17, 0xFFFFF)])
    valoffset := Cells.writes 0 [] (limits.map fun x => (x.1, x.2.2))
    lookNbits := Cells.writes 0 [] (codes.flatMap fun c => (lookEntries c).map fun w => (w, BitVec.ofNat 8 c.size))
    lookSym := Cells.writes 0 [] (codes.flatMap fun c => (lookEntries c).map fun w => (w, c.sym))
    dval := vals
    dvalid := true }

/-- The checks of R400: the slot names a table and its specification is present (`10_state.md` R90). -/
def demandSpec (cls : TableClass) (t : Nat) : Proc Unit := do
  let s ← get
  demand (decide (t ≤ 3) && bit s.regs.hspecValid (tableSlot cls t)) .noHuffTable

/-- `gen_codes(h)` as a procedure: a malformed specification is `BAD_HUFF_TABLE` (R401). -/
def genCodes (cls : TableClass) (t : Nat) : Proc (List HuffCode) := do
  let s ← get
  match s.genCodes cls t with
  | none => raise .badHuffTable
  | some codes => pure codes

/-- `build_dec(cls, t)` (R402): every check comes before the first write. -/
def buildDec (cls : TableClass) (t : Nat) : Proc Unit := do
  demandSpec cls t
  let codes ← genCodes cls t
  demand (cls = .ac || codes.all (fun c => decide (c.sym.toNat ≤ 15))) .badHuffTable
  modify fun s => s.withDerived cls t
    (decoderTable (s.specCounts cls t) codes (Cells.slice s.hspec (hspecBase cls t + 0x20) 256) (s.derived cls t))

/-! ## Encoder table (`41_huffman_tables.md` R404) -/

/-- The derived record with its encoder half built (R404). -/
def encoderTable (codes : List HuffCode) (old : DerivedTable) : DerivedTable :=
  { old with
    ehufco := Cells.writes 0 [] (codes.map fun c => (c.sym.toNat, BitVec.ofNat 16 c.code))
    ehufsi := Cells.writes 0 [] (codes.map fun c => (c.sym.toNat, BitVec.ofNat 8 c.size))
    evalid := true }

/-- `build_enc(cls, t)` (R404): every check comes before the first write. -/
def buildEnc (cls : TableClass) (t : Nat) : Proc Unit := do
  demandSpec cls t
  let codes ← genCodes cls t
  demand ((cls = .ac || codes.all (fun c => decide (c.sym.toNat ≤ 15))) &&
    decide ((codes.map HuffCode.sym).Nodup)) .badHuffTable
  modify fun s => s.withDerived cls t (encoderTable codes (s.derived cls t))

/-! ## Bit reader (`41_huffman_tables.md` R420 to R424) -/

/-- `read_entropy_byte()` (R420): `none` is `NONE`. -/
def readEntropyByte : Proc (Option Byte) := do
  let s ← get
  if s.ent.unreadMarker ≠ 0 then pure none
  else do
    let c ← inByte
    if c ≠ 0xFF then pure (some c)
    else do
      let m ← inByteAfterFill
      if m = 0 then pure (some 0xFF)
      else do
        modEnt fun e => { e with unreadMarker := m }
        pure none

/-- The loop of `fill` (R421). Each turn adds 8 bits, so `n` turns are enough. -/
def fillLoop (n : Nat) : Nat → Proc Unit
  | 0 => pure ()
  | fuel + 1 => do
    let s ← get
    if s.ent.bitsLeft < n then do
      let c ← readEntropyByte
      match c with
      | none => pure ()
      | some b => do
        modEnt fun e =>
          { e with getBuffer := (e.getBuffer <<< 8) ||| BitVec.ofNat 32 b.toNat, bitsLeft := e.bitsLeft + 8 }
        fillLoop n fuel
    else pure ()

/-- `fill(n, hard)` (R421). -/
def fill (n : Nat) (hard : Bool) : Proc Unit := do
  fillLoop n n
  let s ← get
  if s.ent.bitsLeft < n ∧ hard then do
    if s.ent.insufficient = false then do
      warn .hitMarker
      modEnt fun e => { e with insufficient := true }
    modEnt fun e => { e with getBuffer := e.getBuffer <<< (n - e.bitsLeft), bitsLeft := n }

/-- `peek(n)` (R421). -/
def peekBits (e : Entropy) (n : Nat) : Nat := e.getBuffer.toNat / 2 ^ (e.bitsLeft - n) % 2 ^ n

/-- `drop(n)` (R421). -/
def dropBits (n : Nat) (e : Entropy) : Entropy :=
  { e with
    bitsLeft := e.bitsLeft - n
    getBuffer := BitVec.ofNat 32 (e.getBuffer.toNat % 2 ^ (e.bitsLeft - n)) }

/-- `get_bits(n)` (R421). -/
def getBits (n : Nat) : Proc Nat := do
  fill n true
  let s ← get
  modEnt (dropBits n)
  pure (peekBits s.ent n)

/-- The slow path of `huff_decode` (R422): `maxcode[17]` stops it. -/
def slowDecode (d : DerivedTable) : Nat → Nat → Nat → Proc (Nat × Nat)
  | 0, code, l => pure (code, l)
  | fuel + 1, code, l =>
    if (Cells.read 0 d.maxcode l).toInt < (code : Int) then do
      let x ← getBits 1
      slowDecode d fuel (code * 2 + x) (l + 1)
    else pure (code, l)

/-- `huff_decode(cls, t)` (R422). -/
def huffDecode (cls : TableClass) (t : Nat) : Proc Nat := do
  fill 8 false
  let s ← get
  let d := s.derived cls t
  let nb := (Cells.read 0 d.lookNbits (peekBits s.ent 8)).toNat
  if 8 ≤ s.ent.bitsLeft ∧ nb ≠ 0 then do
    modEnt (dropBits nb)
    pure (Cells.read 0 d.lookSym (peekBits s.ent 8)).toNat
  else do
    let l := if 8 ≤ s.ent.bitsLeft then 9 else 1
    let first ← getBits l
    let (code, l) ← slowDecode d (17 - l) first l
    if 16 < l then do
      warn .huffBadCode
      pure 0
    else pure (Cells.read 0 d.dval ((code : Int) + (Cells.read 0 d.valoffset l).toInt).toNat).toNat

/-- `receive_extend(s)` (R423). -/
def receiveExtend (n : Nat) : Proc Int :=
  if n = 0 then pure 0
  else do
    let x ← getBits n
    pure (extend x n)

/-- `reader_reset()` (R424). -/
def readerReset : Proc Unit := modEnt fun e => { e with getBuffer := 0, bitsLeft := 0 }

/-! ## Bit writer (`41_huffman_tables.md` R430 to R433) -/

/-- The loop of `emit_bits` (R430): `buf` and `n` are `buf` and `put_bits`. -/
def emitLoop : Nat → Nat → Nat → Proc Unit
  | 0, buf, n => modEnt fun e => { e with putBuffer := BitVec.ofNat 24 buf, putBits := n }
  | fuel + 1, buf, n =>
    if 8 ≤ n then do
      let c := buf / 2 ^ 16 % 256
      outByte c
      if c = 0xFF then outByte 0
      emitLoop fuel (buf * 2 ^ 8 % 2 ^ 24) (n - 8)
    else modEnt fun e => { e with putBuffer := BitVec.ofNat 24 buf, putBits := n }

/-- `emit_bits(code, size)` (R430). -/
def emitBits (code size : Nat) : Proc Unit :=
  if size = 0 then raise .huffMissingCode
  else do
    let s ← get
    let n := s.ent.putBits + size
    emitLoop n ((code % 2 ^ size * 2 ^ (24 - n)) ||| s.ent.putBuffer.toNat) n

/-- `emit_symbol(t, s)` (R431). -/
def emitSymbol (cls : TableClass) (t sym : Nat) : Proc Unit := do
  let s ← get
  let d := s.derived cls t
  emitBits (Cells.read 0 d.ehufco sym).toNat (Cells.read 0 d.ehufsi sym).toNat

/-- `writer_reset()` (R433). -/
def writerReset : Proc Unit := modEnt fun e => { e with putBuffer := 0, putBits := 0 }

/-- `flush_bits()` (R432). -/
def flushBits : Proc Unit := do
  emitBits 0x7F 7
  writerReset

/-! ## Table and bit commands (`41_huffman_tables.md` §4) -/

/-- `HT_BUILD_DEC` (R440). -/
def execHtBuildDec (cls : TableClass) (slot : Nat) (s : State) : Host.Outcome State Fault Refusal :=
  singleStep (do demandNoScan; buildDec cls slot) s

/-- `HT_BUILD_ENC` (R441). -/
def execHtBuildEnc (cls : TableClass) (slot : Nat) (s : State) : Host.Outcome State Fault Refusal :=
  singleStep (do demandNoScan; buildEnc cls slot) s

/-- `HT_DECODE` (R442). -/
def execHtDecode (cls : TableClass) (slot : Nat) (s : State) : Host.Outcome State Fault Refusal :=
  singleStep (do
    demandNoScan
    let s ← get
    demand (decide (slot ≤ 3) && (s.derived cls slot).dvalid) .noHuffTable
    let x ← huffDecode cls slot
    modStatus fun t => { t with result := BitVec.ofNat 32 x }) s

/-- `HT_GETBITS` (R443). -/
def execHtGetbits (n : Nat) (s : State) : Host.Outcome State Fault Refusal :=
  singleStep (do
    demandNoScan
    let x ← getBits n
    modStatus fun t => { t with result := BitVec.ofNat 32 x }) s

/-- `HT_ENCODE` (R444). -/
def execHtEncode (cls : TableClass) (slot : Nat) (sym : Byte) (s : State) : Host.Outcome State Fault Refusal :=
  singleStep (do
    demandNoScan
    let s ← get
    demand (decide (slot ≤ 3) && (s.derived cls slot).evalid) .noHuffTable
    emitSymbol cls slot sym.toNat) s

/-- `HT_PUTBITS` (R445). -/
def execHtPutbits (n : Nat) (value : BitVec 16) (s : State) : Host.Outcome State Fault Refusal :=
  singleStep (do demandNoScan; emitBits value.toNat n) s

/-- `HT_FLUSH` (R446). -/
def execHtFlush (s : State) : Host.Outcome State Fault Refusal :=
  singleStep (do demandNoScan; flushBits) s

/-- `HT_RESET_BITS` (R447). -/
def execHtResetBits (s : State) : Host.Outcome State Fault Refusal :=
  singleStep (do
    demandNoScan
    readerReset
    writerReset
    modEnt fun e => { e with insufficient := false, unreadMarker := 0 }) s

end Sys2Proof.Machine
end

