-- ==== Sys2Proof/Machine/HuffCoder.lean ====
section
/-! DEFINITION. The Huffman entropy encoder and decoder, sequential and progressive (spec/42_huffman_entropy.md): the
`HUF_*` modes of `ENCODE_MCU`, `DECODE_MCU` and `FINISH_SCAN`. -/

namespace Sys2Proof.Machine

/-! ## Conventions (`42_huffman_entropy.md` R500) -/

/-- `dct(b)` of a block: `dc_tbl[ci(b)]`. -/
def State.dct (s : State) (b : McuBlock) : Nat := (s.scan.comp b.ci).dcTbl

/-- `ac_tbl[ci(b)]`. -/
def State.actOf (s : State) (b : McuBlock) : Nat := (s.scan.comp b.ci).acTbl

/-- `act` = `ac_tbl[0]`, the table of an AC scan. -/
def State.act (s : State) : Nat := (s.scan.comp 0).acTbl

/-- A routine of an AC scan runs on block 0 of the MCU, its only one. -/
def onFirst (blks : List McuBlock) (p : McuBlock → Proc Unit) : Proc Unit :=
  match blks with
  | [] => pure ()
  | b :: _ => p b

/-! ## Sequential mode (R507, R508) -/

/-- A DC symbol, its extra bits and the predictor's update (R507, R510): `last_dc_val[ci(b)] + d`, which is stored as
s32 (`10_state.md` R74). Answers the new predictor. -/
def hufDecodeDc (b : McuBlock) : Proc Int := do
  let s ← get
  let size ← huffDecode .dc (s.dct b)
  let d ← receiveExtend size
  modEnt fun e => e.withDc b.ci (e.dc b.ci + d)
  let s ← get
  pure (s.ent.dc b.ci)

/-- The AC loop of one block (R507). -/
def hufSeqAcLoop (b : McuBlock) (t : Nat) : Nat → Nat → Proc Unit
  | 0, _ => pure ()
  | fuel + 1, k =>
    if k ≤ 63 then do
      let rs ← huffDecode .ac t
      let r := rs / 16
      let n := rs % 16
      if n ≠ 0 then do
        let v ← receiveExtend n
        setCoef b.ref (naturalOrder (k + r)) v
        hufSeqAcLoop b t fuel (k + r + 1)
      else if r ≠ 15 then pure ()
      else hufSeqAcLoop b t fuel (k + 15 + 1)
    else pure ()

/-- Sequential decode of one block (R507). -/
def hufSeqDecodeBlock (b : McuBlock) : Proc Unit := do
  let dc ← hufDecodeDc b
  setCoef b.ref 0 dc
  let s ← get
  hufSeqAcLoop b (s.actOf b) 64 1

/-- A DC difference with its range check, symbol and extra bits (R508, R511). -/
def hufEncodeDcDiff (t : Nat) (d : Int) : Proc Unit := do
  demand (decide (cat d ≤ maxCoefBits + 1)) .badDctCoef
  emitSymbol .dc t (cat d)
  if 0 < cat d then emitBits (bitsOf d) (cat d)

/-- `while r > 15: emit_symbol(AC, 0xF0); r <- r - 16` (R508, R517). Answers the rest of `r`. -/
def emitZrls (t : Nat) : Nat → Nat → Proc Nat
  | 0, r => pure r
  | fuel + 1, r =>
    if 15 < r then do
      emitSymbol .ac t 0xF0
      emitZrls t fuel (r - 16)
    else pure r

/-- A nonzero AC value after a run of `r`: ZRLs, range check, symbol and extra bits (R508, R517). -/
def hufEncodeAcValue (t r : Nat) (v : Int) : Proc Unit := do
  let r ← emitZrls t r r
  demand (decide (cat v ≤ maxCoefBits)) .badDctCoef
  emitSymbol .ac t (r * 16 + cat v)
  emitBits (bitsOf v) (cat v)

/-- The AC positions of one block (R508). Answers the run of zeros at the end. -/
def hufSeqEncodeAc (b : McuBlock) (t : Nat) : List Nat → Nat → Proc Nat
  | [], r => pure r
  | k :: ks, r => do
    let v ← getCoef b.ref (naturalOrder k)
    if v = 0 then hufSeqEncodeAc b t ks (r + 1)
    else do
      hufEncodeAcValue t r v
      hufSeqEncodeAc b t ks 0

/-- `a..b`, ascending and inclusive (`00_scope.md` R19). -/
def fromTo (a b : Nat) : List Nat := (List.range (b + 1 - a)).map (a + ·)

/-- Sequential encode of one block (R508). -/
def hufSeqEncodeBlock (b : McuBlock) : Proc Unit := do
  let x ← getCoef b.ref 0
  let s ← get
  let d := x - s.ent.dc b.ci
  modEnt fun e => e.withDc b.ci x
  hufEncodeDcDiff (s.dct b) d
  let r ← hufSeqEncodeAc b (s.actOf b) (fromTo 1 63) 0
  if 0 < r then emitSymbol .ac (s.actOf b) 0x00

/-! ## DC-first (R510, R511) -/

def hufDcFirstDecodeBlock (b : McuBlock) : Proc Unit := do
  let dc ← hufDecodeDc b
  let s ← get
  setCoef b.ref 0 (dc * 2 ^ s.scan.al)

def hufDcFirstEncodeBlock (b : McuBlock) : Proc Unit := do
  let x ← getCoef b.ref 0
  let s ← get
  let t := dcPt s.scan.al x
  let d := t - s.ent.dc b.ci
  modEnt fun e => e.withDc b.ci t
  hufEncodeDcDiff (s.dct b) d

/-! ## AC-first (R515 to R517) -/

/-- The length of an end-of-band run: `2^r + (r extra bits)` (`30_encoding.md` R253). -/
def eobLength (r : Nat) : Proc Nat :=
  if 0 < r then do
    let x ← getBits r
    pure (2 ^ r + x)
  else pure (2 ^ r)

/-- The loop of R515 over the band up to `se`. -/
def hufAcFirstLoop (b : McuBlock) (t se al : Nat) : Nat → Nat → Proc Unit
  | 0, _ => pure ()
  | fuel + 1, k =>
    if k ≤ se then do
      let rs ← huffDecode .ac t
      let r := rs / 16
      let n := rs % 16
      if n ≠ 0 then do
        let v ← receiveExtend n
        setCoef b.ref (naturalOrder (k + r)) (v * 2 ^ al)
        hufAcFirstLoop b t se al fuel (k + r + 1)
      else if r = 15 then hufAcFirstLoop b t se al fuel (k + 15 + 1)
      else do
        let run ← eobLength r
        modEnt fun e => { e with eobrun := run - 1 }
    else pure ()

/-- AC-first decode (R515). -/
def hufAcFirstDecode (b : McuBlock) : Proc Unit := do
  let s ← get
  if 0 < s.ent.eobrun then modEnt fun e => { e with eobrun := e.eobrun - 1 }
  else hufAcFirstLoop b s.act s.scan.se s.scan.al 64 s.scan.ss

/-- Bits one at a time: `emit_bits(bit, 1)` for each. -/
def emitBitList (bs : List Bool) : Proc Unit := bs.forM fun x => emitBits (if x then 1 else 0) 1

/-- `emit_eobrun()` (R516). -/
def emitEobrun : Proc Unit := do
  let s ← get
  if 0 < s.ent.eobrun then do
    let n := floorLog2 s.ent.eobrun
    demand (decide (n ≤ 14)) .huffMissingCode
    emitSymbol .ac s.act (n * 16)
    if 0 < n then emitBits s.ent.eobrun n
    modEnt fun e => { e with eobrun := 0 }
    emitBitList s.ent.bitBuffer
    modEnt fun e => { e with bitBuffer := [] }

/-- The band of R517. Answers the run of zeros at the end. -/
def hufAcFirstEncodeBand (b : McuBlock) (t al : Nat) : List Nat → Nat → Proc Nat
  | [], r => pure r
  | k :: ks, r => do
    let x ← getCoef b.ref (naturalOrder k)
    let v := acPt al x
    if v = 0 then hufAcFirstEncodeBand b t al ks (r + 1)
    else do
      emitEobrun
      hufEncodeAcValue t r v
      hufAcFirstEncodeBand b t al ks 0

/-- AC-first encode (R517). -/
def hufAcFirstEncode (b : McuBlock) : Proc Unit := do
  let s ← get
  let r ← hufAcFirstEncodeBand b s.act s.scan.al (fromTo s.scan.ss s.scan.se) 0
  if 0 < r then do
    modEnt fun e => { e with eobrun := e.eobrun + 1 }
    let s ← get
    if s.ent.eobrun = 0x7FFF then emitEobrun

/-! ## DC-refine (R520) -/

def hufDcRefineDecodeBlock (b : McuBlock) : Proc Unit := do
  let x ← getBits 1
  if x = 1 then
    modify fun s => s.withCoef b.ref 0 (s.coefAt b.ref 0 ||| BitVec.ofNat 16 (2 ^ s.scan.al))

/-- The `Al`-th bit of the two's complement value (R520, `43_arith_entropy.md` R624). -/
def dcBit (al : Nat) (x : Int) : Bool := x / 2 ^ al % 2 == 1

def hufDcRefineEncodeBlock (b : McuBlock) : Proc Unit := do
  let x ← getCoef b.ref 0
  let s ← get
  emitBits (if dcBit s.scan.al x then 1 else 0) 1

/-! ## AC-refine (R522, R523) -/

/-- A correction bit for the nonzero coefficient at `p` (R522): read always, applied where bit `Al` is still 0. -/
def correctCoef (b : McuBlock) (al p : Nat) : Proc Unit := do
  let x ← getBits 1
  let s ← get
  let v := (s.coefAt b.ref p).toInt
  if x = 1 ∧ (s.coefAt b.ref p).getLsbD al = false then
    setCoef b.ref p (if 0 ≤ v then v + 2 ^ al else v - 2 ^ al)

/-- The inner loop of R522: pass `r` zero coefficients, correcting nonzero ones. Answers the `k` it ends at. -/
def refineSkip (b : McuBlock) (se al : Nat) : Nat → Nat → Nat → Proc Nat
  | 0, _, k => pure k
  | fuel + 1, r, k => do
    let x ← getCoef b.ref (naturalOrder k)
    if x ≠ 0 then do
      correctCoef b al (naturalOrder k)
      if se < k + 1 then pure (k + 1) else refineSkip b se al fuel r (k + 1)
    else if r = 0 then pure k
    else if se < k + 1 then pure (k + 1)
    else refineSkip b se al fuel (r - 1) (k + 1)

/-- The value a newly nonzero coefficient takes (R522): `p1` or `m1`. -/
def newCoef (al size : Nat) : Proc Int := do
  if size ≠ 1 then warn .huffBadCode
  let x ← getBits 1
  pure (if x = 1 then 2 ^ al else -(2 ^ al))

/-- The outer loop of R522 while `EOBRUN` = 0. Answers the `k` it ends at. -/
def hufAcRefineLoop (b : McuBlock) (t se al : Nat) : Nat → Nat → Proc Nat
  | 0, k => pure k
  | fuel + 1, k =>
    if k ≤ se then do
      let rs ← huffDecode .ac t
      let r := rs / 16
      let n := rs % 16
      if n ≠ 0 then do
        let v ← newCoef al n
        let k ← refineSkip b se al 64 r k
        setCoef b.ref (naturalOrder k) v
        hufAcRefineLoop b t se al fuel (k + 1)
      else if r ≠ 15 then do
        let run ← eobLength r
        modEnt fun e => { e with eobrun := run }
        pure k
      else do
        let k ← refineSkip b se al 64 r k
        hufAcRefineLoop b t se al fuel (k + 1)
    else pure k

/-- The correction bits for the rest of the band (the last loop of R522). -/
def refineRest (b : McuBlock) (al : Nat) : List Nat → Proc Unit
  | [] => pure ()
  | k :: ks => do
    let x ← getCoef b.ref (naturalOrder k)
    if x ≠ 0 then correctCoef b al (naturalOrder k)
    refineRest b al ks

/-- AC-refine decode (R522). -/
def hufAcRefineDecode (b : McuBlock) : Proc Unit := do
  let s ← get
  let k ← if s.ent.eobrun = 0 then hufAcRefineLoop b s.act s.scan.se s.scan.al 64 s.scan.ss else pure s.scan.ss
  let s ← get
  if 0 < s.ent.eobrun then do
    refineRest b s.scan.al (fromTo k s.scan.se)
    modEnt fun e => { e with eobrun := e.eobrun - 1 }

/-- The largest `k` of `ks` with `a[k]` = 1, or 0 (the `EOB` of R523). -/
def lastNew (s : State) (b : McuBlock) (al : Nat) (ks : List Nat) : Nat :=
  ks.foldl (fun m k => if (s.coefAt b.ref (naturalOrder k)).toInt.natAbs / 2 ^ al = 1 then k else m) 0

/-- `while r > 15 and k <= EOB` (R523): ZRLs, each after the pending run and before the buffered bits `br`. -/
def refineZrls (t k eob : Nat) : Nat → Nat → List Bool → Proc (Nat × List Bool)
  | 0, r, br => pure (r, br)
  | fuel + 1, r, br =>
    if 15 < r ∧ k ≤ eob then do
      emitEobrun
      emitSymbol .ac t 0xF0
      emitBitList br
      refineZrls t k eob fuel (r - 16) []
    else pure (r, br)

/-- The band of R523. Answers the run `r` and the bits `br` left at its end. -/
def hufAcRefineBand (b : McuBlock) (t al eob : Nat) : List Nat → Nat → List Bool → Proc (Nat × List Bool)
  | [], r, br => pure (r, br)
  | k :: ks, r, br => do
    let x ← getCoef b.ref (naturalOrder k)
    let a := x.natAbs / 2 ^ al
    if a = 0 then hufAcRefineBand b t al eob ks (r + 1) br
    else do
      let (r, br) ← refineZrls t k eob r r br
      if 1 < a then hufAcRefineBand b t al eob ks r (br ++ [a % 2 == 1])
      else do
        emitEobrun
        emitSymbol .ac t (r * 16 + 1)
        emitBits (if x < 0 then 0 else 1) 1
        emitBitList br
        hufAcRefineBand b t al eob ks 0 []

/-- AC-refine encode (R523). -/
def hufAcRefineEncode (b : McuBlock) : Proc Unit := do
  let s ← get
  let ks := fromTo s.scan.ss s.scan.se
  let (r, br) ← hufAcRefineBand b s.act s.scan.al (lastNew s b s.scan.al ks) ks 0 []
  if 0 < r ∨ br ≠ [] then do
    modEnt fun e => { e with eobrun := e.eobrun + 1, bitBuffer := e.bitBuffer ++ br }
    let s ← get
    if s.ent.eobrun = 0x7FFF ∨ maxCorrBits - 64 + 1 < s.ent.bitBuffer.length then emitEobrun

/-! ## Restart and scan end (R527, R528, R532) -/

/-- `for i in 0..comps_in_scan-1: last_dc_val[i] <- 0`. -/
def zeroPredictors : Proc Unit := do
  let s ← get
  forUpTo s.scan.compsInScan fun i => modEnt fun e => e.withDc i 0

/-- `emit_restart()` (R527). -/
def hufEmitRestart : Proc Unit := do
  let s ← get
  if s.scan.mode ≠ .hufSeq then emitEobrun
  flushBits
  outByte 0xFF
  outByte (0xD0 + s.ent.nextRestart)
  if s.scan.mode = .hufSeq ∨ s.scan.ss = 0 then zeroPredictors
  else modEnt fun e => { e with eobrun := 0, bitBuffer := [] }

/-- `process_restart()` (R528). -/
def hufProcessRestart : Proc Unit := do
  readerReset
  readRestartMarker
  zeroPredictors
  modEnt fun e => { e with eobrun := 0 }
  let s ← get
  modEnt fun e => { e with restartsToGo := s.scan.restartInterval }
  if s.ent.unreadMarker = 0 then modEnt fun e => { e with insufficient := false }

/-- `huf_finish_encode()` (R532). -/
def hufFinishEncode : Proc Unit := do
  let s ← get
  if s.scan.mode ≠ .hufSeq then emitEobrun
  flushBits

/-! ## MCU wrappers (R505, R506) -/

/-- The encode routine of the scan's mode on the MCU's blocks. -/
def hufEncodeRoutine (mode : ScanMode) (blks : List McuBlock) : Proc Unit :=
  match mode with
  | .hufSeq => blks.forM hufSeqEncodeBlock
  | .hufDcFirst => blks.forM hufDcFirstEncodeBlock
  | .hufAcFirst => onFirst blks hufAcFirstEncode
  | .hufDcRefine => blks.forM hufDcRefineEncodeBlock
  | .hufAcRefine => onFirst blks hufAcRefineEncode
  | _ => throw (.stop .scanWithoutMode)

/-- The decode routine of the scan's mode on the MCU's blocks. -/
def hufDecodeRoutine (mode : ScanMode) (blks : List McuBlock) : Proc Unit :=
  match mode with
  | .hufSeq => blks.forM hufSeqDecodeBlock
  | .hufDcFirst => blks.forM hufDcFirstDecodeBlock
  | .hufAcFirst => onFirst blks hufAcFirstDecode
  | .hufDcRefine => blks.forM hufDcRefineDecodeBlock
  | .hufAcRefine => onFirst blks hufAcRefineDecode
  | _ => throw (.stop .scanWithoutMode)

/-- The restart countdown after an encoded MCU (R505, `43_arith_entropy.md` R605). -/
def countRestart : Proc Unit := do
  let s ← get
  if 0 < s.scan.restartInterval then do
    if s.ent.restartsToGo = 0 then
      modEnt fun e =>
        { e with restartsToGo := s.scan.restartInterval, nextRestart := (e.nextRestart + 1) % 8 }
    modEnt fun e => { e with restartsToGo := e.restartsToGo - 1 }

/-- `huf_encode_mcu()` (R505). -/
def hufEncodeMcu (blks : List McuBlock) : Proc Unit := do
  let s ← get
  if 0 < s.scan.restartInterval ∧ s.ent.restartsToGo = 0 then hufEmitRestart
  hufEncodeRoutine s.scan.mode blks
  countRestart

/-- `huf_decode_mcu()` (R506). -/
def hufDecodeMcu (blks : List McuBlock) : Proc Unit := do
  let s ← get
  if 0 < s.scan.restartInterval ∧ s.ent.restartsToGo = 0 then hufProcessRestart
  let s ← get
  if s.scan.mode = .hufDcRefine ∨ s.ent.insufficient = false then hufDecodeRoutine s.scan.mode blks
  if 0 < s.scan.restartInterval then modEnt fun e => { e with restartsToGo := e.restartsToGo - 1 }

end Sys2Proof.Machine
end

