-- ==== Sys2Proof/Machine/ArithCoder.lean ====
section
/-! DEFINITION. The arithmetic entropy encoder and decoder, sequential and progressive (spec/43_arith_entropy.md): the
`ARI_*` modes of `ENCODE_MCU`, `DECODE_MCU` and `FINISH_SCAN`. -/

namespace Sys2Proof.Machine

/-! ## Conventions (`43_arith_entropy.md` R600, R601) -/

/-- `sign_bin` (R601) of AC slot `t`. -/
def signBin (cfg : Config) (t : Nat) : Bin :=
  match cfg.acSignCtx with
  | .bin245 => acBin t 245
  | .fixed => .fixed

/-- What precedes each use of `sign_bin`: with `BIN245`, `acs[245] <- 0` (R601, R617, R618). -/
def freshenSign (t : Nat) : Proc Unit := do
  let s ← get
  match s.cfg.acSignCtx with
  | .bin245 => setBin (acBin t 245) 0
  | .fixed => pure ()

/-- `x & m` for a power of two `m`, as a decision. -/
def bitOf (x m : Nat) : Bool := x / m % 2 == 1

/-- `st` of index `k`: `3*(k-1)`. -/
def acBase (k : Nat) : Nat := 3 * (k - 1)

/-- The largest index in `1..n` that satisfies `p`, or 0: the searches for `ke` and `kex` (R617, R625, R626). -/
def lastIndex (p : Nat → Bool) : Nat → Nat
  | 0 => 0
  | n + 1 => if p (n + 1) then n + 1 else lastIndex p n

/-! ## Magnitudes (the loops R611, R612, R615 and R616 share) -/

/-- `while (v2 <- v2 >> 1) != 0: enc(st, 1); m <- 2*m; st <- st + 1`, then `enc(st, 0)`. Answers `m` and `st`. -/
def encChain (bin : Nat → Bin) : Nat → Nat → Nat → Nat → Proc (Nat × Nat)
  | 0, _, m, st => do
    arithEncode (bin st) false
    pure (m, st)
  | fuel + 1, v2, m, st =>
    if v2 / 2 ≠ 0 then do
      arithEncode (bin st) true
      encChain bin fuel (v2 / 2) (2 * m) (st + 1)
    else do
      arithEncode (bin st) false
      pure (m, st)

/-- `while (m <- m >> 1) != 0: enc(st, (v & m) != 0)`. -/
def encMagBits (b : Bin) (v : Nat) : Nat → Nat → Proc Unit
  | 0, _ => pure ()
  | fuel + 1, m =>
    if m / 2 ≠ 0 then do
      arithEncode b (bitOf v (m / 2))
      encMagBits b v fuel (m / 2)
    else pure ()

/-- Overflow (R630): the warning, and the mark `ct <- -1` until the next restart. -/
def arithOverflow : Proc Unit := do
  warn .arithBadCode
  modEnt fun e => { e with ct := -1 }

/-- `while dec(st) = 1: m <- 2*m; if m = 0x8000: overflow; st <- st + 1`. Answers `m` and `st`, or nothing after an
overflow. `m` reaches 0x8000 within 15 turns. -/
def decChain (bin : Nat → Bin) : Nat → Nat → Nat → Proc (Option (Nat × Nat))
  | 0, _, _ => pure none
  | fuel + 1, m, st => do
    let x ← arithDecode (bin st)
    if x then
      if 2 * m = 0x8000 then do
        arithOverflow
        pure none
      else decChain bin fuel (2 * m) (st + 1)
    else pure (some (m, st))

/-- `while (m <- m >> 1) != 0: if dec(st) = 1: v <- v | m`. Answers `v`. -/
def decMagBits (b : Bin) : Nat → Nat → Nat → Proc Nat
  | 0, _, v => pure v
  | fuel + 1, m, v =>
    if m / 2 ≠ 0 then do
      let x ← arithDecode b
      decMagBits b fuel (m / 2) (if x then v ||| m / 2 else v)
    else pure v

/-! ## DC coding (R610 to R612) -/

/-- `dc_context[ci]` after a nonzero difference of category `m` and sign `neg` (R610). -/
def dcContextOf (l u m : Nat) (neg : Bool) : Nat :=
  let s := if neg then 1 else 0
  if m < 2 ^ l / 2 then 0
  else if 2 ^ u / 2 < m then 12 + 4 * s
  else 4 + 4 * s

/-- The update of R610, with `L` and `U` read live (R600; `70_reset_and_hazards.md` R962). -/
def setDcContext (b : McuBlock) (m : Nat) (neg : Bool) : Proc Unit := do
  let s ← get
  let t := s.dct b
  modEnt fun e => e.withContext b.ci (dcContextOf (s.regs.condL t) (s.regs.condU t) m neg)

/-- `dc_encode(b, x)` (R611). -/
def dcEncode (b : McuBlock) (x : Int) : Proc Unit := do
  let s ← get
  let t := s.dct b
  let s0 := s.ent.context b.ci
  let d := x - s.ent.dc b.ci
  if d = 0 then do
    arithEncode (dcBin t s0) false
    modEnt fun e => e.withContext b.ci 0
  else do
    modEnt fun e => e.withDc b.ci x
    arithEncode (dcBin t s0) true
    let neg := decide (d < 0)
    arithEncode (dcBin t (s0 + 1)) neg
    let st := if neg then s0 + 3 else s0 + 2
    let v := d.natAbs - 1
    if v ≠ 0 then do
      arithEncode (dcBin t st) true
      let (m, st) ← encChain (dcBin t) v v 1 20
      setDcContext b m neg
      encMagBits (dcBin t (st + 14)) v m m
    else do
      arithEncode (dcBin t st) false
      setDcContext b 0 neg

/-- The magnitude part of R612: `m` and the chain. Answers `m` and `st`, or nothing after an overflow. -/
def dcDecodeCategory (t st : Nat) : Proc (Option (Nat × Nat)) := do
  let x ← arithDecode (dcBin t st)
  if x then decChain (dcBin t) 16 1 20 else pure (some (0, st))

/-- `dc_decode(b)` (R612); nothing is `ABANDON`. -/
def dcDecode (b : McuBlock) : Proc (Option Int) := do
  let s ← get
  let t := s.dct b
  let s0 := s.ent.context b.ci
  let nonzero ← arithDecode (dcBin t s0)
  if nonzero then do
    let neg ← arithDecode (dcBin t (s0 + 1))
    let r ← dcDecodeCategory t (s0 + 2 + if neg then 1 else 0)
    match r with
    | none => pure none
    | some (m, st) => do
      setDcContext b m neg
      let v ← decMagBits (dcBin t (st + 14)) m m m
      modEnt fun e => e.withDc b.ci (e.dc b.ci + if neg then -((v : Int) + 1) else (v : Int) + 1)
      let s ← get
      pure (some (s.ent.dc b.ci))
  else do
    modEnt fun e => e.withContext b.ci 0
    let s ← get
    pure (some (s.ent.dc b.ci))

/-! ## AC coding (R615 to R618) -/

/-- Where the magnitude chain of index `k` starts: `k <= K ? 189 : 217`, with `K` read live (R600). -/
def acChainBase (s : State) (t k : Nat) : Nat := if k ≤ s.regs.condK t then 189 else 217

/-- `ac_mag_encode(k, v)` (R615) in AC slot `t`. -/
def acMagEncode (t k v : Nat) : Proc Unit := do
  let s ← get
  let st := acBase k + 2
  let v := v - 1
  if v = 0 then arithEncode (acBin t st) false
  else do
    arithEncode (acBin t st) true
    if v / 2 = 0 then arithEncode (acBin t st) false
    else do
      arithEncode (acBin t st) true
      let (m, st) ← encChain (acBin t) v (v / 2) 2 (acChainBase s t k)
      encMagBits (acBin t (st + 14)) v m m

/-- The category part of R616. Answers `m` and `st`, or nothing after an overflow. -/
def acDecodeCategory (t k : Nat) : Proc (Option (Nat × Nat)) := do
  let s ← get
  let st := acBase k + 2
  let x ← arithDecode (acBin t st)
  if x then do
    let y ← arithDecode (acBin t st)
    if y then decChain (acBin t) 16 2 (acChainBase s t k) else pure (some (1, st))
  else pure (some (0, st))

/-- `ac_mag_decode(k)` (R616); nothing is `ABANDON`. -/
def acMagDecode (t k : Nat) : Proc (Option Nat) := do
  let r ← acDecodeCategory t k
  match r with
  | none => pure none
  | some (m, st) => do
    let v ← decMagBits (acBin t (st + 14)) m m m
    pure (some (v + 1))

/-- `while val(k) = 0: enc(acs[st+1], 0); k <- k + 1` (R617). Answers `k`. -/
def acSkipZeros (t : Nat) (val : Nat → Int) : Nat → Nat → Proc Nat
  | 0, k => pure k
  | fuel + 1, k =>
    if val k = 0 then do
      arithEncode (acBin t (acBase k + 1)) false
      acSkipZeros t val fuel (k + 1)
    else pure k

/-- The loop of R617 up to `ke`. Answers the `k` it ends at. -/
def acEncodeLoop (t : Nat) (val : Nat → Int) (ke : Nat) : Nat → Nat → Proc Nat
  | 0, k => pure k
  | fuel + 1, k =>
    if k ≤ ke then do
      arithEncode (acBin t (acBase k)) false
      let k ← acSkipZeros t val 64 k
      arithEncode (acBin t (acBase k + 1)) true
      freshenSign t
      let s ← get
      arithEncode (signBin s.cfg t) (decide (val k < 0))
      acMagEncode t k (val k).natAbs
      acEncodeLoop t val ke fuel (k + 1)
    else pure k

/-- `ac_encode_band(b, Ss', Se', val)` (R617) in AC slot `t`. -/
def acEncodeBand (t ss se : Nat) (val : Nat → Int) : Proc Unit := do
  let k ← acEncodeLoop t val (lastIndex (fun k => val k ≠ 0) se) 64 ss
  if k ≤ se then arithEncode (acBin t (acBase k)) true

/-- `while dec(acs[st+1]) = 0: k <- k + 1` (R618). Answers `k`, or nothing after a spectral overflow. -/
def acDecodeRun (t se : Nat) : Nat → Nat → Proc (Option Nat)
  | 0, _ => pure none
  | fuel + 1, k => do
    let x ← arithDecode (acBin t (acBase k + 1))
    if x then pure (some k)
    else if se < k + 1 then do
      arithOverflow
      pure none
    else acDecodeRun t se fuel (k + 1)

/-- The loop of `ac_decode_band` (R618). Answers whether it ended without an overflow. -/
def acDecodeLoop (b : McuBlock) (t se shift : Nat) : Nat → Nat → Proc Bool
  | 0, _ => pure true
  | fuel + 1, k =>
    if k ≤ se then do
      let eob ← arithDecode (acBin t (acBase k))
      if eob then pure true
      else do
        let r ← acDecodeRun t se 64 k
        match r with
        | none => pure false
        | some k => do
          freshenSign t
          let s ← get
          let neg ← arithDecode (signBin s.cfg t)
          let v ← acMagDecode t k
          match v with
          | none => pure false
          | some v => do
            setCoef b.ref (naturalOrder k) ((if neg then -(v : Int) else (v : Int)) * 2 ^ shift)
            acDecodeLoop b t se shift fuel (k + 1)
    else pure true

/-- `ac_decode_band(b, Ss', Se', shift)` (R618). -/
def acDecodeBand (b : McuBlock) (t ss se shift : Nat) : Proc Bool := acDecodeLoop b t se shift 64 ss

/-! ## Mode routines (R620 to R626) -/

/-- The value of index `k` of a block, point transformed by `al`. -/
def blockValue (s : State) (b : McuBlock) (al k : Nat) : Int := acPt al (s.coefAt b.ref (naturalOrder k)).toInt

/-- `ARI_SEQ` encode of one block (R620). -/
def ariSeqEncodeBlock (b : McuBlock) : Proc Unit := do
  let x ← getCoef b.ref 0
  dcEncode b x
  let s ← get
  acEncodeBand (s.actOf b) 1 63 fun k => (s.coefAt b.ref (naturalOrder k)).toInt

/-- `ARI_SEQ` decode (R621): an overflow ends the MCU (R628). -/
def ariSeqDecode : List McuBlock → Proc Unit
  | [] => pure ()
  | b :: bs => do
    let x ← dcDecode b
    match x with
    | none => pure ()
    | some x => do
      setCoef b.ref 0 x
      let s ← get
      let ok ← acDecodeBand b (s.actOf b) 1 63 0
      if ok then ariSeqDecode bs

/-- `ARI_DC_FIRST` encode of one block (R622). -/
def ariDcFirstEncodeBlock (b : McuBlock) : Proc Unit := do
  let x ← getCoef b.ref 0
  let s ← get
  dcEncode b (dcPt s.scan.al x)

/-- `ARI_DC_FIRST` decode (R622). -/
def ariDcFirstDecode : List McuBlock → Proc Unit
  | [] => pure ()
  | b :: bs => do
    let x ← dcDecode b
    match x with
    | none => pure ()
    | some x => do
      let s ← get
      setCoef b.ref 0 (x * 2 ^ s.scan.al)
      ariDcFirstDecode bs

/-- `ARI_AC_FIRST` encode (R623). -/
def ariAcFirstEncode (b : McuBlock) : Proc Unit := do
  let s ← get
  acEncodeBand s.act s.scan.ss s.scan.se (blockValue s b s.scan.al)

/-- `ARI_AC_FIRST` decode (R623). -/
def ariAcFirstDecode (b : McuBlock) : Proc Unit := do
  let s ← get
  let _ ← acDecodeBand b s.act s.scan.ss s.scan.se s.scan.al

/-- `ARI_DC_REFINE` encode of one block (R624). -/
def ariDcRefineEncodeBlock (b : McuBlock) : Proc Unit := do
  let x ← getCoef b.ref 0
  let s ← get
  arithEncode .fixed (dcBit s.scan.al x)

/-- `ARI_DC_REFINE` decode of one block (R624). -/
def ariDcRefineDecodeBlock (b : McuBlock) : Proc Unit := do
  let x ← arithDecode .fixed
  if x then modify fun s => s.withCoef b.ref 0 (s.coefAt b.ref 0 ||| BitVec.ofNat 16 (2 ^ s.scan.al))

/-- The inner loop of R625. Answers the `k` it breaks at. -/
def ariRefineEncodeStep (s : State) (b : McuBlock) (t : Nat) : Nat → Nat → Proc Nat
  | 0, k => pure k
  | fuel + 1, k =>
    let m := (blockValue s b s.scan.al k).natAbs
    if m / 2 ≠ 0 then do
      arithEncode (acBin t (acBase k + 2)) (m % 2 == 1)
      pure k
    else if m ≠ 0 then do
      arithEncode (acBin t (acBase k + 1)) true
      arithEncode .fixed (decide ((s.coefAt b.ref (naturalOrder k)).toInt < 0))
      pure k
    else do
      arithEncode (acBin t (acBase k + 1)) false
      ariRefineEncodeStep s b t fuel (k + 1)

/-- The outer loop of R625. -/
def ariRefineEncodeLoop (s : State) (b : McuBlock) (t ke kex : Nat) : Nat → Nat → Proc Nat
  | 0, k => pure k
  | fuel + 1, k =>
    if k ≤ ke then do
      if kex < k then arithEncode (acBin t (acBase k)) false
      let k ← ariRefineEncodeStep s b t 64 k
      ariRefineEncodeLoop s b t ke kex fuel (k + 1)
    else pure k

/-- `ARI_AC_REFINE` encode (R625). -/
def ariAcRefineEncode (b : McuBlock) : Proc Unit := do
  let s ← get
  let ke := lastIndex (fun k => blockValue s b s.scan.al k ≠ 0) s.scan.se
  let kex := lastIndex (fun k => blockValue s b s.scan.ah k ≠ 0) ke
  let k ← ariRefineEncodeLoop s b s.act ke kex 64 s.scan.ss
  if k ≤ s.scan.se then arithEncode (acBin s.act (acBase k)) true

/-- The inner loop of R626. Answers the `k` it breaks at, or nothing after a spectral overflow. -/
def ariRefineDecodeStep (b : McuBlock) (t se al : Nat) : Nat → Nat → Proc (Option Nat)
  | 0, _ => pure none
  | fuel + 1, k => do
    let c ← getCoef b.ref (naturalOrder k)
    if c ≠ 0 then do
      let x ← arithDecode (acBin t (acBase k + 2))
      if x then setCoef b.ref (naturalOrder k) (if c < 0 then c - 2 ^ al else c + 2 ^ al)
      pure (some k)
    else do
      let new ← arithDecode (acBin t (acBase k + 1))
      if new then do
        let neg ← arithDecode .fixed
        setCoef b.ref (naturalOrder k) (if neg then -(2 ^ al) else 2 ^ al)
        pure (some k)
      else if se < k + 1 then do
        arithOverflow
        pure none
      else ariRefineDecodeStep b t se al fuel (k + 1)

/-- The outer loop of R626. -/
def ariRefineDecodeLoop (b : McuBlock) (t se al kex : Nat) : Nat → Nat → Proc Unit
  | 0, _ => pure ()
  | fuel + 1, k =>
    if k ≤ se then do
      let eob ← if kex < k then arithDecode (acBin t (acBase k)) else pure false
      if eob then pure ()
      else do
        let r ← ariRefineDecodeStep b t se al 64 k
        match r with
        | none => pure ()
        | some k => ariRefineDecodeLoop b t se al kex fuel (k + 1)
    else pure ()

/-- `ARI_AC_REFINE` decode (R626). -/
def ariAcRefineDecode (b : McuBlock) : Proc Unit := do
  let s ← get
  let kex := lastIndex (fun k => s.coefAt b.ref (naturalOrder k) ≠ 0) s.scan.se
  ariRefineDecodeLoop b s.act s.scan.se s.scan.al kex 64 s.scan.ss

/-! ## Scan start, restart and finish (R635 to R642) -/

/-- DC bins are used (R635). -/
def State.usesDcBins (s : State) : Bool := !s.image.prog || (s.scan.ss == 0 && s.scan.ah == 0)

/-- AC bins are used (R635). -/
def State.usesAcBins (s : State) : Bool := !s.image.prog || decide (0 < s.scan.ss)

/-- The bins of scan component `i` (R636). -/
def resetComponentBins (i : Nat) : Proc Unit := do
  let s ← get
  if s.usesDcBins then modify fun s => { s with stats := Cells.clear s.stats ((s.scan.comp i).dcTbl * 64) 64 }
  if s.usesAcBins then
    modify fun s => { s with stats := Cells.clear s.stats (0x400 + (s.scan.comp i).acTbl * 256) 256 }

/-- `ari_reset_contexts()` (R636). Where DC is coded, all four predictors and contexts are zeroed (`10_state.md` R74,
R75); where it is not, the predictors stay (log 25). -/
def ariResetContexts : Proc Unit := do
  let s ← get
  forUpTo s.scan.compsInScan resetComponentBins
  if s.usesDcBins then
    modEnt fun e => { e with lastDc := Vector.replicate 4 0, dcContext := Vector.replicate 4 0 }
  initFixedBin

/-- `ari_emit_restart()` (R640). -/
def ariEmitRestart : Proc Unit := do
  arithEncFinish
  let s ← get
  outByte 0xFF
  outByte (0xD0 + s.ent.nextRestart)
  ariResetContexts
  arithEncInit

/-- `ari_process_restart()` (R641). -/
def ariProcessRestart : Proc Unit := do
  readRestartMarker
  ariResetContexts
  arithDecInit
  let s ← get
  modEnt fun e => { e with restartsToGo := s.scan.restartInterval }

/-- `ari_finish_encode()` (R642). -/
def ariFinishEncode : Proc Unit := arithEncFinish

/-! ## MCU wrappers (R605, R606) -/

/-- The encode routine of the scan's mode on the MCU's blocks. -/
def ariEncodeRoutine (mode : ScanMode) (blks : List McuBlock) : Proc Unit :=
  match mode with
  | .ariSeq => blks.forM ariSeqEncodeBlock
  | .ariDcFirst => blks.forM ariDcFirstEncodeBlock
  | .ariAcFirst => onFirst blks ariAcFirstEncode
  | .ariDcRefine => blks.forM ariDcRefineEncodeBlock
  | .ariAcRefine => onFirst blks ariAcRefineEncode
  | _ => throw (.stop .scanWithoutMode)

/-- The decode routine of the scan's mode on the MCU's blocks. -/
def ariDecodeRoutine (mode : ScanMode) (blks : List McuBlock) : Proc Unit :=
  match mode with
  | .ariSeq => ariSeqDecode blks
  | .ariDcFirst => ariDcFirstDecode blks
  | .ariAcFirst => onFirst blks ariAcFirstDecode
  | .ariDcRefine => blks.forM ariDcRefineDecodeBlock
  | .ariAcRefine => onFirst blks ariAcRefineDecode
  | _ => throw (.stop .scanWithoutMode)

/-- `ari_encode_mcu()` (R605). -/
def ariEncodeMcu (blks : List McuBlock) : Proc Unit := do
  let s ← get
  if 0 < s.scan.restartInterval ∧ s.ent.restartsToGo = 0 then ariEmitRestart
  ariEncodeRoutine s.scan.mode blks
  countRestart

/-- `ari_decode_mcu()` (R606): the restart is counted before the error mark is looked at. -/
def ariDecodeMcu (blks : List McuBlock) : Proc Unit := do
  let s ← get
  if 0 < s.scan.restartInterval then do
    if s.ent.restartsToGo = 0 then ariProcessRestart
    modEnt fun e => { e with restartsToGo := e.restartsToGo - 1 }
  let s ← get
  if s.ent.ct = -1 then pure () else ariDecodeRoutine s.scan.mode blks

end Sys2Proof.Machine
end

