-- ==== Sys2Proof/Machine/Geometry.lean ====
section
/-! DEFINITION. The geometry of images, scans and MCUs (`44_coef_controller.md` §2, `20_memory.md` R159, R160), and the
MCU of either entropy codec. -/

namespace Sys2Proof.Machine

/-- `a mod b`, or `b` if that is 0 (`44_coef_controller.md` R702). -/
def modOrAll (a b : Nat) : Nat := if a % b = 0 then b else a % b

/-! ## Image geometry (R701) -/

/-- The image state of component `c` after the latch of its sampling factors, with its size in blocks. -/
def latchedComp (dim cc : Word) (maxH maxV : Nat) (c : ImageComp) : ImageComp :=
  { c with
    hSamp := compH cc
    vSamp := compV cc
    widthInBlocks := ceilDiv (imgWidth dim * compH cc) (8 * maxH)
    heightInBlocks := ceilDiv (imgHeight dim * compV cc) (8 * maxV) }

/-- `max over c in 0..n-1`. -/
def maxOver (n : Nat) (f : Nat → Nat) : Nat := (List.range n).foldl (fun m c => max m (f c)) 0

/-- The image after the latch of R801 with the geometry of R701. Sampling factors of components that the image does
not have are copied too (`10_state.md` R70); their sizes stay 0. -/
def Image.latched (m : Image) (r : Regs) (n : Nat) : Image :=
  let maxH := maxOver n fun c => compH (r.comp c)
  let maxV := maxOver n fun c => compV (r.comp c)
  { m with
    dim := r.imgDim
    cfg := if cfgProg r.imgCfg then r.imgCfg ||| 0x80 else r.imgCfg
    maxH := maxH
    maxV := maxV
    comps := Vector.ofFn fun c : Fin 10 =>
      if c.val < n then latchedComp r.imgDim (r.comp c.val) maxH maxV (m.comp c.val)
      else { m.comp c.val with hSamp := compH (r.comp c.val), vSamp := compV (r.comp c.val) }
    totalRows := ceilDiv (imgHeight r.imgDim) (8 * maxV) }

/-! ## The full-image coefficient arrays (`20_memory.md` R160) -/

/-- `rows[c]`. -/
def Image.blockRows (m : Image) (c : Nat) : Nat := roundUp (m.comp c).heightInBlocks (m.comp c).vSamp

/-- `cols[c]`. -/
def Image.blockCols (m : Image) (c : Nat) : Nat := roundUp (m.comp c).widthInBlocks (m.comp c).hSamp

/-- `base[c]`, the blocks of the components before `c`. -/
def Image.blockBase (m : Image) (c : Nat) : Nat :=
  (List.range c).foldl (fun b c' => b + m.blockRows c' * m.blockCols c') 0

/-- The block of `COEF` that holds block (r, x) of component `c`. -/
def Image.coefBlock (m : Image) (c r x : Nat) : Nat := m.blockBase c + r * m.blockCols c + x

/-! ## Scan geometry (R702, R703) -/

/-- The geometry of scan component `i` (R702). -/
def scanCompGeometry (m : Image) (interleaved : Bool) (x : ScanComp) : ScanComp :=
  let c := m.comp x.comp
  if interleaved then
    { x with
      mcuWidth := c.hSamp
      mcuHeight := c.vSamp
      mcuBlocks := c.hSamp * c.vSamp
      lastColWidth := modOrAll c.widthInBlocks c.hSamp
      lastRowHeight := modOrAll c.heightInBlocks c.vSamp }
  else
    { x with
      mcuWidth := 1
      mcuHeight := 1
      mcuBlocks := 1
      lastColWidth := 1
      lastRowHeight := modOrAll c.heightInBlocks c.vSamp }

/-- The scan components of the scan, `0..comps_in_scan-1`. -/
def Scan.scanComps (n : Scan) : List Nat := List.range n.compsInScan

/-- The scan state with the geometry of R702 computed; `MCU_membership` is not part of it (log 15). -/
def Scan.withGeometry (n : Scan) (m : Image) : Scan :=
  let interleaved := decide (2 ≤ n.compsInScan)
  let n := n.scanComps.foldl (fun n i => n.withComp i (scanCompGeometry m interleaved (n.comp i))) n
  let only := m.comp (n.comp 0).comp
  { n with
    mcusPerRow := if interleaved then ceilDiv (imgWidth m.dim) (8 * m.maxH) else only.widthInBlocks
    mcuRowsInScan := if interleaved then m.totalRows else only.heightInBlocks
    blocksInMcu := n.scanComps.foldl (fun b i => b + (n.comp i).mcuBlocks) 0 }

/-- A block's place in its MCU: scan component, `yindex` and `xindex` (R703). -/
structure McuPlace where
  ci : Nat
  y : Nat
  x : Nat
  deriving DecidableEq, Repr

/-- The blocks of an MCU in the order b = 0, 1, ... (R703). -/
def Scan.places (n : Scan) : List McuPlace :=
  n.scanComps.flatMap fun i =>
    (List.range (n.comp i).mcuHeight).flatMap fun y =>
      (List.range (n.comp i).mcuWidth).map fun x => ⟨i, y, x⟩

/-- `MCU_membership[b]` is the scan component of block `b` (R702). DESIGN CHOICE: an entry `b` at or beyond `blocks_in_MCU`,
of which R702 and `10_state.md` R73 say nothing, keeps its value (log 19). -/
def Scan.withMembership (n : Scan) : Scan :=
  { n with membership := Vector.ofFn fun b : Fin 10 =>
      match n.places[b.val]? with
      | some p => p.ci
      | none => n.membership.getD b.val 0 }

/-- The geometry step of `START_SCAN` (R702): more than 10 blocks in an MCU is `BAD_MCU_SIZE`. -/
def computeScanGeometry : Proc Unit := do
  modify fun s => { s with scan := s.scan.withGeometry s.image }
  let s ← get
  demand (decide (s.scan.compsInScan < 2) || decide (s.scan.blocksInMcu ≤ maxBlocksInMcu)) .badMcuSize
  modScan Scan.withMembership

/-! ## The MCU of a command -/

/-- Blocks 0..`blocks_in_MCU`-1 of `MCUBUF` (`45_scan_interface.md` R810, R811). -/
def State.bufferBlocks (s : State) : List McuBlock :=
  (List.range s.scan.blocksInMcu).map fun b => ⟨.mcubuf b, s.scan.membership.getD b 0⟩

/-- Block row and block column of a place of the MCU the input side is at (R705). -/
def State.blockPosition (s : State) (p : McuPlace) : Nat × Nat :=
  let c := s.image.comp (s.scan.comp p.ci).comp
  (s.ctl.inputRow * c.vSamp + s.ctl.mcuVert + p.y, s.ctl.mcuCtr * (s.scan.comp p.ci).mcuWidth + p.x)

/-- The blocks of `COEF` the MCU the input side is at covers (R705, R711). -/
def State.coefBlocks (s : State) : List McuBlock :=
  s.scan.places.map fun p =>
    ⟨.coef (s.image.coefBlock (s.scan.comp p.ci).comp (s.blockPosition p).1 (s.blockPosition p).2), p.ci⟩

/-- A Huffman mode (`00_scope.md` R23). -/
def ScanMode.huffman : ScanMode → Bool
  | .hufSeq | .hufDcFirst | .hufAcFirst | .hufDcRefine | .hufAcRefine => true
  | .none | .ariSeq | .ariDcFirst | .ariAcFirst | .ariDcRefine | .ariAcRefine => false

/-- `huf_encode_mcu()` or `ari_encode_mcu()` (`45_scan_interface.md` R810). -/
def encodeMcu (blks : List McuBlock) : Proc Unit := do
  checkBlocks blks
  let s ← get
  if s.scan.mode.huffman then hufEncodeMcu blks else ariEncodeMcu blks

/-- `huf_decode_mcu()` or `ari_decode_mcu()` (`45_scan_interface.md` R811). -/
def decodeMcu (blks : List McuBlock) : Proc Unit := do
  checkBlocks blks
  let s ← get
  if s.scan.mode.huffman then hufDecodeMcu blks else ariDecodeMcu blks

end Sys2Proof.Machine
end

