-- ==== Sys2Proof/Machine/Controller.lean ====
section
/-! DEFINITION. The coefficient buffer controller (spec/44_coef_controller.md): `CONSUME_INPUT`, `START_OUTPUT_PASS`
and `PRODUCE_OUTPUT`, with block smoothing. -/

namespace Sys2Proof.Machine

/-! ## Input side (R704, R710 to R722) -/

/-- `start_iMCU_row()` (R704). -/
def startImcuRow : Proc Unit :=
  modify fun s =>
    { s with ctl := { s.ctl with
        mcuRowsPerImcu :=
          if 1 < s.scan.compsInScan then 1
          else if s.ctl.inputRow + 1 < s.image.totalRows then (s.image.comp (s.scan.comp 0).comp).vSamp
          else (s.scan.comp 0).lastRowHeight
        mcuCtr := 0
        mcuVert := 0 } }

/-- The block of a place goes to the IDCT port (R710): dummy blocks (R706) do not. -/
def State.placeIsOutput (s : State) (p : McuPlace) : Bool :=
  let x := s.scan.comp p.ci
  decide (p.x < if s.ctl.mcuCtr + 1 < s.scan.mcusPerRow then x.mcuWidth else x.lastColWidth) &&
    (decide (s.ctl.inputRow + 1 < s.image.totalRows) || decide (s.ctl.mcuVert + p.y < x.lastRowHeight))

/-- The IDCT record of block `b` at place `p` (R710). -/
def State.mcuRecord (s : State) (b : Nat) (p : McuPlace) : IdctRecord :=
  { comp := (s.scan.comp p.ci).comp
    row := (s.blockPosition p).1
    col := (s.blockPosition p).2
    coefs := s.blockCoefs (.mcubuf b) }

/-- `onepass_mcu()` (R710). -/
def onepassMcu : Proc Unit := do
  let s ← get
  modify fun s => { s with mcubuf := Cells.clear s.mcubuf 0 (dctSize2 * s.scan.blocksInMcu) }
  decodeMcu s.bufferBlocks
  let s ← get
  ((List.range s.scan.places.length).zip s.scan.places).forM fun bp =>
    if s.placeIsOutput bp.2 then idctOut (s.mcuRecord bp.1 bp.2) else pure ()

/-- `accumulate_mcu()` (R711). -/
def accumulateMcu : Proc Unit := do
  let s ← get
  decodeMcu s.coefBlocks

/-- One MCU of `consume_row()`, an atomic step (R715; `45_scan_interface.md` R812). -/
def consumeMcu : Proc Unit := do
  let s ← get
  atomically (if s.ctl.mode = .singlePass then onepassMcu else accumulateMcu)
  modCtl fun c => { c with mcuCtr := c.mcuCtr + 1 }

/-- `p`, `n` times over. -/
def times : Nat → Proc Unit → Proc Unit
  | 0, _ => pure ()
  | n + 1, p => do
    p
    times n p

/-- The inner loop of R715 and the end of an MCU row. -/
def consumeMcuRow : Proc Unit := do
  let s ← get
  times (s.scan.mcusPerRow - s.ctl.mcuCtr) consumeMcu
  modCtl fun c => { c with mcuCtr := 0, mcuVert := c.mcuVert + 1 }

/-- The decode scan end of the entropy codec (`42_huffman_entropy.md` R534, `43_arith_entropy.md` R643: log 16), then
`end_decode_scan()` (R722). -/
def endDecodeScan : Proc Unit := do
  readerReset
  modScan fun n => { n with active := false, mode := .none }

/-- `consume_row()` (R715); a suspension ends the command. -/
def consumeRow : Proc ResultKind := do
  let s ← get
  times (s.ctl.mcuRowsPerImcu - s.ctl.mcuVert) consumeMcuRow
  modCtl fun c =>
    { c with
      outputRow := if c.mode = .singlePass then c.outputRow + 1 else c.outputRow
      inputRow := c.inputRow + 1 }
  let s ← get
  if s.ctl.inputRow < s.image.totalRows then do
    startImcuRow
    pure .rowCompleted
  else do
    endDecodeScan
    pure .scanCompleted

/-! ## Block smoothing (R730 to R734) -/

/-- Natural position and weight index of the estimates k = 1..5 (R730, R732). -/
def smoothedPosition (k : Nat) : Nat := naturalOrder k

/-- What R730 asks of component `c`. -/
def Image.smoothable (m : Image) (c : Nat) : Bool :=
  let x := m.comp c
  x.qLatched && [0, 1, 8, 16, 9, 2].all (fun p => Cells.read 0 x.qtab p != 0) &&
    decide (0 ≤ Cells.read (-1) x.coefBits 0)

/-- `coef_bits_latch[c][1..5]` taken from `coef_bits[c]` (R730). -/
def latchCoefBits (m : Image) (c : Nat) (l : Cells Int) : Cells Int :=
  Cells.writes 0 l ([1, 2, 3, 4, 5].map fun k => (6 * c + k, Cells.read (-1) (m.comp c).coefBits k))

/-- Some AC coefficient among 1..5 of component `c` is not fully known (R730). -/
def Image.usefulComp (m : Image) (c : Nat) : Bool :=
  [1, 2, 3, 4, 5].any fun k => Cells.read (-1) (m.comp c).coefBits k != 0

/-- The loop of `smoothing_ok()` (R730) over components, with the latch it leaves. -/
def smoothingLoop (m : Image) : List Nat → Bool → Cells Int → Bool × Cells Int
  | [], useful, l => (useful, l)
  | c :: cs, useful, l =>
    if m.smoothable c then smoothingLoop m cs (useful || m.usefulComp c) (latchCoefBits m c l)
    else (false, l)

/-- `smoothing_ok()` (R730). -/
def smoothingOk (m : Image) (l : Cells Int) : Bool × Cells Int :=
  if m.prog then smoothingLoop m (List.range m.components) false l else (false, l)

/-- `estimate(Al, p, Q, num)` (R733) on the workspace. -/
def estimate (al : Int) (p q : Nat) (num : Int) (ws : List Coef) : List Coef :=
  if al ≠ 0 ∧ ws.getD p 0 = 0 then
    let raw := (q * 128 + num.natAbs) / (q * 256)
    let pred := if 0 < al ∧ 2 ^ al.toNat ≤ raw then 2 ^ al.toNat - 1 else raw
    ws.set p (trunc16 (if num < 0 then -(pred : Int) else (pred : Int)))
  else ws

/-- `DC(r, x)` of component `c` (R732). -/
def State.dcOf (s : State) (c r x : Nat) : Int := (s.coefAt (.coef (s.image.coefBlock c r x)) 0).toInt

/-- The smoothed workspace of block (r, x) of component `c` (R732). -/
def State.smoothedCoefs (s : State) (c r x : Nat) : List Coef :=
  let m := s.image.comp c
  let q := fun p => (Cells.read 0 m.qtab p).toNat
  let cb := fun k => Cells.read 0 s.ctl.coefBitsLatch (6 * c + k)
  let up := r - 1
  let down := min (r + 1) (m.heightInBlocks - 1)
  let left := x - 1
  let right := min (x + 1) (m.widthInBlocks - 1)
  let dc1 := s.dcOf c up left
  let dc2 := s.dcOf c up x
  let dc3 := s.dcOf c up right
  let dc4 := s.dcOf c r left
  let dc5 := s.dcOf c r x
  let dc6 := s.dcOf c r right
  let dc7 := s.dcOf c down left
  let dc8 := s.dcOf c down x
  let dc9 := s.dcOf c down right
  let q00 : Int := q 0
  let ws := s.blockCoefs (.coef (s.image.coefBlock c r x))
  let ws := estimate (cb 1) 1 (q 1) (36 * q00 * (dc4 - dc6)) ws
  let ws := estimate (cb 2) 8 (q 8) (36 * q00 * (dc2 - dc8)) ws
  let ws := estimate (cb 3) 16 (q 16) (9 * q00 * (dc2 + dc8 - 2 * dc5)) ws
  let ws := estimate (cb 4) 9 (q 9) (5 * q00 * (dc1 - dc3 - dc7 + dc9)) ws
  estimate (cb 5) 2 (q 2) (9 * q00 * (dc4 + dc6 - 2 * dc5)) ws

/-! ## Output side (R725 to R732) -/

/-- `input_needed()` (R727 without smoothing, R731 with it). DEDUCED: "the current input scan" of R731 is the decode scan
started last; an encode scan is no input scan (log 26). -/
def State.inputNeeded (s : State) : Bool :=
  let input := s.image.inputScanNumber.toNat
  let output := s.ctl.outputScan.toNat
  if s.ctl.smoothing then
    if s.image.eoiReached ∨ output < input then false
    else if input < output then true
    else decide (s.ctl.inputRow ≤ s.ctl.outputRow + if s.ctl.inputSs = 0 then 1 else 0)
  else decide (input < output) || (decide (input = output) && decide (s.ctl.inputRow ≤ s.ctl.outputRow))

/-- The block rows of component `c` in the output row (R728). -/
def State.outputBlockRows (s : State) (c : Nat) : Nat :=
  let m := s.image.comp c
  if s.ctl.outputRow + 1 < s.image.totalRows then m.vSamp else modOrAll m.heightInBlocks m.vSamp

/-- The blocks `(c, r, x)` of the output row in the order of R728. -/
def State.outputPlaces (s : State) : List (Nat × Nat × Nat) :=
  (List.range s.image.components).flatMap fun c =>
    (List.range (s.outputBlockRows c)).flatMap fun j =>
      (List.range (s.image.comp c).widthInBlocks).map fun x =>
        (c, s.ctl.outputRow * (s.image.comp c).vSamp + j, x)

/-- The record of a block of the output row (R728, R732). -/
def State.outputRecord (s : State) (p : Nat × Nat × Nat) : IdctRecord :=
  { comp := p.1
    row := p.2.1
    col := p.2.2
    coefs :=
      if s.ctl.smoothing then s.smoothedCoefs p.1 p.2.1 p.2.2
      else s.blockCoefs (.coef (s.image.coefBlock p.1 p.2.1 p.2.2)) }

/-- `output_row()` (R728, R732). -/
def outputRow : Proc Unit := do
  let s ← get
  checkBlocks (s.outputPlaces.map fun p => ⟨.coef (s.image.coefBlock p.1 p.2.1 p.2.2), 0⟩)
  s.outputPlaces.forM fun p => idctOut (s.outputRecord p)

/-- The loop of `PRODUCE_OUTPUT` (R726). Each turn completes an input row, and a scan has `total_iMCU_rows` of them. -/
def produceInput : Nat → Proc Unit
  | 0 => throw (.stop .loopNeverEnds)
  | fuel + 1 => do
    let s ← get
    if s.inputNeeded then
      if s.scan.active ∧ s.scan.dir = .decode then do
        let _ ← consumeRow
        produceInput fuel
      else if s.scan.active then raise .badState
      else suspend .scanNeeded
    else pure ()

/-! ## Commands -/

/-- The body of `CONSUME_INPUT` (R720). -/
def consumeInputBody : Proc ResultKind := do
  let s ← get
  demand (s.image.active && s.scan.active && decide (s.scan.dir = .decode)) .badState
  consumeRow

/-- `CONSUME_INPUT` (R720). -/
def execConsumeInput (s : State) : Host.Outcome State Fault Refusal := command consumeInputBody s

/-- The effect of `START_OUTPUT_PASS` (R725): the scan number is written back to `OUT_SCAN` and latched (log 12). -/
def State.startPass (s : State) : State :=
  let n := max (bits s.regs.outScan 0 16) 1
  let n := if s.image.eoiReached ∧ s.image.inputScanNumber.toNat < n then s.image.inputScanNumber.toNat else n
  let ok := if cfgSmooth s.regs.imgCfg then smoothingOk s.image s.ctl.coefBitsLatch else (false, s.ctl.coefBitsLatch)
  { s with
    regs := { s.regs with outScan := BitVec.ofNat 32 n }
    ctl := { s.ctl with
      outputScan := BitVec.ofNat 16 n
      smoothing := ok.1
      coefBitsLatch := ok.2
      outputRow := 0
      outputPass := true } }

/-- `START_OUTPUT_PASS` (R725). -/
def execStartOutputPass (s : State) : Host.Outcome State Fault Refusal :=
  singleStep (do
    let s ← get
    demand (s.image.active && decide (s.ctl.mode = .multiScan) && !s.ctl.outputPass &&
      !(s.scan.active && decide (s.scan.dir = .encode))) .badState
    modify State.startPass) s

/-- The body of `PRODUCE_OUTPUT` (R726). -/
def produceOutputBody : Proc ResultKind := do
  let s ← get
  demand (s.image.active && decide (s.ctl.mode = .multiScan) && s.ctl.outputPass) .badState
  produceInput (s.image.totalRows + 2)
  outputRow
  modCtl fun c => { c with outputRow := c.outputRow + 1 }
  let s ← get
  if s.ctl.outputRow < s.image.totalRows then pure .rowCompleted
  else do
    modCtl fun c => { c with outputPass := false, smoothing := false }
    pure .scanCompleted

/-- `PRODUCE_OUTPUT` (R726). -/
def execProduceOutput (s : State) : Host.Outcome State Fault Refusal := command produceOutputBody s

end Sys2Proof.Machine
end

