-- ==== Sys2Proof/Machine/ScanInterface.lean ====
section
/-! DEFINITION. The image and scan commands (spec/45_scan_interface.md): `START_IMAGE`, `EOI`, `START_SCAN`,
`ENCODE_MCU`, `DECODE_MCU` and `FINISH_SCAN`. -/

namespace Sys2Proof.Machine

/-! ## START_IMAGE (R801, R802) -/

/-- The previous image, scan and controller state are discarded (`20_memory.md` R172; log 11). -/
def State.discardImage (s : State) : State :=
  { s with image := Image.reset, scan := Scan.reset, ctl := Ctl.reset }

/-- `1..MAX_SAMP_FACTOR`. -/
def sampOk (f : Nat) : Bool := decide (1 ≤ f) && decide (f ≤ maxSampFactor)

/-- `1..MAX_DIMENSION`. -/
def dimOk (d : Nat) : Bool := decide (1 ≤ d) && decide (d ≤ maxDimension)

/-- The three checks of R801 on the registers, in order. -/
def checkImage (r : Regs) : Proc Unit := do
  let n := cfgComponents r.imgCfg
  demand (dimOk (imgWidth r.imgDim) && dimOk (imgHeight r.imgDim)) .badDimension
  demand (decide (1 ≤ n) && decide (n ≤ maxComponents)) .badComponent
  demand ((List.range n).all fun c => sampOk (compH (r.comp c)) && sampOk (compV (r.comp c))) .badSampling

/-- `COEF` is allocated and zeroed (`20_memory.md` R160; log 22). -/
def allocateCoef : Proc Unit := do
  let s ← get
  let blocks := s.image.blockBase s.image.components
  demand (decide (blocks ≤ s.cfg.coefMemBlocks)) .outOfMemory
  modify fun s => { s with coef := Cells.clear s.coef 0 (dctSize2 * blocks) }

/-- The rest of R801: what SOI resets. -/
def State.soiReset (s : State) : State :=
  { s with
    stats := []
    regs := { s.regs with arithCond := Vector.replicate 16 0x510 }
    ent := Entropy.reset
    status := { s.status with warnCount := 0 }
    image := { s.image with active := true } }

/-- The body of `START_IMAGE` (R801). -/
def startImageBody : Proc Unit := do
  modify State.discardImage
  let s ← get
  checkImage s.regs
  modify fun s =>
    { s with
      image := s.image.latched s.regs (cfgComponents s.regs.imgCfg)
      ctl := { s.ctl with
        mode := if cfgProg s.regs.imgCfg ∨ cfgMulti s.regs.imgCfg then .multiScan else .singlePass } }
  let s ← get
  if s.ctl.mode = .multiScan then allocateCoef
  modify State.soiReset

/-- `START_IMAGE` (R801). -/
def execStartImage (s : State) : Host.Outcome State Fault Refusal := singleStep startImageBody s

/-! ## EOI (R818) -/

/-- `n`, or the input scan number if `n` is beyond it. -/
def clampScan (input n : Nat) : Nat := if input < n then input else n

/-- The effect of `EOI` (R818): it clamps the register and the latched number (log 12). -/
def State.endImage (s : State) : State :=
  { s with
    image := { s.image with eoiReached := true }
    regs := { s.regs with
      outScan := BitVec.ofNat 32 (clampScan s.image.inputScanNumber.toNat (bits s.regs.outScan 0 16)) }
    ctl := { s.ctl with
      outputScan := BitVec.ofNat 16 (clampScan s.image.inputScanNumber.toNat s.ctl.outputScan.toNat) } }

/-- `EOI` (R818). -/
def execEoi (s : State) : Host.Outcome State Fault Refusal :=
  singleStep (do
    let s ← get
    demand (s.image.active && !s.scan.active) .badState
    modify State.endImage) s

/-! ## START_SCAN (R804 to R809) -/

/-- `scomp[i]` from `SCAN_COMPS` (`10_state.md` R58). -/
def Scan.latchComp (comps : Word) (n : Scan) (i : Nat) : Scan :=
  n.withComp i { n.comp i with comp := scanComp comps i }

/-- The scan state with the latched descriptor (R804; `10_state.md` R57, R58): only the first `comps_in_scan` entries
of `SCAN_COMPS` are read (log 19). -/
def Scan.latchDescriptor (n : Scan) (dir : Direction) (r : Regs) : Scan :=
  (List.range (scanCount r.scan)).foldl (Scan.latchComp r.scanComps)
    { n with
      dir := dir
      ss := scanSs r.scan
      se := scanSe r.scan
      ah := scanAh r.scan
      al := scanAl r.scan
      compsInScan := scanCount r.scan
      restartInterval := restartField r.restart }

/-- The image components of the scan, `scomp[0..comps_in_scan-1]`. -/
def Scan.components (n : Scan) : List Nat := n.scanComps.map fun i => (n.comp i).comp

/-- R806 (1). -/
def checkComponents : Proc Unit := do
  let s ← get
  demand (decide (1 ≤ s.scan.compsInScan) && decide (s.scan.compsInScan ≤ maxCompsInScan) &&
    s.scan.components.all (fun c => decide (c < s.image.components)) && decide s.scan.components.Nodup) .badComponent
  if s.scan.dir = .decode ∧ s.ctl.mode = .singlePass then do
    demand (decide (s.image.inputScanNumber = 0)) .badState
    demand (decide (s.scan.compsInScan = s.image.components)) .badComponent

/-- `dc_tbl[i]` and `ac_tbl[i]` from `COMP_CFG` (R804). -/
def Scan.latchSelector (r : Regs) (n : Scan) (i : Nat) : Scan :=
  n.withComp i
    { n.comp i with
      dcTbl := compDc (r.comp (n.comp i).comp)
      acTbl := compAc (r.comp (n.comp i).comp) }

/-- The latch of the table selectors (R804). -/
def Scan.latchSelectors (n : Scan) (r : Regs) : Scan := n.scanComps.foldl (Scan.latchSelector r) n

/-- The mode of R806 (2), from `PROG`, `ARITH`, `Ss` and `Ah` (`00_scope.md` R23). -/
def modeOf (prog arith : Bool) (ss ah : Nat) : ScanMode :=
  match prog, arith, decide (ss = 0), decide (ah = 0) with
  | false, false, _, _ => .hufSeq
  | false, true, _, _ => .ariSeq
  | true, false, true, true => .hufDcFirst
  | true, false, false, true => .hufAcFirst
  | true, false, true, false => .hufDcRefine
  | true, false, false, false => .hufAcRefine
  | true, true, true, true => .ariDcFirst
  | true, true, false, true => .ariAcFirst
  | true, true, true, false => .ariDcRefine
  | true, true, false, false => .ariAcRefine

/-- R806 (2), written before the checks of R806 (3). -/
def chooseMode : Proc Unit := do
  modify fun s =>
    { s with scan := { s.scan with mode := modeOf s.image.prog s.image.arith s.scan.ss s.scan.ah } }
  let s ← get
  if s.image.prog = false ∧ ¬(s.scan.ss = 0 ∧ s.scan.se = 63 ∧ s.scan.ah = 0 ∧ s.scan.al = 0) then
    warn .notSequential

/-- The progressive parameters of R806 (3) are in order. -/
def progressionOk (n : Scan) : Bool :=
  !(decide (n.ss = 0) && decide (n.se ≠ 0)) &&
  !(decide (0 < n.ss) && (decide (n.se < n.ss) || decide (63 < n.se))) &&
  !(decide (0 < n.ss) && decide (n.compsInScan ≠ 1)) &&
  !(decide (n.ah ≠ 0) && decide (n.al + 1 ≠ n.ah)) &&
  !decide (13 < n.al)

/-- R806 (3). -/
def checkProgression : Proc Unit := do
  let s ← get
  if s.image.prog then demand (progressionOk s.scan) .badProgression

/-- `build_dec` for a decode scan, `build_enc` for an encode scan (R809). -/
def buildTable (dir : Direction) (cls : TableClass) (t : Nat) : Proc Unit :=
  match dir with
  | .decode => buildDec cls t
  | .encode => buildEnc cls t

/-- The tables a mode uses (R809): a DC table, an AC table. -/
def usesDcTable : ScanMode → Bool
  | .hufSeq | .hufDcFirst => true
  | .none | .hufAcFirst | .hufDcRefine | .hufAcRefine | .ariSeq | .ariDcFirst | .ariAcFirst | .ariDcRefine
  | .ariAcRefine => false

def usesAcTable : ScanMode → Bool
  | .hufSeq | .hufAcFirst | .hufAcRefine => true
  | .none | .hufDcFirst | .hufDcRefine | .ariSeq | .ariDcFirst | .ariAcFirst | .ariDcRefine | .ariAcRefine => false

/-- The Huffman tables of scan component `i` are checked and built (R809). -/
def buildComponentTables (i : Nat) : Proc Unit := do
  let s ← get
  if usesDcTable s.scan.mode then buildTable s.scan.dir .dc (s.scan.comp i).dcTbl
  if usesAcTable s.scan.mode then buildTable s.scan.dir .ac (s.scan.comp i).acTbl

/-- The Huffman tables of the scan (R809). -/
def buildScanTables : Proc Unit := do
  let s ← get
  forUpTo s.scan.compsInScan buildComponentTables

/-- The progression status of one coefficient (R807). -/
def updateCoefBits (c k : Nat) : Proc Unit := do
  let s ← get
  let x := s.image.comp c
  let old := Cells.read (-1) x.coefBits k
  if (s.scan.ah : Int) ≠ (if old < 0 then 0 else old) then warn .bogusProgression
  modImage fun m => m.withComp c { x with coefBits := Cells.write (-1) x.coefBits k s.scan.al }

/-- The progression status of scan component `i` (R807). -/
def updateProgression (i : Nat) : Proc Unit := do
  let s ← get
  let c := (s.scan.comp i).comp
  if 0 < s.scan.ss ∧ Cells.read (-1) (s.image.comp c).coefBits 0 < 0 then warn .bogusProgression
  (fromTo s.scan.ss s.scan.se).forM (updateCoefBits c)

/-- The quantization latch of scan component `i` (R805). -/
def latchQuant (i : Nat) : Proc Unit := do
  let s ← get
  let c := (s.scan.comp i).comp
  let x := s.image.comp c
  let q := compQuant (s.regs.comp c)
  if x.qLatched = false ∧ bit s.regs.qtblValid q = true then
    modImage fun m => m.withComp c { x with qtab := Cells.slice s.qtbl (q * 64) 64, qLatched := true }

/-- The entropy state at the start of any scan (`10_state.md` R76 to R79, R81; log 14). -/
def Entropy.scanStart (e : Entropy) (interval : Nat) (dir : Direction) : Entropy :=
  { e with
    eobrun := 0
    bitBuffer := []
    putBuffer := 0
    putBits := 0
    getBuffer := 0
    bitsLeft := 0
    insufficient := false
    restartsToGo := interval
    nextRestart := 0
    unreadMarker := if dir = .decode then 0 else e.unreadMarker }

/-- The entropy state of the scan is initialized (`42_huffman_entropy.md` R533, `43_arith_entropy.md` R637), with the
fixed bin (`40_qm_coder.md` R306). -/
def initEntropy : Proc Unit := do
  let s ← get
  modEnt fun e => e.scanStart s.scan.restartInterval s.scan.dir
  if s.scan.mode.huffman then do
    modEnt fun e => { e with lastDc := Vector.replicate 4 0 }
    initFixedBin
  else do
    ariResetContexts
    match s.scan.dir with
    | .encode => arithEncInit
    | .decode => arithDecInit

/-- The steps of R804 that only a decode scan has, before the entropy state. -/
def startDecode : Proc Unit := do
  let s ← get
  if s.scan.dir = .decode then do
    if s.image.prog then forUpTo s.scan.compsInScan updateProgression
    forUpTo s.scan.compsInScan latchQuant

/-- The input side at the scan's first MCU (R804; `44_coef_controller.md` R721); the scan is the input scan of R731
(log 26). -/
def startInput : Proc Unit := do
  let s ← get
  if s.scan.dir = .decode then do
    modImage fun m => { m with inputScanNumber := m.inputScanNumber + 1 }
    modCtl fun c => { c with inputRow := 0, inputSs := s.scan.ss }
    startImcuRow

/-- The body of `START_SCAN` (R804), in its order. -/
def startScanBody (dir : Direction) : Proc Unit := do
  let s ← get
  demand (s.image.active && !s.scan.active && !s.image.eoiReached) .badState
  modScan fun n => n.latchDescriptor dir s.regs
  checkComponents
  modScan fun n => n.latchSelectors s.regs
  chooseMode
  checkProgression
  computeScanGeometry
  buildScanTables
  startDecode
  initEntropy
  startInput
  modScan fun n => { n with active := true }

/-- `START_SCAN` (R804). -/
def execStartScan (dir : Direction) (s : State) : Host.Outcome State Fault Refusal := singleStep (startScanBody dir) s

/-! ## MCU commands and scan end (R810, R811, R814) -/

/-- `ENCODE_MCU` (R810). -/
def execEncodeMcu (s : State) : Host.Outcome State Fault Refusal :=
  singleStep (do
    let s ← get
    demand (s.scan.active && decide (s.scan.dir = .encode)) .badState
    encodeMcu s.bufferBlocks) s

/-- `DECODE_MCU` (R811). -/
def execDecodeMcu (s : State) : Host.Outcome State Fault Refusal :=
  singleStep (do
    let s ← get
    demand (s.scan.active && decide (s.scan.dir = .decode)) .badState
    decodeMcu s.bufferBlocks) s

/-- The end of an encode scan (R814). -/
def finishEncode : Proc Unit := do
  let s ← get
  match s.scan.mode with
  | .none => throw (.stop .scanWithoutMode)
  | mode => if mode.huffman then hufFinishEncode else ariFinishEncode
  modScan fun n => { n with active := false, mode := .none }

/-- The end of a decode scan by the host (R814). -/
def abandonDecode : Proc Unit := do
  modify fun s => { s with ctl := { s.ctl with inputRow := s.image.totalRows } }
  endDecodeScan

/-- `FINISH_SCAN` (R814). -/
def execFinishScan (s : State) : Host.Outcome State Fault Refusal :=
  singleStep (do
    let s ← get
    demand s.scan.active .badState
    match s.scan.dir with
    | .encode => finishEncode
    | .decode => abandonDecode) s

end Sys2Proof.Machine
end

