-- ==== Sys2Proof/Machine/System.lean ====
section
/-! DEFINITION. `NOP` (`45_scan_interface.md` R800) and `RESET` (`70_reset_and_hazards.md` R951). -/

namespace Sys2Proof.Machine

/-- `NOP` (`45_scan_interface.md` R800): `RESULT_KIND` is `DONE` and `SUSPEND_CAUSE` 0, nothing else. -/
def execNop (s : State) : Host.Outcome State Fault Refusal := command (pure .done) s

/-- `RESET` (`70_reset_and_hazards.md` R951): legal in every state, the only command that acts while faulted. -/
def execReset (s : State) : Host.Outcome State Fault Refusal := .next s.resetCore

end Sys2Proof.Machine
end

