-- ==== Sys2Proof/Machine/Dispatch.lean ====
section
/-! DEFINITION. One arm per command: the meaning of every instruction. -/

namespace Sys2Proof.Machine

def exec (i : Instr) (s : State) : Host.Outcome State Fault Refusal :=
  match i with
  -- system and image commands
  | .nop => Sys2Proof.Machine.execNop s
  | .reset => Sys2Proof.Machine.execReset s
  | .startImage => Sys2Proof.Machine.execStartImage s
  | .eoi => Sys2Proof.Machine.execEoi s
  -- Huffman table and bit commands
  | .htBuildDec cls slot => Sys2Proof.Machine.execHtBuildDec cls slot s
  | .htBuildEnc cls slot => Sys2Proof.Machine.execHtBuildEnc cls slot s
  | .htDecode cls slot => Sys2Proof.Machine.execHtDecode cls slot s
  | .htGetbits n => Sys2Proof.Machine.execHtGetbits n s
  | .htEncode cls slot sym => Sys2Proof.Machine.execHtEncode cls slot sym s
  | .htPutbits n value => Sys2Proof.Machine.execHtPutbits n value s
  | .htFlush => Sys2Proof.Machine.execHtFlush s
  | .htResetBits => Sys2Proof.Machine.execHtResetBits s
  -- QM coder commands
  | .arithEncInit => Sys2Proof.Machine.execArithEncInit s
  | .arithEncode bin x => Sys2Proof.Machine.execArithEncode bin x s
  | .arithEncFlush => Sys2Proof.Machine.execArithEncFlush s
  | .arithDecInit => Sys2Proof.Machine.execArithDecInit s
  | .arithDecode bin => Sys2Proof.Machine.execArithDecode bin s
  -- scan commands
  | .startScan dir => Sys2Proof.Machine.execStartScan dir s
  | .encodeMcu => Sys2Proof.Machine.execEncodeMcu s
  | .decodeMcu => Sys2Proof.Machine.execDecodeMcu s
  | .finishScan => Sys2Proof.Machine.execFinishScan s
  -- controller commands
  | .consumeInput => Sys2Proof.Machine.execConsumeInput s
  | .startOutputPass => Sys2Proof.Machine.execStartOutputPass s
  | .produceOutput => Sys2Proof.Machine.execProduceOutput s

end Sys2Proof.Machine
end

