-- ==== Sys2Proof/Machine/HostAccess.lean ====
section
/-! DEFINITION. What each host operation does (`30_encoding.md` R200, R214; `20_memory.md` R150, R151, R162 to R165):
register and memory accesses, the ports, and the issue of a command. -/

namespace Sys2Proof.Machine

/-! ## Issue of a command (`30_encoding.md` R200, `60_exceptions.md` R909) -/

/-- The word is written to `CMD`: the command runs; an illegal word is `Fault(ILLEGAL_COMMAND)` (R201), or has no
effect while `FAULT` != 0 (`60_exceptions.md` R903). -/
def issue (w : Word) (s : State) : Host.Outcome State Fault Refusal :=
  match decode w with
  | .ok i => exec i s
  | .error _ => command (raise .illegalCommand) s

/-! ## Memories (`20_memory.md` R150 to R160) -/

/-- The number of elements of a space (`20_memory.md` R150). -/
def Space.size (cfg : Config) : Space → Nat
  | .hspec => 0x900
  | .dtbl => 0x4000
  | .qtbl => 0x100
  | .stats => 0x1400
  | .mcubuf => 0x280
  | .coef => dctSize2 * cfg.coefMemBlocks

/-- The element width of a space (`20_memory.md` R150). -/
def Space.width : Space → Nat
  | .hspec => 8
  | .dtbl => 32
  | .qtbl => 16
  | .stats => 8
  | .mcubuf => 16
  | .coef => 16

/-- Word `off` of the record of one derived table (`20_memory.md` R154): words not named read 0. -/
def DerivedTable.word (t : DerivedTable) (off : Nat) : Word :=
  if off = 0x000 then if t.dvalid then 1 else 0
  else if off = 0x001 then if t.evalid then 1 else 0
  else if 0x011 ≤ off ∧ off ≤ 0x021 then Cells.read 0 t.maxcode (off - 0x010)
  else if 0x031 ≤ off ∧ off ≤ 0x040 then Cells.read 0 t.valoffset (off - 0x030)
  else if 0x100 ≤ off ∧ off < 0x200 then BitVec.ofNat 32 (Cells.read 0 t.lookNbits (off - 0x100)).toNat
  else if 0x200 ≤ off ∧ off < 0x300 then BitVec.ofNat 32 (Cells.read 0 t.lookSym (off - 0x200)).toNat
  else if 0x300 ≤ off ∧ off < 0x400 then BitVec.ofNat 32 (Cells.read 0 t.ehufco (off - 0x300)).toNat
  else if 0x400 ≤ off ∧ off < 0x500 then BitVec.ofNat 32 (Cells.read 0 t.ehufsi (off - 0x400)).toNat
  else if 0x500 ≤ off ∧ off < 0x600 then BitVec.ofNat 32 (Cells.read 0 t.dval (off - 0x500)).toNat
  else 0

/-- The element at `a` of a space, in the low bits of a word. -/
def State.readElement (s : State) (sp : Space) (a : Nat) : Word :=
  match sp with
  | .hspec => BitVec.ofNat 32 (Cells.read 0 s.hspec a).toNat
  | .dtbl => (s.dtbl.getD (a / 0x800) DerivedTable.reset).word (a % 0x800)
  | .qtbl => BitVec.ofNat 32 (Cells.read 0 s.qtbl a).toNat
  | .stats => BitVec.ofNat 32 (Cells.read 0 s.stats a).toNat
  | .mcubuf => BitVec.ofNat 32 (Cells.read 0 s.mcubuf a).toNat
  | .coef => BitVec.ofNat 32 (Cells.read 0 s.coef a).toNat

/-- The state with the element at `a` of a space at the low bits of `v`. `DTBL` is not written by the host. -/
def State.writeElement (s : State) (sp : Space) (a : Nat) (v : Word) : State :=
  match sp with
  | .hspec => { s with hspec := Cells.write 0 s.hspec a (BitVec.ofNat 8 v.toNat) }
  | .dtbl => s
  | .qtbl => { s with qtbl := Cells.write 0 s.qtbl a (BitVec.ofNat 16 v.toNat) }
  | .stats => { s with stats := Cells.write 0 s.stats a (BitVec.ofNat 8 v.toNat) }
  | .mcubuf => { s with mcubuf := Cells.write 0 s.mcubuf a (BitVec.ofNat 16 v.toNat) }
  | .coef => { s with coef := Cells.write 0 s.coef a (BitVec.ofNat 16 v.toNat) }

/-! ## Host operations (`30_encoding.md` R214) -/

/-- `csr.w`: a write of `CMD` issues a command, a write of a configuration register is held, any other is refused
(`20_memory.md` R151). -/
def hostCsrWrite (a : Nat) (v : Word) (s : State) : Host.Outcome State Fault Refusal :=
  if a = 0x008 then issue v s
  else
    match s.regs.write a v with
    | some r => .next { s with regs := r }
    | none => .refused (if (s.readCsr a).isSome then .readOnlyWrite else .undefinedCsr)

/-- `csr.r`. -/
def hostCsrRead (a : Nat) (s : State) : Host.Outcome State Fault Refusal :=
  match s.readCsr a with
  | some v => .next { s with reply := .word v }
  | none => .refused .undefinedCsr

/-- `mem.w` (`20_memory.md` R151). -/
def hostMemWrite (sp : Space) (a : Nat) (v : Word) (s : State) : Host.Outcome State Fault Refusal :=
  if sp.size s.cfg ≤ a then .refused .addressOutsideSpace
  else if sp = .dtbl then .refused .readOnlyWrite
  else if 2 ^ sp.width ≤ v.toNat then .refused .valueTooWide
  else .next (s.writeElement sp a v)

/-- `mem.r` (`20_memory.md` R151). -/
def hostMemRead (sp : Space) (a : Nat) (s : State) : Host.Outcome State Fault Refusal :=
  if sp.size s.cfg ≤ a then .refused .addressOutsideSpace
  else .next { s with reply := .word (s.readElement sp a) }

/-- `in.take N` (`20_memory.md` R162): the `N` head bytes of the input port. -/
def hostInTake (n : Nat) (s : State) : Host.Outcome State Fault Refusal :=
  if s.inPort.length < n then .refused .takeBeyondPort
  else .next { s with inPort := s.inPort.drop n, reply := .bytes (s.inPort.take n) }

/-- One host operation. -/
def hostAct (op : HostOp) (s : State) : Host.Outcome State Fault Refusal :=
  match op with
  | .csrWrite a v => hostCsrWrite a v s
  | .csrRead a => hostCsrRead a s
  | .memWrite sp a v => hostMemWrite sp a v s
  | .memRead sp a => hostMemRead sp a s
  | .inPush bs => .next { s with inPort := s.inPort ++ bs }
  | .inTake n => hostInTake n s
  | .outPop => .next { s with outPort := [], reply := .bytes s.outPort }
  | .idctPop => .next { s with idctPort := [], reply := .records s.idctPort }
  | .offerSpace cap => .next { s with outCapacity := cap }

end Sys2Proof.Machine
end

