-- ==== Sys2Proof/Machine/Step.lean ====
section
/-! DEFINITION. One step of the machine: the next operation of the host (`10_state.md` R50 to R52, log 1). -/

namespace Sys2Proof.Machine

/-- One step: the host's next operation, or nothing where it has none. A command runs in one step (`10_state.md` R51,
`70_reset_and_hazards.md` R970). -/
def step (s : State) : Host.Outcome State Fault Refusal :=
  match s.host with
  | [] => .next s
  | op :: rest => hostAct op { s with host := rest }

/-- `s` with the host about to write this word to `CMD` (`30_encoding.md` R200): the next step runs it. -/
def State.withFetchWord (s : State) (nbits w : Nat) : State :=
  { s with host := .csrWrite 0x008 (BitVec.ofNat 32 (w % 2 ^ nbits)) :: s.host }

end Sys2Proof.Machine
end

