-- ==== Sys2Proof/Safety.lean ====
section
/-! DEFINITION. What counts as a safe run: the invariants of the machine, and the terms in which the statements say
what the rules of the spec ask: ends of commands, legal words, reset values, canonical codes, strings of bits and bytes
in the ports, the coder's registers, geometry and the conditions under which a command completes. -/

namespace Sys2Proof.Machine

/-! ## Ends of a command (`60_exceptions.md` R900, R902, R907) -/

/-- The state with an end that is no fault recorded. -/
def State.ended (kind : ResultKind) (cause : SuspendCause) (s : State) : State :=
  { s with status := { s.status with resultKind := kind, suspendCause := cause } }

/-- The state with a fault recorded, where none was. -/
def State.faulted (code : FaultCode) (s : State) : State :=
  { s with status := { s.status with fault := some code, resultKind := .done, suspendCause := .none } }

/-- No fault is pending and no scan is active: what every engine, table and bit command asks of the state. -/
abbrev State.idle (s : State) : Prop := s.status.fault = none ∧ s.scan.active = false

/-- The output port has room for `n` more bytes in one step (`20_memory.md` R164). -/
abbrev State.roomFor (s : State) (n : Nat) : Prop := ∀ cap ∈ s.outCapacity, n ≤ cap

/-- The state preconditions of the commands' rules (`30_encoding.md` R211). -/
def Admits (s : State) : Instr → Prop
  | .nop => True
  | .reset => True
  | .startImage => True
  | .eoi => s.image.active = true ∧ s.scan.active = false
  | .htBuildDec _ _ => s.scan.active = false
  | .htBuildEnc _ _ => s.scan.active = false
  | .htDecode _ _ => s.scan.active = false
  | .htGetbits _ => s.scan.active = false
  | .htEncode _ _ _ => s.scan.active = false
  | .htPutbits _ _ => s.scan.active = false
  | .htFlush => s.scan.active = false
  | .htResetBits => s.scan.active = false
  | .arithEncInit => s.scan.active = false
  | .arithEncode _ _ => s.scan.active = false
  | .arithEncFlush => s.scan.active = false
  | .arithDecInit => s.scan.active = false
  | .arithDecode _ => s.scan.active = false
  | .startScan _ => s.image.active = true ∧ s.scan.active = false ∧ s.image.eoiReached = false
  | .encodeMcu => s.scan.active = true ∧ s.scan.dir = .encode
  | .decodeMcu => s.scan.active = true ∧ s.scan.dir = .decode
  | .finishScan => s.scan.active = true
  | .consumeInput => s.image.active = true ∧ s.scan.active = true ∧ s.scan.dir = .decode
  | .startOutputPass =>
    s.image.active = true ∧ s.ctl.mode = .multiScan ∧ s.ctl.outputPass = false ∧
      ¬(s.scan.active = true ∧ s.scan.dir = .encode)
  | .produceOutput => s.image.active = true ∧ s.ctl.mode = .multiScan ∧ s.ctl.outputPass = true

/-! ## Command words (`30_encoding.md` R201 to R210) -/

/-- The word is a command of the opcode map with its format's reserved bits 0 and its operands legal. -/
def LegalWord (w : Word) : Prop :=
  (bits w 24 8 ∈ [0x00, 0x01, 0x02, 0x03, 0x16, 0x17, 0x20, 0x22, 0x23, 0x31, 0x32, 0x33, 0x41, 0x42, 0x43] ∧
    bits w 0 24 = 0) ∨
  (bits w 24 8 ∈ [0x10, 0x11, 0x12] ∧ bits w 20 3 = 0 ∧ bits w 0 16 = 0) ∨
  (bits w 24 8 = 0x14 ∧ bits w 20 3 = 0 ∧ bits w 0 8 = 0) ∨
  (bits w 24 8 = 0x13 ∧ bits w 21 3 = 0 ∧ 1 ≤ bits w 16 5 ∧ bits w 16 5 ≤ 16 ∧ bits w 0 16 = 0) ∨
  (bits w 24 8 = 0x15 ∧ bits w 21 3 = 0 ∧ 1 ≤ bits w 16 5 ∧ bits w 16 5 ≤ 16) ∨
  ((bits w 24 8 = 0x21 ∨ bits w 24 8 = 0x24 ∧ bits w 0 1 = 0) ∧ bits w 20 2 = 0 ∧ bits w 1 7 = 0 ∧
    (bits w 22 2 = 0 ∧ bits w 8 8 < 64 ∨ bits w 22 2 = 1 ∨
      bits w 22 2 = 2 ∧ bits w 16 4 = 0 ∧ bits w 8 8 = 0)) ∨
  (bits w 24 8 = 0x30 ∧ bits w 0 23 = 0)

/-! ## Reset (`70_reset_and_hazards.md` R950) -/

/-- Every item of the table of R950 that has a value has it. -/
def AtReset (t : State) : Prop :=
  (t.regs.imgDim = 0 ∧ t.regs.restart = 0 ∧ t.regs.scan = 0 ∧ t.regs.scanComps = 0 ∧ t.regs.outScan = 0 ∧
    (∀ c < 10, t.regs.comp c = 0) ∧ t.regs.imgCfg = 0x40 ∧ (∀ k < 16, t.regs.arithCond.getD k 0 = 0x510) ∧
    t.regs.hspecValid = 0 ∧ t.regs.qtblValid = 0) ∧
  (t.readCsr 0x000 = some 0x4A454331 ∧ ∀ a ∈ [0x001, 0x002, 0x003, 0x004, 0x005, 0x006, 0x007], t.readCsr a = some 0) ∧
  (t.image.active = false ∧ t.image.dim = 0 ∧ t.image.cfg = 0 ∧ t.image.maxH = 0 ∧ t.image.maxV = 0 ∧
    t.image.totalRows = 0 ∧ t.image.inputScanNumber = 0 ∧ t.image.eoiReached = false ∧
    ∀ c < 10, (t.image.comp c).hSamp = 0 ∧ (t.image.comp c).vSamp = 0 ∧ (t.image.comp c).widthInBlocks = 0 ∧
      (t.image.comp c).heightInBlocks = 0 ∧ (t.image.comp c).qLatched = false ∧
      ∀ k < 64, Cells.read 0 (t.image.comp c).qtab k = 0 ∧ Cells.read (-1) (t.image.comp c).coefBits k = -1) ∧
  t.scan = { active := false, dir := .decode, mode := .none, ss := 0, se := 0, ah := 0, al := 0, compsInScan := 0,
             comps := Vector.replicate 4 ⟨0, 0, 0, 0, 0, 0, 0, 0⟩, restartInterval := 0, mcusPerRow := 0,
             mcuRowsInScan := 0, blocksInMcu := 0, membership := Vector.replicate 10 0 } ∧
  t.ent = { lastDc := Vector.replicate 4 0, dcContext := Vector.replicate 4 0, eobrun := 0, bitBuffer := [],
            putBuffer := 0, putBits := 0, getBuffer := 0, bitsLeft := 0, insufficient := false, unreadMarker := 0,
            restartsToGo := 0, nextRestart := 0, c := 0, a := 0x10000, ct := 11, sc := 0, zc := 0, buffer := -1,
            fixedBin := 0 } ∧
  (t.ctl.mode = .singlePass ∧ t.ctl.inputRow = 0 ∧ t.ctl.mcuCtr = 0 ∧ t.ctl.mcuVert = 0 ∧ t.ctl.mcuRowsPerImcu = 0 ∧
    t.ctl.outputRow = 0 ∧ t.ctl.outputPass = false ∧ t.ctl.smoothing = false ∧
    ∀ k, Cells.read 0 t.ctl.coefBitsLatch k = 0) ∧
  (∀ h < 8, (t.dtbl.getD h DerivedTable.reset).dvalid = false ∧ (t.dtbl.getD h DerivedTable.reset).evalid = false) ∧
  (∀ a, Cells.read 0 t.stats a = 0) ∧ t.inPort = [] ∧ t.outPort = [] ∧ t.idctPort = []

/-! ## Canonical codes (`41_huffman_tables.md` R401) -/

/-- The element of `HSPEC` at offset `o` of the record of table `(cls, t)` (`20_memory.md` R153). -/
def State.specByte (s : State) (cls : TableClass) (t o : Nat) : Byte :=
  Cells.read 0 s.hspec ((match cls with | .dc => t | .ac => 4 + t) * 0x120 + o)

/-- `bits[l]`. -/
def State.countOf (s : State) (cls : TableClass) (t l : Nat) : Nat := (s.specByte cls t l).toNat

/-- How many symbols have codes of at most `l` bits. -/
def State.symbolsUpTo (s : State) (cls : TableClass) (t l : Nat) : Nat :=
  ((List.range l).map fun i => s.countOf cls t (i + 1)).sum

/-- `n`, the number of symbols. -/
def State.symbolCount (s : State) (cls : TableClass) (t : Nat) : Nat := s.symbolsUpTo cls t 16

/-- How many codes of `l` bits start with a code of the table. -/
def State.codesUsed (s : State) (cls : TableClass) (t l : Nat) : Nat :=
  ((List.range l).map fun i => s.countOf cls t (i + 1) * 2 ^ (l - (i + 1))).sum

/-- `size[p]`: the least length with more than `p` symbols up to it. -/
def State.codeSize (s : State) (cls : TableClass) (t p : Nat) : Nat :=
  ((List.range 16).takeWhile fun i => decide (s.symbolsUpTo cls t (i + 1) ≤ p)).length + 1

/-- `code[p]` in closed form: the codes of `size[p]` bits that start with an earlier code come before it. -/
def State.codeOf (s : State) (cls : TableClass) (t p : Nat) : Nat :=
  ((List.range p).map fun q => 2 ^ (s.codeSize cls t p - s.codeSize cls t q)).sum

/-- `huffval[p]`. -/
def State.symbolOf (s : State) (cls : TableClass) (t p : Nat) : Byte := s.specByte cls t (0x20 + p)

/-- The specification of `(cls, t)` is present (R400). -/
def State.hasSpec (s : State) (cls : TableClass) (t : Nat) : Prop :=
  t ≤ 3 ∧ s.regs.hspecValid.getLsbD (match cls with | .dc => t | .ac => 4 + t) = true

/-- The specification passes both checks of `gen_codes` (R401): no more than 256 symbols, and at every length some
code left over. -/
def State.specOk (s : State) (cls : TableClass) (t : Nat) : Prop :=
  s.symbolCount cls t ≤ 256 ∧ ∀ l, 1 ≤ l → l ≤ 16 → s.codesUsed cls t l < 2 ^ l

/-- Every symbol of a DC table is at most 15 (R402, R404). -/
def State.symbolsOk (s : State) (cls : TableClass) (t : Nat) : Prop :=
  cls = .dc → ∀ p < s.symbolCount cls t, (s.symbolOf cls t p).toNat ≤ 15

/-- No symbol stands twice (R404). -/
def State.symbolsDistinct (s : State) (cls : TableClass) (t : Nat) : Prop :=
  ∀ p < s.symbolCount cls t, ∀ q < p, s.symbolOf cls t p ≠ s.symbolOf cls t q

/-- The table `(cls, t)` can be built for a scan of the direction (R400 to R404). -/
def State.canBuild (s : State) (dir : Direction) (cls : TableClass) (t : Nat) : Prop :=
  s.hasSpec cls t ∧ s.specOk cls t ∧ s.symbolsOk cls t ∧ (dir = .encode → s.symbolsDistinct cls t)

/-! ## Strings of bits and bytes (`20_memory.md` R166, `30_encoding.md` R251, R252) -/

/-- The low `n` bits of `v`, most significant first. -/
def msbFirst (n v : Nat) : List Bool := (List.range n).map fun i => v.testBit (n - 1 - i)

/-- The number the bits write, most significant first. -/
def bitsValue (l : List Bool) : Nat := l.foldl (fun a x => 2 * a + x.toNat) 0

/-- The whole bytes the bits fill. -/
def wholeBytes (l : List Bool) : List Byte :=
  (List.range (l.length / 8)).map fun i => BitVec.ofNat 8 (bitsValue ((l.drop (8 * i)).take 8))

/-- The bits after the whole bytes. -/
def bitsOver (l : List Bool) : List Bool := l.drop (8 * (l.length / 8))

/-- Entropy-coded bytes with their stuffing: 0xFF is followed by 0x00. -/
def stuffed (bs : List Byte) : List Byte := bs.flatMap fun x => if x = 0xFF then [x, 0] else [x]

/-- The number the bytes write, first byte most significant. -/
def bytesValue (bs : List Byte) : Nat := bs.foldl (fun a x => 256 * a + x.toNat) 0

/-- The entropy decoder reads the byte `d` from the port in `s` and is left in `t` (`40_qm_coder.md` R322): a data byte,
a stuffed 0xFF, or the zero data it supplies at and past a marker. -/
inductive ReadsByte : State → Nat → State → Prop
  | data {s : State} {x : Byte} {rest : List Byte} (hm : s.ent.unreadMarker = 0) (hp : s.inPort = x :: rest)
      (hx : x ≠ 0xFF) : ReadsByte s x.toNat { s with inPort := rest }
  | stuffing {s : State} {k : Nat} {rest : List Byte} (hm : s.ent.unreadMarker = 0)
      (hp : s.inPort = 0xFF :: (List.replicate k 0xFF ++ 0x00 :: rest)) :
      ReadsByte s 0xFF { s with inPort := rest }
  | marker {s : State} {k : Nat} {m : Byte} {rest : List Byte} (hm : s.ent.unreadMarker = 0)
      (hp : s.inPort = 0xFF :: (List.replicate k 0xFF ++ m :: rest)) (h0 : m ≠ 0) (hx : m ≠ 0xFF) :
      ReadsByte s 0 { s with inPort := rest, ent := { s.ent with unreadMarker := m } }
  | pastMarker {s : State} (hm : s.ent.unreadMarker ≠ 0) : ReadsByte s 0 s

/-- The entropy decoder runs out of input when it asks for a byte. -/
def NoByte (s : State) : Prop := s.ent.unreadMarker = 0 ∧ ∃ k, s.inPort = List.replicate k 0xFF

/-! ## The bit writer (`41_huffman_tables.md` R430) -/

/-- The bits the writer holds back. -/
def Entropy.pending (e : Entropy) : List Bool := msbFirst e.putBits (e.putBuffer.toNat / 2 ^ (24 - e.putBits))

/-- The writer's registers with the bits `l` held back. -/
def Entropy.holding (e : Entropy) (l : List Bool) : Entropy :=
  { e with putBits := l.length, putBuffer := BitVec.ofNat 24 (bitsValue l * 2 ^ (24 - l.length)) }

/-- The bytes that go out when the bits `l` are written. -/
def State.bytesOut (s : State) (l : List Bool) : List Byte := stuffed (wholeBytes (s.ent.pending ++ l))

/-- The state after the bits `l` are written. -/
def State.wrote (s : State) (l : List Bool) : State :=
  { s with outPort := s.outPort ++ s.bytesOut l, ent := s.ent.holding (bitsOver (s.ent.pending ++ l)) }

/-- `put_bits` is 0..7 and the pending bits of `put_buffer` are left-aligned at bit 23 (`10_state.md` R77,
`41_huffman_tables.md` R430). -/
abbrev Entropy.writerOk (e : Entropy) : Prop := e.putBits < 8 ∧ e.putBuffer.toNat % 2 ^ (24 - e.putBits) = 0

/-! ## The bit reader (`41_huffman_tables.md` R421) -/

/-- The reader's registers after it dropped `n` bits from a queue that held the low `held` bits of `v`. -/
def Entropy.readerAt (e : Entropy) (v held n : Nat) : Entropy :=
  { e with bitsLeft := held - n, getBuffer := BitVec.ofNat 32 (v % 2 ^ (held - n)) }

/-- The `n` bits at the head of a queue that holds the low `held` bits of `v`. -/
def headBits (v held n : Nat) : Nat := v / 2 ^ (held - n) % 2 ^ n

/-- The bytes `raw` carry the data bytes `bs`: each 0xFF of the data stands as 0xFF, fill bytes and 0x00
(`30_encoding.md` R251, R252). -/
inductive Carries : List Byte → List Byte → Prop
  | nil : Carries [] []
  | byte {x : Byte} {raw bs : List Byte} (hx : x ≠ 0xFF) (h : Carries raw bs) : Carries (x :: raw) (x :: bs)
  | stuffing {k : Nat} {raw bs : List Byte} (h : Carries raw bs) :
      Carries (0xFF :: (List.replicate k 0xFF ++ 0x00 :: raw)) (0xFF :: bs)

/-- How many bits the reader has once it holds the bytes `bs` too. -/
def State.bitsWith (s : State) (bs : List Byte) : Nat := s.ent.bitsLeft + 8 * bs.length

/-- The first `n` of them. -/
def State.firstBits (s : State) (bs : List Byte) (n : Nat) : Nat :=
  headBits (s.ent.getBuffer.toNat * 256 ^ bs.length + bytesValue bs) (s.bitsWith bs) n

/-- The state after the reader took `bs` from the port, which leaves `rest` there, and dropped `n` bits. -/
def State.tookBits (s : State) (bs rest : List Byte) (n : Nat) : State :=
  { s with
    inPort := rest
    ent := s.ent.readerAt (s.ent.getBuffer.toNat * 256 ^ bs.length + bytesValue bs) (s.bitsWith bs) n }

/-- The state with a warning recorded (`60_exceptions.md` R905). -/
def State.warned (w : Warning) (s : State) : State :=
  { s with status := { s.status with warnCount := min (s.status.warnCount + 1) 0xFFFFFFFF, warnLast := some w } }

/-- The state after the reader gave more bits than it had, past a marker: one warning, until `insufficient_data` is
cleared (R421). -/
def State.ranDry (s : State) : State :=
  let t := if s.ent.insufficient = true then s else s.warned .hitMarker
  { t with ent := { s.ent with bitsLeft := 0, getBuffer := 0, insufficient := true } }

/-- The reader gives the `n` bits of value `v` and is left in `t`, when it fills up to `need` bits from the port first
and the data may end at a marker: the bits it has, with the bytes it lacks; what it has behind a marker; those and zero
bits; and a marker met in the port. -/
inductive GivesBits (need n : Nat) : State → Nat → State → Prop
  | data {s : State} {raw bs rest : List Byte} (hp : s.inPort = raw ++ rest) (hc : Carries raw bs)
      (hn : need ≤ s.bitsWith bs) (hb : bs ≠ [] → s.ent.unreadMarker = 0 ∧ s.bitsWith bs < need + 8) :
      GivesBits need n s (s.firstBits bs n) (s.tookBits bs rest n)
  | pastMarker {s : State} (hm : s.ent.unreadMarker ≠ 0) (hn : n ≤ s.ent.bitsLeft) :
      GivesBits need n s (s.firstBits [] n) (s.tookBits [] s.inPort n)
  | zeros {s : State} (hm : s.ent.unreadMarker ≠ 0) (hn : s.ent.bitsLeft < n) :
      GivesBits need n s (s.ent.getBuffer.toNat * 2 ^ (n - s.ent.bitsLeft) % 2 ^ n) s.ranDry
  | marker {s t : State} {raw bs rest : List Byte} {k v : Nat} {m : Byte} (hm : s.ent.unreadMarker = 0)
      (hp : s.inPort = raw ++ 0xFF :: (List.replicate k 0xFF ++ m :: rest)) (hc : Carries raw bs) (h0 : m ≠ 0)
      (hx : m ≠ 0xFF) (hb : s.bitsWith bs < need)
      (ht : GivesBits need n
        { s.tookBits bs rest 0 with ent := { (s.tookBits bs rest 0).ent with unreadMarker := m } } v t) :
      GivesBits need n s v t

/-- The data bytes `bs` are all the port has, and no marker ends them. -/
def State.runsOut (s : State) (bs : List Byte) : Prop :=
  s.ent.unreadMarker = 0 ∧ ∃ (raw : List Byte) (k : Nat), s.inPort = raw ++ List.replicate k 0xFF ∧ Carries raw bs

/-- The record is the decoder table of the specification that `h` holds (`41_huffman_tables.md` R402, R403). -/
def DerivedTable.decodes (d : DerivedTable) (h : State) (cls : TableClass) (t : Nat) : Prop :=
  h.specOk cls t ∧ d.dvalid = true ∧
    (∀ l, 1 ≤ l → l ≤ 16 → h.countOf cls t l = 0 → Cells.read 0 d.maxcode l = -1) ∧
    (∀ l, 1 ≤ l → l ≤ 16 → 0 < h.countOf cls t l →
      Cells.read 0 d.maxcode l = BitVec.ofNat 32 (h.codeOf cls t (h.symbolsUpTo cls t l - 1)) ∧
      Cells.read 0 d.valoffset l = BitVec.ofInt 32 ((h.symbolsUpTo cls t (l - 1) : Int) -
        (h.codeOf cls t (h.symbolsUpTo cls t (l - 1)) : Int))) ∧
    Cells.read 0 d.maxcode 17 = 0xFFFFF ∧ (∀ p < 256, Cells.read 0 d.dval p = h.symbolOf cls t p) ∧
    ∀ w < 256,
      (∀ p < h.symbolCount cls t, h.codeSize cls t p ≤ 8 →
        w / 2 ^ (8 - h.codeSize cls t p) = h.codeOf cls t p →
        (Cells.read 0 d.lookNbits w).toNat = h.codeSize cls t p ∧
        Cells.read 0 d.lookSym w = h.symbolOf cls t p) ∧
      ((∀ p < h.symbolCount cls t, h.codeSize cls t p ≤ 8 →
        w / 2 ^ (8 - h.codeSize cls t p) ≠ h.codeOf cls t p) → Cells.read 0 d.lookNbits w = 0)

/-! ## The arithmetic coder (`40_qm_coder.md`) -/

/-- The encoder's registers in the range R313 gives, with the code and interval bounded so that no bit is lost. -/
abbrev Entropy.encoderOk (e : Entropy) : Prop :=
  0x8000 ≤ e.a.toNat ∧ e.a.toNat ≤ 0x10000 ∧ 1 ≤ e.ct.toNat ∧ e.ct.toNat ≤ 11 ∧
    (e.c.toNat + e.a.toNat) * 2 ^ e.ct.toNat ≤ 2 ^ 27 + 2 ^ 24 ∧ -1 ≤ e.buffer.toInt ∧ e.buffer.toInt ≤ 0xFE

/-- The state an operation on the bin finds: in mode `ZERO_EACH_USE` the fixed bin is 0 (R306). -/
def State.freshBin (s : State) (x : BinOperand) : State :=
  if x = .fixed ∧ s.cfg.fixedBinMode = .zeroEachUse then { s with ent := { s.ent with fixedBin := 0 } } else s

/-- The probability-state byte an operation on the bin finds (R305; §6). -/
def State.byteIn (s : State) (x : BinOperand) : Byte :=
  match x with
  | .dc slot bin => Cells.read 0 s.stats (slot * 64 + bin)
  | .ac slot bin => Cells.read 0 s.stats (0x400 + slot * 256 + bin)
  | .fixed => (s.freshBin .fixed).ent.fixedBin

/-- The state with the bin rewritten. -/
def State.setByteIn (s : State) (x : BinOperand) (v : Byte) : State :=
  match x with
  | .dc slot bin => { s with stats := Cells.write 0 s.stats (slot * 64 + bin) v }
  | .ac slot bin => { s with stats := Cells.write 0 s.stats (0x400 + slot * 256 + bin) v }
  | .fixed => { s with ent := { s.ent with fixedBin := v } }

/-- The probability-state byte after a decision that was the LPS or not (R303): `{mps, idx}` in bits 7 and 6..0. -/
def nextByte (sv : Byte) (q : QeEntry) (lps : Bool) : Byte :=
  if lps then BitVec.ofNat 8 ((if decide (128 ≤ sv.toNat) != q.sw then 128 else 0) + q.nlps)
  else BitVec.ofNat 8 ((if 128 ≤ sv.toNat then 128 else 0) + q.nmps)

/-- How many bytes at the end are 0. -/
def zerosAtEnd (l : List Byte) : Nat := (l.reverse.takeWhile fun x => x = 0).length

/-- What goes out of the bytes: all but the zero bytes at the end, with stuffing (R312, R330). -/
def settledBytes (l : List Byte) : List Byte := stuffed (l.take (l.length - zerosAtEnd l))

/-- The bytes the encoder holds back, without or with a carry (R312): the zero bytes counted by `zc`, the byte held, and
the stacked 0xFF bytes, which a carry makes 0x00. -/
def Entropy.heldBytes (e : Entropy) (carry : Bool) : List Byte :=
  List.replicate e.zc.toNat 0 ++ (if 0 ≤ e.buffer.toInt then [BitVec.ofNat 8 (e.buffer.toNat + carry.toNat)] else []) ++
    List.replicate e.sc.toNat (if carry then 0x00 else 0xFF)

/-- `enc_byte_out()` (R312): the bytes that go out, and the registers. A 0xFF is stacked; any other byte settles the bytes
held and is held itself. -/
def Entropy.byteMoved (e : Entropy) : List Byte × Entropy :=
  let temp := e.c.toNat / 2 ^ 19
  let held := e.heldBytes (decide (0xFF < temp))
  let rest : Entropy := { e with c := BitVec.ofNat 32 (e.c.toNat % 2 ^ 19) }
  if temp = 0xFF then ([], { rest with sc := e.sc + 1 })
  else (settledBytes held,
    { rest with sc := 0, zc := BitVec.ofNat 32 (zerosAtEnd held), buffer := BitVec.ofNat 32 (temp % 256) })

/-- The code register doubled `k` times, a byte moved whenever `ct` reaches 0 (R311): the bytes that go out, and the
registers. -/
inductive Doubles : Nat → Entropy → List Byte → Entropy → Prop
  | within {k : Nat} {e : Entropy} (h : k < e.ct.toNat) :
      Doubles k e [] { e with c := BitVec.ofNat 32 (e.c.toNat * 2 ^ k), ct := BitVec.ofNat 32 (e.ct.toNat - k) }
  | byte {k : Nat} {e m u : Entropy} {now later : List Byte} (h : e.ct.toNat ≤ k)
      (hm : { e with c := BitVec.ofNat 32 (e.c.toNat * 2 ^ e.ct.toNat) }.byteMoved = (now, m))
      (ht : Doubles (k - e.ct.toNat) { m with ct := 8 } later u) : Doubles k e (now ++ later) u

/-- The last code (R330): the value of the interval with most trailing zeros, aligned by `ct`. -/
def Entropy.lastCode (e : Entropy) : Nat :=
  let top := (e.c.toNat + e.a.toNat - 1) / 2 ^ 16 * 2 ^ 16
  (if top < e.c.toNat then top + 0x8000 else top) * 2 ^ e.ct.toNat

/-- The bytes that end a segment (R330): what is held, with the carry of the last code, and the last code's two bytes,
all without the zero bytes at the end. -/
def Entropy.lastBytes (e : Entropy) : List Byte :=
  settledBytes (e.heldBytes (decide (2 ^ 27 ≤ e.lastCode)) ++
    [BitVec.ofNat 8 (e.lastCode / 2 ^ 19), BitVec.ofNat 8 (e.lastCode / 2 ^ 11)])

/-- `zc` after the end of a segment (R330): the zero bytes that stay unsent where the last code has none to send. -/
def Entropy.zerosUnsent (e : Entropy) : Nat :=
  if e.lastCode / 2 ^ 11 % 2 ^ 16 = 0 then zerosAtEnd (e.heldBytes (decide (2 ^ 27 ≤ e.lastCode))) else 0

/-- The counters of held bytes are far from their width (log 8). -/
abbrev Entropy.countersLow (e : Entropy) : Prop := e.sc.toNat + e.zc.toNat < 2 ^ 31

/-- Every 0xFF from place `n` of the bytes on is followed at once by 0x00 (R314). -/
def StuffedFrom (n : Nat) (bs : List Byte) : Prop := ∀ i, n ≤ i → bs[i]? = some 0xFF → bs[i + 1]? = some 0x00

/-! ## Images (`44_coef_controller.md` R701, `45_scan_interface.md` R801, `20_memory.md` R160) -/

/-- The checks of R801 on the registers, in order. -/
def Regs.dimensionOk (r : Regs) : Prop :=
  1 ≤ imgWidth r.imgDim ∧ imgWidth r.imgDim ≤ 65500 ∧ 1 ≤ imgHeight r.imgDim ∧ imgHeight r.imgDim ≤ 65500
def Regs.componentsOk (r : Regs) : Prop := 1 ≤ cfgComponents r.imgCfg ∧ cfgComponents r.imgCfg ≤ 10
def Regs.samplingOk (r : Regs) : Prop :=
  ∀ c < cfgComponents r.imgCfg, 1 ≤ compH (r.comp c) ∧ compH (r.comp c) ≤ 4 ∧ 1 ≤ compV (r.comp c) ∧
    compV (r.comp c) ≤ 4

/-- The image needs the full-image buffer (R802). -/
def Regs.multi (r : Regs) : Bool := cfgMulti r.imgCfg || cfgProg r.imgCfg

/-- `max_h_samp`, `max_v_samp` and the size of component `c` in blocks (R701). -/
def Regs.maxH (r : Regs) : Nat := maxOver (cfgComponents r.imgCfg) fun c => compH (r.comp c)
def Regs.maxV (r : Regs) : Nat := maxOver (cfgComponents r.imgCfg) fun c => compV (r.comp c)
def Regs.blocksWide (r : Regs) (c : Nat) : Nat := ceilDiv (imgWidth r.imgDim * compH (r.comp c)) (8 * r.maxH)
def Regs.blocksHigh (r : Regs) (c : Nat) : Nat := ceilDiv (imgHeight r.imgDim * compV (r.comp c)) (8 * r.maxV)

/-- The blocks of the full-image coefficient arrays (R160). -/
def Regs.imageBlocks (r : Regs) : Nat :=
  ((List.range (cfgComponents r.imgCfg)).map fun c =>
    roundUp (r.blocksHigh c) (compV (r.comp c)) * roundUp (r.blocksWide c) (compH (r.comp c))).sum

/-- The state with the previous image, scan and controller state discarded (`20_memory.md` R172). -/
def State.noImage (s : State) : State := { s with image := Image.reset, scan := Scan.reset, ctl := Ctl.reset }

/-! ## Scans (`45_scan_interface.md` R804 to R809) -/

/-- The image component of scan component `i`, as `SCAN_COMPS` names it. -/
def Regs.scanned (r : Regs) (i : Nat) : Nat := scanComp r.scanComps i

/-- The component checks of R806 (1). -/
def State.scanComponentsOk (s : State) (dir : Direction) : Prop :=
  1 ≤ scanCount s.regs.scan ∧ scanCount s.regs.scan ≤ 4 ∧
    (∀ i < scanCount s.regs.scan, s.regs.scanned i < s.image.components) ∧
    (∀ i < scanCount s.regs.scan, ∀ j < i, s.regs.scanned i ≠ s.regs.scanned j) ∧
    (dir = .decode → s.ctl.mode = .singlePass →
      s.image.inputScanNumber = 0 ∧ scanCount s.regs.scan = s.image.components)

/-- The progressive parameters of R806 (3). -/
def Regs.progressionOk (r : Regs) : Prop :=
  (scanSs r.scan = 0 → scanSe r.scan = 0) ∧
    (0 < scanSs r.scan → scanSs r.scan ≤ scanSe r.scan ∧ scanSe r.scan ≤ 63 ∧ scanCount r.scan = 1) ∧
    (scanAh r.scan ≠ 0 → scanAl r.scan + 1 = scanAh r.scan) ∧ scanAl r.scan ≤ 13

/-- The blocks of an MCU of the scan (`44_coef_controller.md` R702). -/
def State.scanBlocks (s : State) : Nat :=
  if scanCount s.regs.scan = 1 then 1
  else ((List.range (scanCount s.regs.scan)).map fun i =>
    (s.image.comp (s.regs.scanned i)).hSamp * (s.image.comp (s.regs.scanned i)).vSamp).sum

/-- The scan uses the Huffman table `(cls, t)` (R809). -/
def State.usesTable (s : State) (cls : TableClass) (t : Nat) : Prop :=
  s.image.arith = false ∧ ∃ i < scanCount s.regs.scan,
    match cls with
    | .dc => (s.image.prog = false ∨ scanSs s.regs.scan = 0 ∧ scanAh s.regs.scan = 0) ∧
      t = compDc (s.regs.comp (s.regs.scanned i))
    | .ac => (s.image.prog = false ∨ 0 < scanSs s.regs.scan) ∧ t = compAc (s.regs.comp (s.regs.scanned i))

/-- Every Huffman table the scan uses can be built (R809). -/
def State.scanTablesOk (s : State) (dir : Direction) : Prop :=
  s.image.arith = false → ∀ i < scanCount s.regs.scan,
    ((s.image.prog = false ∨ scanSs s.regs.scan = 0 ∧ scanAh s.regs.scan = 0) →
      s.canBuild dir .dc (compDc (s.regs.comp (s.regs.scanned i)))) ∧
    ((s.image.prog = false ∨ 0 < scanSs s.regs.scan) →
      s.canBuild dir .ac (compAc (s.regs.comp (s.regs.scanned i))))

/-- `START_SCAN` of the direction passes every check (R804 to R809). -/
def State.scanOk (s : State) (dir : Direction) : Prop :=
  s.status.fault = none ∧ Admits s (.startScan dir) ∧ s.scanComponentsOk dir ∧
    (s.image.prog = true → s.regs.progressionOk) ∧ s.scanBlocks ≤ 10 ∧ s.scanTablesOk dir

/-- The mode of R806 (2), by the names of `00_scope.md` R23. -/
def State.modeOfScan (s : State) : ScanMode :=
  if s.image.prog = false then (if s.image.arith then .ariSeq else .hufSeq)
  else if scanAh s.regs.scan = 0 then
    (if scanSs s.regs.scan = 0 then (if s.image.arith then .ariDcFirst else .hufDcFirst)
     else (if s.image.arith then .ariAcFirst else .hufAcFirst))
  else
    (if scanSs s.regs.scan = 0 then (if s.image.arith then .ariDcRefine else .hufDcRefine)
     else (if s.image.arith then .ariAcRefine else .hufAcRefine))

/-- Component `c` is in the scan. -/
abbrev State.inScan (s : State) (c : Nat) : Prop := ∃ i < scanCount s.regs.scan, s.regs.scanned i = c

/-- The scan that starts latches the quantization table of component `c` (R805). -/
def State.latchesQuant (s : State) (c : Nat) : Prop :=
  s.inScan c ∧ (s.image.comp c).qLatched = false ∧ bit s.regs.qtblValid (compQuant (s.regs.comp c)) = true

/-- The warnings R807 raises for component `c`: an AC scan before any DC scan, and each coefficient whose expected `Ah`
is another. -/
def State.bogusCoefs (s : State) (c : Nat) : Nat :=
  let known := fun k => Cells.read (-1) (s.image.comp c).coefBits k
  (if 0 < scanSs s.regs.scan ∧ known 0 < 0 then 1 else 0) +
    ((List.range (scanSe s.regs.scan + 1)).filter fun k =>
      decide (scanSs s.regs.scan ≤ k) && decide ((scanAh s.regs.scan : Int) ≠ max (known k) 0)).length

/-- How many warnings `START_SCAN` raises: `NOT_SEQUENTIAL` once (R806 (2)), `BOGUS_PROGRESSION` (R807). -/
def State.scanWarnings (s : State) (dir : Direction) : Nat :=
  if s.image.prog = false then
    if scanSs s.regs.scan = 0 ∧ scanSe s.regs.scan = 63 ∧ scanAh s.regs.scan = 0 ∧ scanAl s.regs.scan = 0 then 0 else 1
  else if dir = .decode then ((List.range (scanCount s.regs.scan)).map fun i => s.bogusCoefs (s.regs.scanned i)).sum
  else 0

/-- No restart is due before the next MCU (`42_huffman_entropy.md` R505, R506). -/
abbrev State.noRestartDue (s : State) : Prop := s.scan.restartInterval = 0 ∨ 0 < s.ent.restartsToGo

/-- The countdown after an MCU before which no restart was due. -/
def State.restartsAfterMcu (s : State) : Nat :=
  if s.scan.restartInterval = 0 then s.ent.restartsToGo else s.ent.restartsToGo - 1

/-! ## Restart (`42_huffman_entropy.md` R527 to R531, `43_arith_entropy.md` R635, R636, R640, R641) -/

/-- A restart is due before the next MCU. -/
abbrev State.restartDue (s : State) : Prop := 0 < s.scan.restartInterval ∧ s.ent.restartsToGo = 0

abbrev ScanMode.isHuffman (m : ScanMode) : Prop := m ∈ [.hufSeq, .hufDcFirst, .hufAcFirst, .hufDcRefine, .hufAcRefine]
abbrev ScanMode.isArith (m : ScanMode) : Prop := m ∈ [.ariSeq, .ariDcFirst, .ariAcFirst, .ariDcRefine, .ariAcRefine]

/-- The first marker of the bytes is `m`, with `n` data bytes before it and `rest` after it (R529): fill bytes are not
counted, and 0xFF 0x00 counts 2. -/
inductive FindsMarker : List Byte → Nat → Byte → List Byte → Prop
  | here {k : Nat} {m : Byte} {rest : List Byte} (h0 : m ≠ 0) (hx : m ≠ 0xFF) :
      FindsMarker (0xFF :: (List.replicate k 0xFF ++ m :: rest)) 0 m rest
  | skip {x m : Byte} {bs rest : List Byte} {n : Nat} (hx : x ≠ 0xFF) (h : FindsMarker bs n m rest) :
      FindsMarker (x :: bs) (n + 1) m rest
  | stuffing {m : Byte} {bs rest : List Byte} {k n : Nat} (h : FindsMarker bs n m rest) :
      FindsMarker (0xFF :: (List.replicate k 0xFF ++ 0x00 :: bs)) (n + 2) m rest

/-- The state after `next_marker()` found `m` behind `n` bytes (R529). -/
def State.foundMarker (s : State) (n : Nat) (m : Byte) (rest : List Byte) : State :=
  let t := { s with inPort := rest, ent := { s.ent with unreadMarker := m } }
  if n = 0 then t
  else State.warned .extraneousData { t with status := { t.status with discarded := BitVec.ofNat 32 n } }

/-- How many restart markers the marker `m` is ahead of the one desired, modulo 8. -/
def markersAhead (desired : Nat) (m : Byte) : Nat := (m.toNat - 0xD0 + 8 - desired % 8) % 8

/-- The marker is one of RST0 to RST7. -/
abbrev isRst (m : Byte) : Prop := 0xD0 ≤ m.toNat ∧ m.toNat ≤ 0xD7

/-- The loop of `resync(desired)` (R531): it discards the marker, scans on, or leaves the marker. -/
inductive Resyncs (desired : Nat) : State → State → Prop
  | discard {s : State} (hm : isRst s.ent.unreadMarker) (h : markersAhead desired s.ent.unreadMarker ∈ [0, 3, 4, 5]) :
      Resyncs desired s { s with ent := { s.ent with unreadMarker := 0 } }
  | scan {s t : State} {n : Nat} {m : Byte} {rest : List Byte}
      (h : s.ent.unreadMarker.toNat < 0xC0 ∨
        isRst s.ent.unreadMarker ∧ markersAhead desired s.ent.unreadMarker ∈ [6, 7])
      (hf : FindsMarker s.inPort n m rest) (ht : Resyncs desired (s.foundMarker n m rest) t) : Resyncs desired s t
  | leave {s : State}
      (h : 0xC0 ≤ s.ent.unreadMarker.toNat ∧ ¬isRst s.ent.unreadMarker ∨
        isRst s.ent.unreadMarker ∧ markersAhead desired s.ent.unreadMarker ∈ [1, 2]) : Resyncs desired s s

/-- `read_restart_marker()` goes from `s` to `t` (R530): the marker met before or the next one is the one desired, or
the policy of R531 decides. -/
def TakesRestart (s t : State) : Prop :=
  ∃ u v : State,
    (s.ent.unreadMarker ≠ 0 ∧ u = s ∨
      s.ent.unreadMarker = 0 ∧ ∃ n m rest, FindsMarker s.inPort n m rest ∧ u = s.foundMarker n m rest) ∧
    (u.ent.unreadMarker.toNat = 0xD0 + s.ent.nextRestart ∧ v = { u with ent := { u.ent with unreadMarker := 0 } } ∨
      u.ent.unreadMarker.toNat ≠ 0xD0 + s.ent.nextRestart ∧ Resyncs s.ent.nextRestart (u.warned .mustResync) v) ∧
    t = { v with ent := { v.ent with nextRestart := (s.ent.nextRestart + 1) % 8 } }

/-- The predictors with those of the scan's components at 0. -/
def State.freshPredictors (s : State) : Vector Word 4 :=
  Vector.ofFn fun i : Fin 4 => if i.val < s.scan.compsInScan then 0 else s.ent.lastDc[i]

/-- The rest of `process_restart()` of a Huffman scan (R528). -/
def State.huffmanRestarted (t : State) : State :=
  { t with ent := { t.ent with
      getBuffer := 0, bitsLeft := 0, lastDc := t.freshPredictors, eobrun := 0
      restartsToGo := t.scan.restartInterval
      insufficient := if t.ent.unreadMarker = 0 then false else t.ent.insufficient } }

/-- The arithmetic scan codes DC coefficients with DC bins; AC coefficients with AC bins (R635). -/
abbrev State.codesDc (s : State) : Prop := s.image.prog = false ∨ s.scan.ss = 0 ∧ s.scan.ah = 0
abbrev State.codesAc (s : State) : Prop := s.image.prog = false ∨ 0 < s.scan.ss

/-- The scan uses the byte `a` of `STATS` (R635). -/
def State.usesStat (s : State) (a : Nat) : Prop :=
  ∃ i < s.scan.compsInScan,
    s.codesDc ∧ (s.scan.comp i).dcTbl * 64 ≤ a ∧ a < (s.scan.comp i).dcTbl * 64 + 64 ∨
    s.codesAc ∧ 0x400 + (s.scan.comp i).acTbl * 256 ≤ a ∧ a < 0x400 + (s.scan.comp i).acTbl * 256 + 256

/-- `st` is `STATS` with the bytes the scan uses at 0 (R636). -/
def State.freshStats (s : State) (st : Cells Byte) : Prop :=
  ∀ a, (s.usesStat a → Cells.read 0 st a = 0) ∧ (¬s.usesStat a → Cells.read 0 st a = Cells.read 0 s.stats a)

/-- The fixed bin at a scan's start, at a restart and at an engine initialization (`40_qm_coder.md` R306). -/
def fixedBinAtStart (mode : FixedBinMode) (old : Byte) : Byte :=
  match mode with
  | .zeroEachUse => old
  | .persistentZero => 0
  | .entry113 => 113

/-- The state after `ari_reset_contexts()` (R636), with `STATS` at `st`. -/
def State.freshContexts (s : State) (st : Cells Byte) : State :=
  { s with
    stats := st
    ent := { s.ent with
      lastDc := if s.codesDc then Vector.replicate 4 0 else s.ent.lastDc
      dcContext := if s.codesDc then Vector.replicate 4 0 else s.ent.dcContext
      fixedBin := fixedBinAtStart s.cfg.fixedBinMode s.ent.fixedBin } }

/-- The rest of `ari_process_restart()` (R641), with `STATS` at `st`. -/
def State.arithRestarted (t : State) (st : Cells Byte) : State :=
  { t.freshContexts st with ent := { (t.freshContexts st).ent with
      c := 0, a := 0, ct := -16, restartsToGo := t.scan.restartInterval } }

/-- The bits of a pending end-of-band run: its code, its extra bits, the correction bits (R516, R527). -/
def State.runBits (s : State) : List Bool :=
  if s.scan.mode = .hufSeq ∨ s.ent.eobrun = 0 then []
  else
    let d := s.derived .ac (s.scan.comp 0).acTbl
    let n := Nat.log2 s.ent.eobrun
    msbFirst (Cells.read 0 d.ehufsi (n * 16)).toNat (Cells.read 0 d.ehufco (n * 16)).toNat ++
      msbFirst n s.ent.eobrun ++ s.ent.bitBuffer

/-- A pending run can be coded: it is no longer than the codes reach, and its symbol has a code. -/
def State.runCodable (s : State) : Prop :=
  s.scan.mode = .hufSeq ∨ s.ent.eobrun = 0 ∨ s.ent.eobrun ≤ 0x7FFF ∧
    let n := (Cells.read 0 (s.derived .ac (s.scan.comp 0).acTbl).ehufsi (Nat.log2 s.ent.eobrun * 16)).toNat
    1 ≤ n ∧ n ≤ 16

/-- The restart marker that is due. -/
def State.rstBytes (s : State) : List Byte := [0xFF, BitVec.ofNat 8 (0xD0 + s.ent.nextRestart)]

/-- The state after `emit_restart()` of a Huffman scan (R527), the restart counted. -/
def State.huffmanRestartSent (s : State) : State :=
  { s with
    outPort := s.outPort ++ s.bytesOut (s.runBits ++ List.replicate 7 true) ++ s.rstBytes
    ent := { s.ent with
      putBuffer := 0, putBits := 0
      lastDc := if s.scan.mode = .hufSeq ∨ s.scan.ss = 0 then s.freshPredictors else s.ent.lastDc
      eobrun := if s.scan.mode = .hufSeq then s.ent.eobrun else 0
      bitBuffer := if s.scan.mode = .hufSeq ∨ s.scan.ss = 0 ∧ s.ent.eobrun = 0 then s.ent.bitBuffer else []
      restartsToGo := s.scan.restartInterval
      nextRestart := (s.ent.nextRestart + 1) % 8 } }

/-- The state after `ari_emit_restart()` (R640), the restart counted: `out` ends the segment. -/
def State.arithRestartSent (s : State) (out : List Byte) (st : Cells Byte) : State :=
  { s.freshContexts st with
    outPort := s.outPort ++ out ++ s.rstBytes
    ent := { (s.freshContexts st).ent with
      c := 0, a := 0x10000, ct := 11, sc := 0, zc := 0, buffer := -1
      restartsToGo := s.scan.restartInterval
      nextRestart := (s.ent.nextRestart + 1) % 8 } }

/-! ## Decisions of the arithmetic codec (`43_arith_entropy.md` R601 to R625) -/

/-- The state without its scan: the coder's commands run in it. -/
def State.withoutScan (s : State) : State := { s with scan := { s.scan with active := false } }

/-- The state a decision finds: where it is a sign in the bin 245, that bin is 0 (R601). -/
def State.freshSign (s : State) (x : BinOperand) : State :=
  match s.cfg.acSignCtx, x with
  | .bin245, .ac slot 245 => s.setByteIn (.ac slot 245) 0
  | _, _ => s

/-- `ARITH_ENCODE` of the decisions, one after the other. -/
inductive Codes : State → List (BinOperand × Bool) → State → Prop
  | nil {s : State} : Codes s [] s
  | cons {s t u : State} {x : BinOperand} {bit : Bool} {ds : List (BinOperand × Bool)}
      (h : exec (.arithEncode x bit) (s.freshSign x) = .next t) (hf : t.status.fault = none) (ht : Codes t ds u) :
      Codes s ((x, bit) :: ds) u

/-- `ARITH_DECODE` with the fixed bin, once for each bit, returns the bits. -/
inductive Decides : State → List Bool → State → Prop
  | nil {s : State} : Decides s [] s
  | cons {s t u : State} {bit : Bool} {bs : List Bool} (h : exec (.arithDecode .fixed) s = .next t)
      (hf : t.status.fault = none) (hk : t.status.resultKind = .done)
      (hr : t.status.result = if bit then 1 else 0) (ht : Decides t bs u) : Decides s (bit :: bs) u

/-- `ARITH_DECODE` of the decisions, one after the other, returns them. -/
inductive Returns : State → List (BinOperand × Bool) → State → Prop
  | nil {s : State} : Returns s [] s
  | cons {s t u : State} {x : BinOperand} {bit : Bool} {ds : List (BinOperand × Bool)}
      (h : exec (.arithDecode x) (s.freshSign x) = .next t) (hf : t.status.fault = none)
      (hk : t.status.resultKind = .done) (hr : t.status.result = if bit then 1 else 0) (ht : Returns t ds u) :
      Returns s ((x, bit) :: ds) u

/-- A magnitude above its first power of two: bins in a row until the size, then the bits below the first
(R611, R615). `first` is the bin of size `least`. -/
def magnitude (bin : Nat → BinOperand) (first least v : Nat) : List (BinOperand × Bool) :=
  let n := Nat.log2 v
  ((List.range (n - least)).map fun i => (bin (first + i), true)) ++ [(bin (first + (n - least)), false)] ++
    (msbFirst n v).map fun x => (bin (first + (n - least) + 14), x)

/-- The decisions of a DC difference `d` in context `ctx` (R611). -/
def dcDecisions (t ctx : Nat) (d : Int) : List (BinOperand × Bool) :=
  if d = 0 then [(.dc t ctx, false)]
  else
    let neg := decide (d < 0)
    let st := ctx + 2 + neg.toNat
    [(.dc t ctx, true), (.dc t (ctx + 1), neg)] ++
      if d.natAbs = 1 then [(.dc t st, false)] else (.dc t st, true) :: magnitude (.dc t) 20 0 (d.natAbs - 1)

/-- The context a DC difference leaves (R610). -/
def dcContextAfter (l u : Nat) (d : Int) : Nat :=
  let m := if d.natAbs ≤ 1 then 0 else 2 ^ Nat.log2 (d.natAbs - 1)
  if d = 0 ∨ m < 2 ^ l / 2 then 0
  else (if 2 ^ u / 2 < m then 12 else 4) + if d < 0 then 4 else 0

/-- The decisions of a magnitude `v` at index `k` of a band (R615). -/
def acMagnitude (t kx k v : Nat) : List (BinOperand × Bool) :=
  let st := 3 * (k - 1) + 2
  if v ≤ 1 then [(.ac t st, false)]
  else if v = 2 then [(.ac t st, true), (.ac t st, false)]
  else [(.ac t st, true), (.ac t st, true)] ++ magnitude (.ac t) (if k ≤ kx then 189 else 217) 1 (v - 1)

/-- The last index of 1..`se` with `p`, or 0. -/
def lastWith (p : Nat → Bool) (se : Nat) : Nat := ((List.range (se + 1)).filter fun k => 0 < k && p k).getLastD 0

/-- The decision that ends a band whose last coded index is `ke`, unless it is the last of the band (R617, R625). -/
def bandEnd (t ss se ke : Nat) : List (BinOperand × Bool) :=
  if max (ke + 1) ss ≤ se then [(.ac t (3 * (max (ke + 1) ss - 1)), true)] else []

/-- The indexes `ss..ke`. -/
def indexes (ss ke : Nat) : List Nat := (List.range (ke + 1)).filter fun k => ss ≤ k

/-- At the first index of a band and after each nonzero value: "not the end" (R617). -/
def notTheEnd (t ss : Nat) (val : Nat → Int) (k : Nat) : List (BinOperand × Bool) :=
  if k = ss ∨ val (k - 1) ≠ 0 then [(.ac t (3 * (k - 1)), false)] else []

/-- The decisions that a value is not 0, and its sign (R617). -/
def nonzeroHead (sign : BinOperand) (t k : Nat) (v : Int) : List (BinOperand × Bool) :=
  [(.ac t (3 * (k - 1) + 1), true), (sign, decide (v < 0))]

/-- The decisions of index `k` of a band: whether the value is nonzero, its sign and its magnitude (R617). -/
def acIndex (sign : BinOperand) (t kx ss : Nat) (val : Nat → Int) (k : Nat) : List (BinOperand × Bool) :=
  notTheEnd t ss val k ++
    if val k = 0 then [(.ac t (3 * (k - 1) + 1), false)]
    else nonzeroHead sign t k (val k) ++ acMagnitude t kx k (val k).natAbs

/-- The decisions of a band of values (R617). -/
def acDecisions (sign : BinOperand) (t kx ss se : Nat) (val : Nat → Int) : List (BinOperand × Bool) :=
  let ke := lastWith (fun k => val k ≠ 0) se
  (indexes ss ke).flatMap (acIndex sign t kx ss val) ++ bandEnd t ss se ke

/-- The decisions of index `k` of an AC refinement scan (R625): where the value `was` nonzero before, a correction bit;
else whether it is newly so, and its sign. `kex` is the last index that was nonzero. -/
def refineIndex (t ss kex : Nat) (was : Nat → Bool) (val : Nat → Int) (k : Nat) : List (BinOperand × Bool) :=
  (if (k = ss ∨ was (k - 1) = true ∨ val (k - 1) ≠ 0) ∧ kex < k then [(.ac t (3 * (k - 1)), false)] else []) ++
    if was k then [(.ac t (3 * (k - 1) + 2), decide (val k ≠ 0))]
    else if val k ≠ 0 then [(.ac t (3 * (k - 1) + 1), true), (.fixed, decide (val k < 0))]
    else [(.ac t (3 * (k - 1) + 1), false)]

/-- The decisions of an AC refinement scan (R625). -/
def refineDecisions (t ss se kex : Nat) (was : Nat → Bool) (val : Nat → Int) : List (BinOperand × Bool) :=
  let ke := lastWith (fun k => was k || decide (val k ≠ 0)) se
  (indexes ss ke).flatMap (refineIndex t ss kex was val) ++ bandEnd t ss se ke

/-- `sign_bin` of AC slot `t` (R601). -/
def signOperand (cfg : Config) (t : Nat) : BinOperand :=
  match cfg.acSignCtx with
  | .bin245 => .ac t 245
  | .fixed => .fixed

/-- `dc_tbl[ci(b)]` and `ac_tbl[ci(b)]` of block `b` of the MCU. -/
def State.dcTableOf (s : State) (b : Nat) : Nat := (s.scan.comp (s.scan.membership.getD b 0)).dcTbl
def State.acTableOf (s : State) (b : Nat) : Nat := (s.scan.comp (s.scan.membership.getD b 0)).acTbl

/-- The predictor and the context of block `b` after a difference of `d` (R610, R611). -/
def State.afterDcDiff (s : State) (e : Entropy) (b : Nat) (d : Int) : Entropy :=
  let ci := s.scan.membership.getD b 0
  (e.withDc ci (e.dc ci + d)).withContext ci
    (dcContextAfter (s.regs.condL (s.dcTableOf b)) (s.regs.condU (s.dcTableOf b)) d)

/-- The decisions of a DC difference of block `b`. -/
def State.dcDecisionsOf (s : State) (e : Entropy) (b : Nat) (d : Int) : List (BinOperand × Bool) :=
  dcDecisions (s.dcTableOf b) (e.context (s.scan.membership.getD b 0)) d

/-- The decisions of index `k` and of a band in the AC slot of block `b`. -/
def State.acIndexOf (s : State) (b ss : Nat) (val : Nat → Int) (k : Nat) : List (BinOperand × Bool) :=
  acIndex (signOperand s.cfg (s.acTableOf b)) (s.acTableOf b) (s.regs.condK (s.acTableOf b)) ss val k
def State.acDecisionsOf (s : State) (b ss se : Nat) (val : Nat → Int) : List (BinOperand × Bool) :=
  acDecisions (signOperand s.cfg (s.acTableOf b)) (s.acTableOf b) (s.regs.condK (s.acTableOf b)) ss se val

/-- Coefficient `k` of block `b` of `MCUBUF`, in zigzag order. -/
def State.mcuCoef (s : State) (b k : Nat) : Coef := Cells.read 0 s.mcubuf (b * 64 + naturalOrder k)

/-- The decisions of block `b` of `MCUBUF` in the scan's mode, and the predictors and contexts after it
(R620, R622 to R625). -/
def State.blockDecisions (s : State) (e : Entropy) (b : Nat) : List (BinOperand × Bool) × Entropy :=
  let c := fun k => (s.mcuCoef b k).toInt
  let last := e.dc (s.scan.membership.getD b 0)
  let a := fun k => (c k).natAbs / 2 ^ s.scan.al
  match s.scan.mode with
  | .ariSeq => (s.dcDecisionsOf e b (c 0 - last) ++ s.acDecisionsOf b 1 63 c, s.afterDcDiff e b (c 0 - last))
  | .ariDcFirst =>
    (s.dcDecisionsOf e b (c 0 / 2 ^ s.scan.al - last), s.afterDcDiff e b (c 0 / 2 ^ s.scan.al - last))
  | .ariAcFirst => (s.acDecisionsOf b s.scan.ss s.scan.se fun k => (c k).sign * (a k : Int), e)
  | .ariDcRefine => ([(.fixed, decide (c 0 / 2 ^ s.scan.al % 2 = 1))], e)
  | .ariAcRefine =>
    (refineDecisions (s.acTableOf b) s.scan.ss s.scan.se
      (lastWith (fun k => (c k).natAbs / 2 ^ s.scan.ah ≠ 0) (lastWith (fun k => a k ≠ 0) s.scan.se))
      (fun k => decide (1 < a k)) fun k => if 1 < a k then (a k % 2 : Nat) else (c k).sign * (a k : Int), e)
  | _ => ([], e)

/-- The decisions of the MCU, and the predictors and contexts after it. -/
def State.mcuDecisions (s : State) : List (BinOperand × Bool) × Entropy :=
  (List.range s.scan.blocksInMcu).foldl
    (fun r b => (r.1 ++ (s.blockDecisions r.2 b).1, (s.blockDecisions r.2 b).2)) ([], s.ent)

/-! ## What an MCU decodes to, block by block -/

/-- The blocks `bs` decoded in order, each as `R` says from the predictors before it: the data `ds`, the writes `ws` to
`MCUBUF` as address and value, and the predictors after. -/
inductive BlockChain {α : Type} (R : Nat → Entropy → List α → List (Nat × Coef) → Entropy → Prop) :
    List Nat → Entropy → List α → List (Nat × Coef) → Entropy → Prop
  | nil {e : Entropy} : BlockChain R [] e [] [] e
  | cons {b : Nat} {bs : List Nat} {e m u : Entropy} {d ds : List α} {w ws : List (Nat × Coef)}
      (h : R b e d w m) (ht : BlockChain R bs m ds ws u) : BlockChain R (b :: bs) e (d ++ ds) (w ++ ws) u

/-- The writes of the nonzero values of a band, shifted by `al`, to block `b`. -/
def bandWrites (b ss se al : Nat) (val : Nat → Int) : List (Nat × Coef) :=
  (indexes ss se).filterMap fun k =>
    if val k = 0 then none else some (b * 64 + naturalOrder k, BitVec.ofInt 16 (val k * 2 ^ al))

/-- The write of a DC coefficient: the predictor after the difference, shifted by `al`. -/
def State.dcWrite (s : State) (e : Entropy) (b al : Nat) : Nat × Coef :=
  (b * 64, BitVec.ofInt 16 (e.dc (s.scan.membership.getD b 0) * 2 ^ al))

/-- A nonzero coefficient moved away from 0 by the bit `al` (`42_huffman_entropy.md` R522, `43_arith_entropy.md` R626). -/
def corrected (al : Nat) (x : Coef) : Coef := BitVec.ofInt 16 (if x.toInt < 0 then x.toInt - 2 ^ al else x.toInt + 2 ^ al)

/-- The writes of an AC refinement (`43_arith_entropy.md` R626) to block `b`: corrections and new coefficients. -/
def State.refineWrites (s : State) (b : Nat) (val : Nat → Int) : List (Nat × Coef) :=
  (indexes s.scan.ss s.scan.se).filterMap fun k =>
    if val k = 0 then none
    else some (b * 64 + naturalOrder k,
      if s.mcuCoef b k ≠ 0 then corrected s.scan.al (s.mcuCoef b k)
      else BitVec.ofInt 16 (if val k < 0 then -(2 ^ s.scan.al) else 2 ^ s.scan.al))

/-- The magnitudes the arithmetic decoder takes (`43_arith_entropy.md` R612, R616). -/
abbrev fits (v : Int) : Prop := v.natAbs ≤ 0x8000

/-- Block `b` decoded by the arithmetic decoder to the values `val` (R621 to R624, R626): the decisions that the encoder
makes of them, the writes, and the predictors and contexts after. `val 0` is the DC difference, or the bit of a DC
refinement; in an AC refinement `val k` is not 0 where a coefficient is corrected or becomes nonzero. -/
inductive State.ArithBlock (s : State) : Nat → Entropy → List (BinOperand × Bool) → List (Nat × Coef) → Entropy → Prop
  | sequential {b : Nat} {e : Entropy} {val : Nat → Int} (hm : s.scan.mode = .ariSeq) (hv : ∀ k ≤ 63, fits (val k)) :
      s.ArithBlock b e (s.dcDecisionsOf e b (val 0) ++ s.acDecisionsOf b 1 63 val)
        (s.dcWrite (s.afterDcDiff e b (val 0)) b 0 :: bandWrites b 1 63 0 val) (s.afterDcDiff e b (val 0))
  | dcFirst {b : Nat} {e : Entropy} {d : Int} (hm : s.scan.mode = .ariDcFirst) (hv : fits d) :
      s.ArithBlock b e (s.dcDecisionsOf e b d) [s.dcWrite (s.afterDcDiff e b d) b s.scan.al] (s.afterDcDiff e b d)
  | acFirst {b : Nat} {e : Entropy} {val : Nat → Int} (hm : s.scan.mode = .ariAcFirst)
      (hv : ∀ k ≤ s.scan.se, fits (val k)) :
      s.ArithBlock b e (s.acDecisionsOf b s.scan.ss s.scan.se val)
        (bandWrites b s.scan.ss s.scan.se s.scan.al val) e
  | dcRefine {b : Nat} {e : Entropy} {bit : Bool} (hm : s.scan.mode = .ariDcRefine) :
      s.ArithBlock b e [(.fixed, bit)]
        (if bit then [(b * 64, Cells.read 0 s.mcubuf (b * 64) ||| BitVec.ofNat 16 (2 ^ s.scan.al))] else []) e
  | acRefine {b : Nat} {e : Entropy} {val : Nat → Int} (hm : s.scan.mode = .ariAcRefine) :
      s.ArithBlock b e
        (refineDecisions (s.acTableOf b) s.scan.ss s.scan.se (lastWith (fun k => s.mcuCoef b k ≠ 0) s.scan.se)
          (fun k => decide (s.mcuCoef b k ≠ 0)) val)
        (s.refineWrites b val) e

/-- The band of AC values that block `b` codes, from `ss` to `se` and shifted by `al`, after the DC part `head` of a
sequential scan with its write and the predictors after it (R621, R623). -/
inductive State.ArithBand (s : State) (b : Nat) (e : Entropy) (val : Nat → Int) :
    Nat → Nat → Nat → List (BinOperand × Bool) → List (Nat × Coef) → Entropy → Prop
  | sequential (hm : s.scan.mode = .ariSeq) (h0 : fits (val 0)) :
      s.ArithBand b e val 1 63 0 (s.dcDecisionsOf e b (val 0)) [s.dcWrite (s.afterDcDiff e b (val 0)) b 0]
        (s.afterDcDiff e b (val 0))
  | acFirst (hm : s.scan.mode = .ariAcFirst) : s.ArithBand b e val s.scan.ss s.scan.se s.scan.al [] [] e

/-- Block `b` runs into an overflow of the arithmetic decoder (R612, R616, R618, R626, R630): the decisions up to it, the
writes before it, and the predictors and contexts then. A DC difference or an AC value is too large at the 15th decision
of its magnitude's size; a run of zeros passes the end of the band. -/
inductive State.ArithOverflow (s : State) : Nat → Entropy → List (BinOperand × Bool) → List (Nat × Coef) → Entropy → Prop
  | difference {b : Nat} {e : Entropy} {d : Int} (hm : s.scan.mode = .ariSeq ∨ s.scan.mode = .ariDcFirst)
      (hd : ¬fits d) : s.ArithOverflow b e ((s.dcDecisionsOf e b d).take 18) [] e
  | value {b k ss se al : Nat} {e u : Entropy} {val : Nat → Int} {head : List (BinOperand × Bool)}
      {w : List (Nat × Coef)} (hb : s.ArithBand b e val ss se al head w u) (hk : ss ≤ k) (hk' : k ≤ se)
      (hv : ∀ j < k, fits (val j)) (hbig : ¬fits (val k)) :
      s.ArithOverflow b e
        (head ++ (indexes ss (k - 1)).flatMap (s.acIndexOf b ss val) ++ notTheEnd (s.acTableOf b) ss val k ++
          nonzeroHead (signOperand s.cfg (s.acTableOf b)) (s.acTableOf b) k (val k) ++
          (acMagnitude (s.acTableOf b) (s.regs.condK (s.acTableOf b)) k (val k).natAbs).take 16)
        (w ++ bandWrites b ss (k - 1) al val) u
  | run {b ss se al : Nat} {e u : Entropy} {val : Nat → Int} {head : List (BinOperand × Bool)}
      {w : List (Nat × Coef)} (hb : s.ArithBand b e val ss se al head w u) (hs : ss ≤ se)
      (hv : ∀ j ≤ se, fits (val j)) (hz : val se = 0) :
      s.ArithOverflow b e (head ++ (indexes ss se).flatMap (s.acIndexOf b ss val)) (w ++ bandWrites b ss se al val) u
  | refineRun {b : Nat} {e : Entropy} {val : Nat → Int} (hm : s.scan.mode = .ariAcRefine) (hs : s.scan.ss ≤ s.scan.se)
      (hw : s.mcuCoef b s.scan.se = 0) (hz : val s.scan.se = 0) :
      s.ArithOverflow b e
        ((indexes s.scan.ss s.scan.se).flatMap (refineIndex (s.acTableOf b) s.scan.ss
          (lastWith (fun k => s.mcuCoef b k ≠ 0) s.scan.se) (fun k => decide (s.mcuCoef b k ≠ 0)) val))
        (s.refineWrites b val) e

/-! ## Huffman-coded data (`42_huffman_entropy.md` R501 to R523) -/

/-- A piece of Huffman-coded data: the code of a symbol, or the low `n` bits of `v`; and what the codec does between
pieces: a check that raises a fault, a warning. -/
inductive HuffItem where
  | symbol (cls : TableClass) (slot sym : Nat)
  | bits (n v : Nat)
  | check (ok : Bool) (code : FaultCode)
  | warning (w : Warning)
  deriving DecidableEq, Repr

/-- The bits of an item, by the encoder tables. -/
def State.itemBits (s : State) : HuffItem → List Bool
  | .symbol cls slot sym =>
    msbFirst (Cells.read 0 (s.derived cls slot).ehufsi sym).toNat (Cells.read 0 (s.derived cls slot).ehufco sym).toNat
  | .bits n v => msbFirst n v
  | .check _ _ => []
  | .warning _ => []

/-- The fault an item raises in the encoder: its check fails, or its symbol has no code (`41_huffman_tables.md` R430,
R431). -/
def State.itemFault (s : State) : HuffItem → Option FaultCode
  | .symbol cls slot sym => if Cells.read 0 (s.derived cls slot).ehufsi sym = 0 then some .huffMissingCode else none
  | .bits _ _ => none
  | .check ok code => if ok then none else some code
  | .warning _ => none

/-- `cat(v)`: the least `n` with |v| < 2^n (`30_encoding.md` R254). -/
def category (v : Int) : Nat := if v = 0 then 0 else Nat.log2 v.natAbs + 1

/-- The extra bits of a value: a positive value itself, of a negative one the complement of its magnitude (R501). -/
def extraBits (v : Int) : Nat := if 0 ≤ v then v.natAbs else 2 ^ category v - 1 - v.natAbs

/-- The value that `n` extra bits give (`41_huffman_tables.md` R423). -/
def extraValue (n x : Nat) : Int := if n = 0 then 0 else if x < 2 ^ (n - 1) then (x : Int) + 1 - 2 ^ n else x

/-- A DC difference, encoded (R508, R511). -/
def dcItems (slot : Nat) (d : Int) : List HuffItem :=
  [.check (decide (category d ≤ 11)) .badDctCoef, .symbol .dc slot (category d)] ++
    if d = 0 then [] else [.bits (category d) (extraBits d)]

/-- A nonzero AC value after `r` zeros, encoded (R508, R517). -/
def valueItems (slot r : Nat) (v : Int) : List HuffItem :=
  List.replicate (r / 16) (.symbol .ac slot 0xF0) ++
    [.check (decide (category v ≤ 10)) .badDctCoef, .symbol .ac slot (r % 16 * 16 + category v),
      .bits (category v) (extraBits v)]

/-- How many zeros stand in the band right before index `k`. -/
def zerosBefore (ss : Nat) (val : Nat → Int) (k : Nat) : Nat :=
  ((List.range (k - ss)).takeWhile fun i => val (k - 1 - i) = 0).length

/-- The nonzero values of a band, encoded (R508, R517). -/
def bandItems (slot ss se : Nat) (val : Nat → Int) : List HuffItem :=
  (indexes ss se).flatMap fun k => if val k = 0 then [] else valueItems slot (zerosBefore ss val k) (val k)

/-- A pending end-of-band run with its correction bits, encoded (R516). -/
def runItems (slot run : Nat) (corrections : List Bool) : List HuffItem :=
  if run = 0 then []
  else
    [.check (decide (run ≤ 0x7FFF)) .huffMissingCode, .symbol .ac slot (Nat.log2 run * 16)] ++
      (if run = 1 then [] else [.bits (Nat.log2 run) run]) ++ corrections.map fun x => .bits 1 x.toNat

/-- Bits, one item each. -/
def bitItems (l : List Bool) : List HuffItem := l.map fun x => .bits 1 x.toNat

/-- The band of an AC refinement up to `eob`, its last new coefficient, encoded (R523), with the zeros counted and the
correction bits held after it. -/
def refineItems (slot eob : Nat) (a : Nat → Nat) (neg : Nat → Bool) :
    List Nat → Nat → List Bool → List HuffItem × Nat × List Bool
  | [], r, held => ([], r, held)
  | k :: ks, r, held =>
    if a k = 0 then refineItems slot eob a neg ks (r + 1) held
    else
      let zrls := if k ≤ eob then r / 16 else 0
      let out := if zrls = 0 then []
        else .symbol .ac slot 0xF0 :: bitItems held ++ List.replicate (zrls - 1) (.symbol .ac slot 0xF0)
      let held := if zrls = 0 then held else []
      let r := r - 16 * zrls
      if 1 < a k then
        let t := refineItems slot eob a neg ks r (held ++ [decide (a k % 2 = 1)])
        (out ++ t.1, t.2)
      else
        let t := refineItems slot eob a neg ks 0 []
        (out ++ [.symbol .ac slot (r * 16 + 1), .bits 1 (if neg k then 0 else 1)] ++ bitItems held ++ t.1, t.2)

/-- The end of an AC block (R517, R523): the pending run goes out before what the block codes; where the block leaves
zeros or correction bits, it joins the run, which goes out when it is full or holds too many correction bits. -/
def Entropy.afterBand (e : Entropy) (slot maxBits : Nat) (coded : List HuffItem) (joins : Bool) (held : List Bool) :
    List HuffItem × Entropy :=
  let out := if coded = [] then [] else runItems slot e.eobrun e.bitBuffer ++ coded
  let m : Entropy := if coded = [] ∨ e.eobrun = 0 then e else { e with eobrun := 0, bitBuffer := [] }
  let u : Entropy := { m with eobrun := m.eobrun + 1, bitBuffer := m.bitBuffer ++ held }
  if joins = false then (out, m)
  else if u.eobrun = 0x7FFF ∨ maxBits < u.bitBuffer.length then
    (out ++ runItems slot u.eobrun u.bitBuffer, { u with eobrun := 0, bitBuffer := [] })
  else (out, u)

/-- Block `b` of `MCUBUF` encoded in the scan's Huffman mode, and the predictors, the run and the correction bits after
it (R508, R511, R517, R520, R523). -/
def State.huffItems (s : State) (e : Entropy) (b : Nat) : List HuffItem × Entropy :=
  let ci := s.scan.membership.getD b 0
  let act := (s.scan.comp 0).acTbl
  let ss := s.scan.ss
  let se := s.scan.se
  let c := fun k => (s.mcuCoef b k).toInt
  let a := fun k => (c k).natAbs / 2 ^ s.scan.al
  match s.scan.mode with
  | .hufSeq =>
    (dcItems (s.dcTableOf b) (c 0 - e.dc ci) ++ bandItems (s.acTableOf b) 1 63 c ++
      (if c 63 = 0 then [.symbol .ac (s.acTableOf b) 0] else []), e.withDc ci (c 0))
  | .hufDcFirst => (dcItems (s.dcTableOf b) (c 0 / 2 ^ s.scan.al - e.dc ci), e.withDc ci (c 0 / 2 ^ s.scan.al))
  | .hufDcRefine => ([.bits 1 (c 0 / 2 ^ s.scan.al % 2).toNat], e)
  | .hufAcFirst =>
    e.afterBand act e.bitBuffer.length (bandItems act ss se fun k => (c k).sign * (a k : Int))
      (decide (ss ≤ se ∧ a se = 0)) []
  | .hufAcRefine =>
    let eob := ((indexes ss se).filter fun k => a k = 1).getLastD 0
    let t := refineItems act eob a (fun k => decide (c k < 0)) (indexes ss se) 0 []
    e.afterBand act 937 t.1 (decide (0 < t.2.1 ∨ t.2.2 ≠ [])) t.2.2
  | _ => ([], e)

/-- The MCU encoded, and the predictors, the run and the correction bits after it. -/
def State.mcuItems (s : State) : List HuffItem × Entropy :=
  (List.range s.scan.blocksInMcu).foldl
    (fun r b => (r.1 ++ (s.huffItems r.2 b).1, (s.huffItems r.2 b).2)) ([], s.ent)

/-- `HT_DECODE` and `HT_GETBITS` return the items, one after the other; warnings are raised between them. -/
inductive Reads : State → List HuffItem → State → Prop
  | nil {s : State} : Reads s [] s
  | symbol {s t u : State} {cls : TableClass} {slot sym : Nat} {is : List HuffItem}
      (h : exec (.htDecode cls slot) s = .next t) (hf : t.status.fault = none) (hk : t.status.resultKind = .done)
      (hv : sym < 2 ^ 32) (hr : t.status.result = BitVec.ofNat 32 sym) (ht : Reads t is u) :
      Reads s (.symbol cls slot sym :: is) u
  | bits {s t u : State} {n v : Nat} {is : List HuffItem} (h : exec (.htGetbits n) s = .next t)
      (hf : t.status.fault = none) (hk : t.status.resultKind = .done) (hv : v < 2 ^ 32)
      (hr : t.status.result = BitVec.ofNat 32 v) (ht : Reads t is u) : Reads s (.bits n v :: is) u
  | warning {s u : State} {w : Warning} {is : List HuffItem} (ht : Reads (s.warned w) is u) :
      Reads s (.warning w :: is) u

/-- The command that reads an item. -/
def HuffItem.reader : HuffItem → Option Instr
  | .symbol cls slot _ => some (.htDecode cls slot)
  | .bits n _ => some (.htGetbits n)
  | .check _ _ => none
  | .warning _ => none

/-- A symbol and its `n` extra bits `x`; no bits are read for 0. -/
def withExtra (symbol : HuffItem) (n x : Nat) : List HuffItem := symbol :: if n = 0 then [] else [.bits n x]

/-- The band from index `k` to `se` as a sequential or AC-first scan decodes it (R507, R515): values `r` zeros on, ZRLs,
and the end of the band; the writes as index and value; and the end-of-band run it starts, with this block, or 0. -/
inductive HuffBand (slot se al : Nat) (progressive : Bool) :
    Nat → List HuffItem → List (Nat × Coef) → Nat → Prop
  | full {k : Nat} (h : se < k) : HuffBand slot se al progressive k [] [] 0
  | value {k r n x run : Nat} {is : List HuffItem} {ws : List (Nat × Coef)} (hk : k ≤ se) (hr : r ≤ 15) (hn : 1 ≤ n)
      (hn' : n ≤ 15) (ht : HuffBand slot se al progressive (k + r + 1) is ws run) :
      HuffBand slot se al progressive k (withExtra (.symbol .ac slot (r * 16 + n)) n x ++ is)
        ((k + r, BitVec.ofInt 16 (extraValue n x * 2 ^ al)) :: ws) run
  | zrl {k run : Nat} {is : List HuffItem} {ws : List (Nat × Coef)} (hk : k ≤ se)
      (ht : HuffBand slot se al progressive (k + 16) is ws run) :
      HuffBand slot se al progressive k (.symbol .ac slot 0xF0 :: is) ws run
  | stop {k r x : Nat} (hk : k ≤ se) (hr : r ≤ 14) :
      HuffBand slot se al progressive k
        (if progressive then withExtra (.symbol .ac slot (r * 16)) r x else [.symbol .ac slot (r * 16)]) []
        (if progressive = false then 0 else if r = 0 then 1 else 2 ^ r + x)

/-- Where a refinement ends that passes `r` zeros of the band from index `k` on (R522): at the next zero, or after the
band. -/
def passTo (old : Nat → Coef) (se r k : Nat) : Nat := ((indexes k se).filter fun j => old j = 0).getD r (se + 1)

/-- The indexes from `k` to before `z` that hold a nonzero coefficient: a correction bit is read for each. -/
def nonzeros (old : Nat → Coef) (k z : Nat) : List Nat :=
  (List.range z).filter fun j => decide (k ≤ j) && decide (old j ≠ 0)

/-- Their correction bits, and the writes of those corrected: where the bit `al` is 0. -/
def correctionItems (old : Nat → Coef) (bit : Nat → Bool) (k z : Nat) : List HuffItem :=
  (nonzeros old k z).map fun j => .bits 1 (bit j).toNat
def correctionWrites (old : Nat → Coef) (bit : Nat → Bool) (al k z : Nat) : List (Nat × Coef) :=
  ((nonzeros old k z).filter fun j => bit j && !(old j).getLsbD al).map fun j => (j, corrected al (old j))

/-- The band from index `k` on as an AC refinement decodes it while no run is pending (R522): new coefficients `r` zeros
on, ZRLs, and the start of a run; the index it stops at, and the run, with this block, or 0. -/
inductive HuffRefine (slot se al : Nat) (old : Nat → Coef) (bit : Nat → Bool) :
    Nat → List HuffItem → List (Nat × Coef) → Nat → Nat → Prop
  | full {k : Nat} (h : se < k) : HuffRefine slot se al old bit k [] [] k 0
  | value {k r n z stop run : Nat} {pos : Bool} {is : List HuffItem} {ws : List (Nat × Coef)} (hk : k ≤ se)
      (hr : r ≤ 15) (hn : 1 ≤ n) (hn' : n ≤ 15) (hz : z = passTo old se r k)
      (ht : HuffRefine slot se al old bit (z + 1) is ws stop run) :
      HuffRefine slot se al old bit k
        (.symbol .ac slot (r * 16 + n) :: (if n = 1 then [] else [.warning .huffBadCode]) ++ [.bits 1 pos.toNat] ++
          correctionItems old bit k z ++ is)
        (correctionWrites old bit al k z ++ (z, BitVec.ofInt 16 (if pos then 2 ^ al else -(2 ^ al))) :: ws) stop run
  | zrl {k z stop run : Nat} {is : List HuffItem} {ws : List (Nat × Coef)} (hk : k ≤ se) (hz : z = passTo old se 15 k)
      (ht : HuffRefine slot se al old bit (z + 1) is ws stop run) :
      HuffRefine slot se al old bit k (.symbol .ac slot 0xF0 :: correctionItems old bit k z ++ is)
        (correctionWrites old bit al k z ++ ws) stop run
  | stop {k r x : Nat} (hk : k ≤ se) (hr : r ≤ 14) :
      HuffRefine slot se al old bit k (withExtra (.symbol .ac slot (r * 16)) r x) [] k
        (if r = 0 then 1 else 2 ^ r + x)

/-- Writes to a block by zigzag index, as writes to `MCUBUF`. -/
def blockWrites (b : Nat) (ws : List (Nat × Coef)) : List (Nat × Coef) :=
  ws.map fun w => (b * 64 + naturalOrder w.1, w.2)

/-- Block `b` decoded in the scan's Huffman mode (R507, R510, R515, R520, R522): the items read, the writes, and the
predictors and the run after. -/
inductive State.HuffBlock (s : State) : Nat → Entropy → List HuffItem → List (Nat × Coef) → Entropy → Prop
  | sequential {b n x : Nat} {e u : Entropy} {is : List HuffItem} {ws : List (Nat × Coef)} (hm : s.scan.mode = .hufSeq)
      (hu : u = e.withDc (s.scan.membership.getD b 0) (e.dc (s.scan.membership.getD b 0) + extraValue n x))
      (hb : HuffBand (s.acTableOf b) 63 0 false 1 is ws 0) :
      s.HuffBlock b e (withExtra (.symbol .dc (s.dcTableOf b) n) n x ++ is) (s.dcWrite u b 0 :: blockWrites b ws) u
  | dcFirst {b n x : Nat} {e u : Entropy} (hm : s.scan.mode = .hufDcFirst)
      (hu : u = e.withDc (s.scan.membership.getD b 0) (e.dc (s.scan.membership.getD b 0) + extraValue n x)) :
      s.HuffBlock b e (withExtra (.symbol .dc (s.dcTableOf b) n) n x) [s.dcWrite u b s.scan.al] u
  | dcRefine {b : Nat} {e : Entropy} {bit : Bool} (hm : s.scan.mode = .hufDcRefine) :
      s.HuffBlock b e [.bits 1 bit.toNat]
        (if bit then [(b * 64, Cells.read 0 s.mcubuf (b * 64) ||| BitVec.ofNat 16 (2 ^ s.scan.al))] else []) e
  | acFirst {b run : Nat} {e : Entropy} {is : List HuffItem} {ws : List (Nat × Coef)} (hm : s.scan.mode = .hufAcFirst)
      (he : e.eobrun = 0) (hb : HuffBand (s.scan.comp 0).acTbl s.scan.se s.scan.al true s.scan.ss is ws run) :
      s.HuffBlock b e is (blockWrites b ws) { e with eobrun := run - 1 }
  | acFirstRun {b : Nat} {e : Entropy} (hm : s.scan.mode = .hufAcFirst) (he : 0 < e.eobrun) :
      s.HuffBlock b e [] [] { e with eobrun := e.eobrun - 1 }
  | acRefine {b stop run : Nat} {e : Entropy} {bit : Nat → Bool} {is : List HuffItem} {ws : List (Nat × Coef)}
      (hm : s.scan.mode = .hufAcRefine) (he : e.eobrun = 0)
      (hb : HuffRefine (s.scan.comp 0).acTbl s.scan.se s.scan.al (s.mcuCoef b) bit s.scan.ss is ws stop run) :
      s.HuffBlock b e (is ++ correctionItems (s.mcuCoef b) bit stop (s.scan.se + 1))
        (blockWrites b (ws ++ correctionWrites (s.mcuCoef b) bit s.scan.al stop (s.scan.se + 1)))
        { e with eobrun := run - 1 }
  | acRefineRun {b : Nat} {e : Entropy} {bit : Nat → Bool} (hm : s.scan.mode = .hufAcRefine) (he : 0 < e.eobrun) :
      s.HuffBlock b e (correctionItems (s.mcuCoef b) bit s.scan.ss (s.scan.se + 1))
        (blockWrites b (correctionWrites (s.mcuCoef b) bit s.scan.al s.scan.ss (s.scan.se + 1)))
        { e with eobrun := e.eobrun - 1 }

/-! ## Rows of MCUs (`44_coef_controller.md` R705, R710, R715) -/

/-- The MCUs left in the iMCU row, as MCU row and MCU column, in order (R715). -/
def State.mcusLeft (s : State) : List (Nat × Nat) :=
  (List.range (s.ctl.mcuRowsPerImcu - s.ctl.mcuVert)).flatMap fun j =>
    (List.range (s.scan.mcusPerRow - if j = 0 then s.ctl.mcuCtr else 0)).map fun i =>
      (s.ctl.mcuVert + j, (if j = 0 then s.ctl.mcuCtr else 0) + i)

/-- The block at place `p` of the MCU is no dummy block, so that it is sent (R706, R710). -/
abbrev State.sends (s : State) (m : Nat × Nat) (p : McuPlace) : Prop :=
  (p.x < if m.2 + 1 = s.scan.mcusPerRow then (s.scan.comp p.ci).lastColWidth else (s.scan.comp p.ci).mcuWidth) ∧
    (s.ctl.inputRow + 1 < s.image.totalRows ∨ m.1 + p.y < (s.scan.comp p.ci).lastRowHeight)

/-- The IDCT records of the MCU `m` whose block `b` has the coefficients `coefs b` (R710). -/
def State.mcuRecords (s : State) (m : Nat × Nat) (coefs : Nat → List Coef) : List IdctRecord :=
  (s.scan.places.zipIdx.filter fun pb => decide (s.sends m pb.1)).map fun (p, b) =>
    { comp := (s.scan.comp p.ci).comp
      row := s.ctl.inputRow * (s.image.comp (s.scan.comp p.ci).comp).vSamp + m.1 + p.y
      col := m.2 * (s.scan.comp p.ci).mcuWidth + p.x
      coefs := coefs b }

/-- The IDCT records of an MCU whose blocks are all zero. -/
def State.zeroRecords (s : State) (m : Nat × Nat) : List IdctRecord := s.mcuRecords m fun _ => List.replicate 64 0

/-- The state with the scratch blocks of the MCU zero (R710). -/
def State.scratchCleared (s : State) : State := { s with mcubuf := Cells.clear s.mcubuf 0 (64 * s.scan.blocksInMcu) }

/-- The state after the MCU that `DECODE_MCU` left in `u`: its records sent, and the next MCU (R710, R715). -/
def State.mcuSent (s u : State) : State :=
  { u with
    idctPort := s.idctPort ++ s.mcuRecords (s.ctl.mcuVert, s.ctl.mcuCtr) fun b =>
      (List.range 64).map fun p => Cells.read 0 u.mcubuf (b * 64 + p)
    ctl := { s.ctl with mcuCtr := s.ctl.mcuCtr + 1 } }

/-- The state after the last MCU of an iMCU row, and after that of a scan (R704, R715, R722; log 16). -/
def State.rowDone (s : State) : State :=
  let c := { s.ctl with
    inputRow := s.ctl.inputRow + 1
    outputRow := if s.ctl.mode = .singlePass then s.ctl.outputRow + 1 else s.ctl.outputRow }
  if s.ctl.inputRow + 1 < s.image.totalRows then
    State.ended .rowCompleted .none
      { s with
        ctl := { c with
          mcuCtr := 0, mcuVert := 0
          mcuRowsPerImcu :=
            if 1 < s.scan.compsInScan then 1
            else if s.ctl.inputRow + 2 < s.image.totalRows then (s.image.comp (s.scan.comp 0).comp).vSamp
            else (s.scan.comp 0).lastRowHeight } }
  else
    State.ended .scanCompleted .none
      { s with
        ctl := c
        scan := { s.scan with active := false, mode := .none }
        ent := { s.ent with getBuffer := 0, bitsLeft := 0 } }

/-! ## Output passes (`44_coef_controller.md` R725 to R734) -/

/-- What R730 asks of component `c`. -/
def Image.smoothes (m : Image) (c : Nat) : Prop :=
  (m.comp c).qLatched = true ∧ (∀ p ∈ [0, 1, 8, 16, 9, 2], Cells.read 0 (m.comp c).qtab p ≠ 0) ∧
    0 ≤ Cells.read (-1) (m.comp c).coefBits 0

/-- The pass that starts smooths (R725, R730). -/
def State.passSmoothes (s : State) : Prop :=
  cfgSmooth s.regs.imgCfg = true ∧ s.image.prog = true ∧ (∀ c < s.image.components, s.image.smoothes c) ∧
    ∃ c < s.image.components, ∃ k, 1 ≤ k ∧ k ≤ 5 ∧ Cells.read (-1) (s.image.comp c).coefBits k ≠ 0

/-- `coef_bits_latch[c]` is taken from `coef_bits[c]` when the pass starts (R730). -/
def State.passLatches (s : State) (c : Nat) : Prop :=
  cfgSmooth s.regs.imgCfg = true ∧ s.image.prog = true ∧ c < s.image.components ∧ ∀ d ≤ c, s.image.smoothes d

/-- The scan a pass shows (R725). -/
def State.passScan (s : State) : Nat :=
  let n := max (bits s.regs.outScan 0 16) 1
  if s.image.eoiReached = true ∧ s.image.inputScanNumber.toNat < n then s.image.inputScanNumber.toNat else n

/-- The output row needs no more input (R727 without smoothing, R731 with it). -/
def State.rowReady (s : State) : Prop :=
  s.ctl.outputScan.toNat < s.image.inputScanNumber.toNat ∨
    s.ctl.smoothing = true ∧ s.image.eoiReached = true ∨
    s.ctl.outputScan = s.image.inputScanNumber ∧
      s.ctl.outputRow + (if s.ctl.smoothing = true ∧ s.ctl.inputSs = 0 then 1 else 0) < s.ctl.inputRow

/-- The blocks of the output row as component, block row and block column, in the order of R728. -/
def State.rowBlocks (s : State) : List (Nat × Nat × Nat) :=
  (List.range s.image.components).flatMap fun c =>
    (List.range (if s.ctl.outputRow + 1 < s.image.totalRows then (s.image.comp c).vSamp
      else modOrAll (s.image.comp c).heightInBlocks (s.image.comp c).vSamp)).flatMap fun j =>
      (List.range (s.image.comp c).widthInBlocks).map fun x => (c, s.ctl.outputRow * (s.image.comp c).vSamp + j, x)

/-- The block of `COEF` that holds block (r, x) of component `c` (`20_memory.md` R160). -/
def Image.blockAt (m : Image) (b : Nat × Nat × Nat) : Nat :=
  ((List.range b.1).map fun c =>
    roundUp (m.comp c).heightInBlocks (m.comp c).vSamp * roundUp (m.comp c).widthInBlocks (m.comp c).hSamp).sum +
    b.2.1 * roundUp (m.comp b.1).widthInBlocks (m.comp b.1).hSamp + b.2.2

/-- The blocks of `COEF` that the MCU at the input side covers, in MCU order (R705, R711). -/
def State.mcuBlocks (s : State) : List Nat :=
  s.scan.places.map fun p =>
    let x := s.scan.comp p.ci
    s.image.blockAt (x.comp, s.ctl.inputRow * (s.image.comp x.comp).vSamp + s.ctl.mcuVert + p.y,
      s.ctl.mcuCtr * x.mcuWidth + p.x)

/-- The elements of the blocks of an MCU in `MCUBUF` beside those in `COEF` (R703, R705). -/
def State.mcuElements (s : State) : List (Nat × Nat) :=
  s.mcuBlocks.zipIdx.flatMap fun (n, b) => (List.range 64).map fun p => (b * 64 + p, n * 64 + p)

/-- The state with the blocks of `COEF` that the MCU covers standing in `MCUBUF`. -/
def State.blocksLoaded (s : State) : State :=
  { s with mcubuf := Cells.writes 0 s.mcubuf (s.mcuElements.map fun x => (x.1, Cells.read 0 s.coef x.2)) }

/-- The state `u` with the blocks of the MCU put back from `MCUBUF` to their places in `COEF` (R711). -/
def State.blocksStored (s u : State) : State :=
  { u with
    mcubuf := s.mcubuf
    coef := Cells.writes 0 s.coef (s.mcuElements.map fun x => (x.2, Cells.read 0 u.mcubuf x.1)) }

/-- Coefficient `p` of block (r, x) of component `c`, as `COEF` holds it. -/
def State.storedCoef (s : State) (b : Nat × Nat × Nat) (p : Nat) : Coef :=
  Cells.read 0 s.coef (s.image.blockAt b * 64 + p)

/-- The block row or column before (0), at (1) and after (2) number `k` of `n`, the edges replicated (R732). -/
def neighbour (n k i : Nat) : Nat := if i = 0 then k - 1 else if i = 1 then k else min (k + 1) (n - 1)

/-- The DC coefficients of block (r, x) of component `c` and its neighbours: row `i` and column `j` of 0..2 (R732). -/
def State.dcAround (s : State) (c r x i j : Nat) : Int :=
  (s.storedCoef (c, neighbour (s.image.comp c).heightInBlocks r i, neighbour (s.image.comp c).widthInBlocks x j) 0).toInt

/-- `num` of the estimate at natural position `p` (R732), and the index of its `coef_bits_latch`. -/
def State.estimateNum (s : State) (c r x p : Nat) : Int × Nat :=
  let q := ((Cells.read 0 (s.image.comp c).qtab 0).toNat : Int)
  let dc := s.dcAround c r x
  if p = 1 then (36 * q * (dc 1 0 - dc 1 2), 1)
  else if p = 8 then (36 * q * (dc 0 1 - dc 2 1), 2)
  else if p = 16 then (9 * q * (dc 0 1 + dc 2 1 - 2 * dc 1 1), 3)
  else if p = 9 then (5 * q * (dc 0 0 - dc 0 2 - dc 2 0 + dc 2 2), 4)
  else (9 * q * (dc 1 0 + dc 1 2 - 2 * dc 1 1), 5)

/-- The estimate at position `p` (R733): the rounded quotient, within the bits known. -/
def State.estimateAt (s : State) (c r x p : Nat) : Coef :=
  let q := (Cells.read 0 (s.image.comp c).qtab p).toNat
  let num := (s.estimateNum c r x p).1
  let al := Cells.read 0 s.ctl.coefBitsLatch (6 * c + (s.estimateNum c r x p).2)
  let size := (q * 128 + num.natAbs) / (q * 256)
  let size := if 0 < al then min size (2 ^ al.toNat - 1) else size
  BitVec.ofInt 16 (if num < 0 then -(size : Int) else size)

/-- Coefficient `p` of the block as a pass that smooths sends it (R732, R733): an estimate where the stored value is 0
and not fully known. -/
def State.smoothedCoef (s : State) (b : Nat × Nat × Nat) (p : Nat) : Coef :=
  if s.storedCoef b p = 0 ∧ p ∈ [1, 8, 16, 9, 2] ∧
      Cells.read 0 s.ctl.coefBitsLatch (6 * b.1 + (s.estimateNum b.1 b.2.1 b.2.2 p).2) ≠ 0 then
    s.estimateAt b.1 b.2.1 b.2.2 p
  else s.storedCoef b p

/-- `PRODUCE_OUTPUT` sends a row at once: the pass is active, the row is ready and its blocks lie in `COEF`. -/
def State.canProduce (s : State) : Prop :=
  s.status.fault = none ∧ Admits s .produceOutput ∧ s.rowReady ∧
    ∀ b ∈ s.rowBlocks, s.image.blockAt b < s.cfg.coefMemBlocks

/-! ## Host accesses (`10_state.md` §3, `20_memory.md` R150) -/

/-- The bits of a configuration register that are not reserved (`10_state.md` R54 to R61, R90, R91). -/
def configMask (a : Nat) : Option Word :=
  if a = 0x010 then some 0xFFFFFFFF
  else if a = 0x011 then some 0xFF
  else if a = 0x012 ∨ a = 0x014 ∨ a = 0x015 then some 0xFFFF
  else if a = 0x013 then some 0x7FFFFF
  else if a = 0x016 then some 0xFF
  else if a = 0x017 then some 0xF
  else if 0x020 ≤ a ∧ a ≤ 0x029 ∨ 0x030 ≤ a ∧ a ≤ 0x03F then some 0xFFFF
  else none

/-- The addresses `10_state.md` defines that the host reads but does not write. -/
def readOnlyCsr (a : Nat) : Prop :=
  a ≤ 0x007 ∨ 0x040 ≤ a ∧ a ≤ 0x059 ∨ 0x060 ≤ a ∧ a ≤ 0x06C

/-! ## Invariants -/

/-- The code lengths of an encoder table are those of a Huffman code (`41_huffman_tables.md` R404). -/
abbrev DerivedTable.sizesOk (t : DerivedTable) : Prop := ∀ c ∈ t.ehufsi, c.2.toNat ≤ 16

/-- Reserved fields of the configuration registers are 0 (`10_state.md` §3). -/
abbrev Regs.reservedZero (r : Regs) : Prop :=
  r.imgCfg.toNat < 2 ^ 8 ∧ r.restart.toNat < 2 ^ 16 ∧ r.scan.toNat < 2 ^ 23 ∧ r.scanComps.toNat < 2 ^ 16 ∧
    r.outScan.toNat < 2 ^ 16 ∧ r.hspecValid.toNat < 2 ^ 8 ∧ r.qtblValid.toNat < 2 ^ 4 ∧
    (∀ x ∈ r.compCfg.toList, x.toNat < 2 ^ 16) ∧ ∀ x ∈ r.arithCond.toList, x.toNat < 2 ^ 16

/-- The ranges the spec gives running state: the bit writer (`10_state.md` R77) and reader (`41_huffman_tables.md`
R421), `next_restart_num` (R81), `WARN_COUNT` (R65), reserved fields, and encoder code lengths. -/
abbrev State.rangesOk (s : State) : Prop :=
  s.ent.writerOk ∧ s.ent.bitsLeft ≤ 23 ∧ s.ent.nextRestart < 8 ∧ s.status.warnCount ≤ 0xFFFFFFFF ∧
    s.regs.reservedZero ∧ ∀ t ∈ s.dtbl.toList, DerivedTable.sizesOk t

/-- An active scan has a mode (`10_state.md` R72) and at most 10 blocks in an MCU, the blocks of
`44_coef_controller.md` R703, and `MCU_membership` names the scan component of each (R702). -/
abbrev State.scanShape (s : State) : Prop :=
  s.scan.active = true → s.scan.mode ≠ .none ∧ s.scan.blocksInMcu ≤ 10 ∧
    s.scan.places.length = s.scan.blocksInMcu ∧
    s.scan.places.map McuPlace.ci = (List.range s.scan.blocksInMcu).map fun b => s.scan.membership.getD b 0

end Sys2Proof.Machine

namespace Sys2Proof

open Machine

/-- The commands that write `RESULT` (`10_state.md` R66; `41_huffman_tables.md` R442, R443; log 24). -/
def Instr.writesResult (i : Instr) : Prop :=
  (∃ cls slot, i = .htDecode cls slot) ∨ (∃ n, i = .htGetbits n) ∨ ∃ bin, i = .arithDecode bin

/-- The commands of the controller that write `COEF` (`20_memory.md` R161). -/
def Instr.writesCoef (i : Instr) : Prop := i = .consumeInput ∨ i = .produceOutput

end Sys2Proof
end

