-- ==== Sys2Proof/Certificates/Slice0/Obligations.lean ====
section
/-! DEFINITION. The statements for the provers. Each docstring names the rules of the spec the statement formalises. -/

open Sys2Proof Sys2Proof.Machine

/-! ## Encoding (`30_encoding.md`) -/

/-- The decoder and the encoder are inverse: the word of a well-formed command decodes to it, and a word that decodes is
the word of the well-formed command it decodes to (R201 to R210). -/
def Obligations.DecodeEncodeInverse : Prop :=
  (∀ i : Instr, i.wf = true → decode (encode i) = .ok i) ∧
    ∀ (w : Word) (i : Instr), decode w = .ok i → i.wf = true ∧ encode i = w

/-- The four words R213 writes out decode to the commands it gives them. -/
def Obligations.SpecWords : Prop :=
  decode 0x10810000 = .ok (.htBuildDec .ac 1) ∧ decode 0x21430C01 = .ok (.arithEncode (.ac 3 12) true) ∧
    decode 0x24800000 = .ok (.arithDecode .fixed) ∧ decode 0x30800000 = .ok (.startScan .encode)

/-- Exactly the legal words decode, and any other word is `Fault(ILLEGAL_COMMAND)` without other effect (R201). -/
def Obligations.IllegalWords : Prop :=
  ∀ w : Word, (LegalWord w ↔ ∃ i, decode w = .ok i) ∧
    ∀ s : State, ¬LegalWord w → s.status.fault = none → issue w s = .next (s.faulted .illegalCommand)

/-- A step whose host operation writes a command word to `CMD` runs the command; the host's next step after
`withFetchWord` is such a step; a step of a host with nothing to do changes nothing. R200 says that the write issues the
command; the list of host operations, what `withFetchWord` loads and the step of an idle host are the model's choice
(log 1). -/
def Obligations.StepRunsCommand : Prop :=
  ∀ (s : State) (i : Instr),
    (∀ w rest, s.host = .csrWrite 0x008 w :: rest → decode w = .ok i → step s = exec i { s with host := rest }) ∧
    (∀ nbits w, decodeTableWord nbits w = some i → step (s.withFetchWord nbits w) = exec i s) ∧
    (s.host = [] → step s = .next s)

/-! ## Outcomes (`60_exceptions.md`) -/

/-- Every command is accepted in every state; it ends with a fault recorded and `RESULT_KIND` `DONE`, or with none and
`SUSPEND_CAUSE` 0 unless it is suspended (R900, R902, R907). -/
def Obligations.OutcomeShape : Prop :=
  ∀ (i : Instr) (s : State), (∀ r, exec i s ≠ .refused r) ∧
    ∀ t, s.status.fault = none → exec i s = .next t →
      (t.status.fault = none ∧ (t.status.resultKind = .suspended ∨ t.status.suspendCause = .none)) ∨
      (t.status.fault.isSome = true ∧ t.status.resultKind = .done ∧ t.status.suspendCause = .none)

/-- While a fault is pending every word but 0x01000000 changes nothing, 0x01000000 clears the fault, and an access that
is no command is refused only where it is refused without the fault (R903). -/
def Obligations.StickyFault : Prop :=
  ∀ s : State, s.status.fault.isSome = true →
    (∀ w : Word, w ≠ 0x01000000 → issue w s = .next s) ∧
    (∃ t, issue 0x01000000 s = .next t ∧ t.status.fault = none) ∧
    ∀ op r, (∀ v, op ≠ .csrWrite 0x008 v) →
      (hostAct op s = .refused r ↔ hostAct op { s with status := { s.status with fault := none } } = .refused r)

/-- A command in a state its rule does not admit is `Fault(BAD_STATE)`, and nothing else (`30_encoding.md` R211). -/
def Obligations.BadState : Prop :=
  ∀ (i : Instr) (s : State), s.status.fault = none → ¬Admits s i → exec i s = .next (s.faulted .badState)

/-- A suspended command of a single atomic step leaves the state as it was, its end recorded
(`45_scan_interface.md` R812). -/
def Obligations.SuspendedUndone : Prop :=
  ∀ (i : Instr) (s t : State), i ≠ .consumeInput → i ≠ .produceOutput → s.status.fault = none →
    exec i s = .next t → t.status.resultKind = .suspended → t = s.ended .suspended t.status.suspendCause

/-- What no command but `RESET` writes: `HSPEC`, `QTBL`, every configuration register but `OUT_SCAN` (written by `EOI`
and `START_OUTPUT_PASS`) and `ARITH_COND` (by `START_IMAGE`), and `RESULT` but for the commands that return one; input
leaves at the head, output is appended (`10_state.md` R66; `20_memory.md` R155, R162, R164, R165). R66 names `HT_DECODE`
and `ARITH_DECODE`; that `HT_GETBITS` writes `RESULT` too is log 24. The parameters, the host's operations, its reply and
its output space are the model's fields (logs 1, 2 and 3). -/
def Obligations.CommandFrame : Prop :=
  ∀ (i : Instr) (s t : State), i ≠ .reset → exec i s = .next t →
    t.cfg = s.cfg ∧ t.outCapacity = s.outCapacity ∧ t.host = s.host ∧ t.reply = s.reply ∧
    t.hspec = s.hspec ∧ t.qtbl = s.qtbl ∧
    t.regs = { s.regs with outScan := t.regs.outScan, arithCond := t.regs.arithCond } ∧
    (i ≠ .eoi → i ≠ .startOutputPass → t.regs.outScan = s.regs.outScan) ∧
    (i ≠ .startImage → t.regs.arithCond = s.regs.arithCond) ∧
    (¬i.writesResult → t.status.result = s.status.result) ∧
    t.inPort <:+ s.inPort ∧ s.outPort <+: t.outPort ∧ s.idctPort <+: t.idctPort

/-- No command but the decode commands of the controller writes `COEF`; `START_IMAGE` zeroes it and `RESET` leaves it
unspecified (`20_memory.md` R160, R161). -/
def Obligations.CoefWriters : Prop :=
  ∀ (i : Instr) (s t : State), ¬i.writesCoef → i ≠ .startImage → i ≠ .reset → exec i s = .next t → t.coef = s.coef

/-! ## Reset and `NOP` -/

/-- Power-on leaves the values of R950; `RESET` acts in every state and leaves them too; its word is 0x01000000 (R950,
R951, R952). That `RESET` keeps the parameters, the host's operations and reply and its output space is the model's choice
(logs 1, 2 and 3). -/
def Obligations.ResetState : Prop :=
  AtReset State.reset ∧ (∀ w, decode w = .ok .reset ↔ w = 0x01000000) ∧
  ∀ s : State, ∃ t, exec .reset s = .next t ∧ AtReset t ∧ t.cfg = s.cfg ∧ t.outCapacity = s.outCapacity ∧
    t.host = s.host ∧ t.reply = s.reply

/-- `NOP` sets `RESULT_KIND` to `DONE` and `SUSPEND_CAUSE` to 0 and does nothing else, in every state without a fault
(`45_scan_interface.md` R800). -/
def Obligations.NopEffect : Prop :=
  ∀ s : State, s.status.fault = none → exec .nop s = .next (s.ended .done .none)

/-! ## Huffman tables (`41_huffman_tables.md`) -/

/-- `HT_BUILD_DEC` writes `maxcode`, `valoffset` and `dval` of the slot's record by R402 and leaves its encoder half and
every other piece of state unchanged (R440). The lookahead cache it writes too is the subject of `LookaheadExact`. -/
def Obligations.BuildDecoder : Prop :=
  ∀ (s : State) (cls : TableClass) (t : Nat), s.idle → s.canBuild .decode cls t →
    ∃ d, exec (.htBuildDec cls t) s = .next ((s.withDerived cls t d).ended .done .none) ∧ d.dvalid = true ∧
      (∀ l, 1 ≤ l → l ≤ 16 → s.countOf cls t l = 0 →
        Cells.read 0 d.maxcode l = -1 ∧ Cells.read 0 d.valoffset l = 0) ∧
      (∀ l, 1 ≤ l → l ≤ 16 → 0 < s.countOf cls t l →
        Cells.read 0 d.maxcode l = BitVec.ofNat 32 (s.codeOf cls t (s.symbolsUpTo cls t l - 1)) ∧
        Cells.read 0 d.valoffset l = BitVec.ofInt 32 ((s.symbolsUpTo cls t (l - 1) : Int) -
          (s.codeOf cls t (s.symbolsUpTo cls t (l - 1)) : Int))) ∧
      Cells.read 0 d.maxcode 17 = 0xFFFFF ∧ (∀ p < 256, Cells.read 0 d.dval p = s.symbolOf cls t p) ∧
      d.evalid = (s.derived cls t).evalid ∧ d.ehufco = (s.derived cls t).ehufco ∧
      d.ehufsi = (s.derived cls t).ehufsi

/-- The lookahead cache a build leaves is exact: an 8-bit pattern that starts with a code of at most 8 bits gives its
length and symbol, any other the sentinel 0 (R403). -/
def Obligations.LookaheadExact : Prop :=
  ∀ (s u : State) (cls : TableClass) (t : Nat), s.idle → exec (.htBuildDec cls t) s = .next u →
    u.status.fault = none → ∀ w < 256,
      (∀ p < s.symbolCount cls t, s.codeSize cls t p ≤ 8 →
        w / 2 ^ (8 - s.codeSize cls t p) = s.codeOf cls t p →
        (Cells.read 0 (u.derived cls t).lookNbits w).toNat = s.codeSize cls t p ∧
        Cells.read 0 (u.derived cls t).lookSym w = s.symbolOf cls t p) ∧
      ((∀ p < s.symbolCount cls t, s.codeSize cls t p ≤ 8 →
        w / 2 ^ (8 - s.codeSize cls t p) ≠ s.codeOf cls t p) →
        Cells.read 0 (u.derived cls t).lookNbits w = 0)

/-- `HT_BUILD_ENC` gives every symbol of the specification its code and length and every other symbol length 0, and
leaves the decoder half of the record and every other piece of state unchanged (R404, R441). -/
def Obligations.BuildEncoder : Prop :=
  ∀ (s : State) (cls : TableClass) (t : Nat), s.idle → s.canBuild .encode cls t →
    ∃ d, exec (.htBuildEnc cls t) s = .next ((s.withDerived cls t d).ended .done .none) ∧ d.evalid = true ∧
      (∀ p < s.symbolCount cls t,
        (Cells.read 0 d.ehufco (s.symbolOf cls t p).toNat).toNat = s.codeOf cls t p ∧
        (Cells.read 0 d.ehufsi (s.symbolOf cls t p).toNat).toNat = s.codeSize cls t p) ∧
      (∀ x < 256, (∀ p < s.symbolCount cls t, (s.symbolOf cls t p).toNat ≠ x) →
        Cells.read 0 d.ehufco x = 0 ∧ Cells.read 0 d.ehufsi x = 0) ∧
      d.dvalid = (s.derived cls t).dvalid ∧ d.maxcode = (s.derived cls t).maxcode ∧
      d.valoffset = (s.derived cls t).valoffset ∧ d.lookNbits = (s.derived cls t).lookNbits ∧
      d.lookSym = (s.derived cls t).lookSym ∧ d.dval = (s.derived cls t).dval

/-- A build of a table that is absent is `NO_HUFF_TABLE`, of a malformed one `BAD_HUFF_TABLE`; `HT_DECODE` of a slot
above 3 or without a decoder table, and `HT_ENCODE` of one without an encoder table, is `NO_HUFF_TABLE`; every check
comes before the first write, so nothing else changes (R400, R401, R402, R404, R442, R444). -/
def Obligations.TableFaults : Prop :=
  ∀ (s : State) (cls : TableClass) (t : Nat), s.idle →
    (¬s.hasSpec cls t → exec (.htBuildDec cls t) s = .next (s.faulted .noHuffTable) ∧
      exec (.htBuildEnc cls t) s = .next (s.faulted .noHuffTable)) ∧
    (s.hasSpec cls t → ¬s.canBuild .decode cls t →
      exec (.htBuildDec cls t) s = .next (s.faulted .badHuffTable)) ∧
    (s.hasSpec cls t → ¬s.canBuild .encode cls t →
      exec (.htBuildEnc cls t) s = .next (s.faulted .badHuffTable)) ∧
    (3 < t ∨ (s.derived cls t).dvalid = false → exec (.htDecode cls t) s = .next (s.faulted .noHuffTable)) ∧
    ∀ x, 3 < t ∨ (s.derived cls t).evalid = false → exec (.htEncode cls t x) s = .next (s.faulted .noHuffTable)

/-! ## Bits (`41_huffman_tables.md` §2 to §4) -/

/-- A build leaves the decoder table of its specification (R402, R403). `HT_DECODE` with such a table takes a symbol's
code from the queue and the port and returns the symbol, on the fast and on the slow path, with zero bits past a marker
(R421, R422, R442); 17 bits that start with no code are dropped with `HUFF_BAD_CODE` and 0 is returned; where the port
ends before 8 bits or before a code, it suspends with cause 1, undone. -/
def Obligations.DecodeSymbol : Prop :=
  (∀ (s u : State) (cls : TableClass) (t : Nat), s.idle → exec (.htBuildDec cls t) s = .next u →
    u.status.fault = none → (u.derived cls t).decodes s cls t) ∧
  ∀ (h s : State) (cls : TableClass) (t : Nat), s.idle → t ≤ 3 → (s.derived cls t).decodes h cls t →
    (∀ (p v : Nat) (u : State), p < h.symbolCount cls t →
      GivesBits (max 8 (h.codeSize cls t p)) (h.codeSize cls t p) s v u → v = h.codeOf cls t p →
      exec (.htDecode cls t) s = .next (State.ended .done .none
        { u with status := { u.status with result := BitVec.ofNat 32 (h.symbolOf cls t p).toNat } })) ∧
    (∀ (v : Nat) (u : State), GivesBits 17 17 s v u →
      (∀ p < h.symbolCount cls t, v / 2 ^ (17 - h.codeSize cls t p) ≠ h.codeOf cls t p) →
      exec (.htDecode cls t) s = .next (State.ended .done .none
        { u.warned .huffBadCode with status := { (u.warned .huffBadCode).status with result := 0 } })) ∧
    ∀ bs : List Byte, s.runsOut bs → s.bitsWith bs < 17 →
      (s.bitsWith bs < 8 ∨ ∀ p < h.symbolCount cls t, h.codeSize cls t p ≤ s.bitsWith bs →
        s.firstBits bs (h.codeSize cls t p) ≠ h.codeOf cls t p) →
      exec (.htDecode cls t) s = .next (s.ended .suspended .inputEmpty)

/-- `HT_GETBITS` returns the next `N` bits of the queue, most significant first, after it took from the port only the
data bytes the queue lacked, each 0xFF with its stuffed 0x00 (R420, R421, R443). -/
def Obligations.GetbitsReads : Prop :=
  ∀ (s : State) (n : Nat) (bs rest : List Byte), s.idle → 1 ≤ n → n ≤ 16 → s.inPort = stuffed bs ++ rest →
    n ≤ s.ent.bitsLeft + 8 * bs.length →
    (bs ≠ [] → s.ent.unreadMarker = 0 ∧ s.ent.bitsLeft + 8 * bs.length < n + 8) →
    exec (.htGetbits n) s = .next (State.ended .done .none
      { s with
        inPort := rest
        ent := s.ent.readerAt (s.ent.getBuffer.toNat * 256 ^ bs.length + bytesValue bs)
          (s.ent.bitsLeft + 8 * bs.length) n
        status := { s.status with
          result := BitVec.ofNat 32 (headBits (s.ent.getBuffer.toNat * 256 ^ bs.length + bytesValue bs)
            (s.ent.bitsLeft + 8 * bs.length) n) } })

/-- `HT_GETBITS` past a marker supplies zero bits, sets `insufficient_data` and warns where it was clear; a marker it
meets in the port is taken from it first (R420, R421). -/
def Obligations.GetbitsAtMarker : Prop :=
  ∀ (s : State) (n : Nat), s.idle → n ≤ 16 → s.ent.bitsLeft < n →
    (s.ent.unreadMarker ≠ 0 → exec (.htGetbits n) s = .next (State.ended .done .none
      { s with
        ent := { s.ent with bitsLeft := 0, getBuffer := 0, insufficient := true }
        status := { s.status with
          result := BitVec.ofNat 32 (s.ent.getBuffer.toNat * 2 ^ (n - s.ent.bitsLeft) % 2 ^ n)
          warnCount := if s.ent.insufficient = true then s.status.warnCount
            else min (s.status.warnCount + 1) 0xFFFFFFFF
          warnLast := if s.ent.insufficient = true then s.status.warnLast else some .hitMarker } })) ∧
    (∀ (k : Nat) (m : Byte) (rest : List Byte), s.ent.unreadMarker = 0 → m ≠ 0 → m ≠ 0xFF →
      s.inPort = 0xFF :: (List.replicate k 0xFF ++ m :: rest) →
      exec (.htGetbits n) s =
        exec (.htGetbits n) { s with inPort := rest, ent := { s.ent with unreadMarker := m } })

/-- `HT_GETBITS` that finds too few bytes in the port suspends with `SUSPEND_CAUSE` 1 and changes nothing else: the
bytes it took are back and `RESULT` is as before (R443; `20_memory.md` R162, R163). -/
def Obligations.GetbitsSuspends : Prop :=
  ∀ (s : State) (n k : Nat) (bs : List Byte), s.idle → n ≤ 16 → s.ent.unreadMarker = 0 →
    s.inPort = stuffed bs ++ List.replicate k 0xFF → s.ent.bitsLeft + 8 * bs.length < n →
    exec (.htGetbits n) s = .next (s.ended .suspended .inputEmpty)

/-- `HT_PUTBITS` appends the low `N` bits of `VALUE`, most significant first, to the bits held back: the whole bytes go
out with 0xFF stuffed, the rest is held (R430, R445); without room for them it suspends with cause 2, undone
(`20_memory.md` R164). -/
def Obligations.PutbitsAppends : Prop :=
  ∀ (s : State) (n : Nat) (v : BitVec 16), s.idle → s.ent.writerOk → 1 ≤ n → n ≤ 16 →
    exec (.htPutbits n v) s =
      if s.roomFor (s.bytesOut (msbFirst n v.toNat)).length then
        .next ((s.wrote (msbFirst n v.toNat)).ended .done .none)
      else .next (s.ended .suspended .outputFull)

/-- `HT_ENCODE` appends the symbol's code as `HT_PUTBITS` appends bits; a symbol without a code is
`HUFF_MISSING_CODE`, and nothing else (R430, R431, R444). -/
def Obligations.EncodeAppends : Prop :=
  ∀ (s : State) (cls : TableClass) (t : Nat) (x : Byte), s.idle → s.rangesOk → t ≤ 3 →
    (s.derived cls t).evalid = true →
    (Cells.read 0 (s.derived cls t).ehufsi x.toNat = 0 →
      exec (.htEncode cls t x) s = .next (s.faulted .huffMissingCode)) ∧
    (Cells.read 0 (s.derived cls t).ehufsi x.toNat ≠ 0 →
      let code := msbFirst (Cells.read 0 (s.derived cls t).ehufsi x.toNat).toNat
        (Cells.read 0 (s.derived cls t).ehufco x.toNat).toNat
      exec (.htEncode cls t x) s =
        if s.roomFor (s.bytesOut code).length then .next ((s.wrote code).ended .done .none)
        else .next (s.ended .suspended .outputFull))

/-- `HT_FLUSH` fills the partial last byte with 1-bits and leaves no bit held (R432, R446). -/
def Obligations.FlushPads : Prop :=
  ∀ s : State, s.idle → s.ent.writerOk →
    exec .htFlush s =
      if s.roomFor (s.bytesOut (List.replicate 7 true)).length then
        .next (State.ended .done .none
          { s with
            outPort := s.outPort ++ s.bytesOut (List.replicate 7 true)
            ent := { s.ent with putBuffer := 0, putBits := 0 } })
      else .next (s.ended .suspended .outputFull)

/-- `HT_RESET_BITS` empties the bit reader and writer and clears `insufficient_data` and `unread_marker`, and nothing
else (R447). -/
def Obligations.ResetBits : Prop :=
  ∀ s : State, s.idle → exec .htResetBits s = .next (State.ended .done .none
    { s with
      ent := { s.ent with
        getBuffer := 0, bitsLeft := 0, putBuffer := 0, putBits := 0, insufficient := false, unreadMarker := 0 } })

/-! ## QM coder (`40_qm_coder.md`) -/

/-- `ARITH_ENC_INIT` and `ARITH_DEC_INIT` set the coder's registers, the latter clears `unread_marker`, and both set
`fixed_bin` by its mode; nothing else changes (R306, R310, R320, R350, R353). -/
def Obligations.CoderInit : Prop :=
  ∀ s : State, s.idle →
    exec .arithEncInit s = .next (State.ended .done .none
      { s with
        ent := { s.ent with
          c := 0, a := 0x10000, ct := 11, sc := 0, zc := 0, buffer := -1
          fixedBin := fixedBinAtStart s.cfg.fixedBinMode s.ent.fixedBin } }) ∧
    exec .arithDecInit s = .next (State.ended .done .none
      { s with
        ent := { s.ent with
          c := 0, a := 0, ct := -16, unreadMarker := 0
          fixedBin := fixedBinAtStart s.cfg.fixedBinMode s.ent.fixedBin } })

/-- `ARITH_ENCODE` codes the decision: an MPS whose interval stays at least 0x8000 only narrows the interval. Else the
interval is one of the two sub-intervals, chosen with the conditional exchange, doubled until it is at least 0x8000; the
bin moves as R303 says; the code register is doubled with it, and the bytes it moves go out as R312 says, with stuffing
and carries. Only the bin, the coder's registers and the output port's end change; without room for the bytes it suspends
with cause 2, undone (R303, R311, R312, R351). The counters `sc` and `zc` wrap at their width (log 8). -/
def Obligations.EncodeDecision : Prop :=
  ∀ (s : State) (x : BinOperand) (bit : Bool) (q : QeEntry), s.idle → s.ent.encoderOk →
    qeEntry s.cfg.fixedBinMode ((s.byteIn x).toNat % 128) = some q →
    let lps := bit != decide (128 ≤ (s.byteIn x).toNat)
    let rest := s.ent.a.toNat - q.qe.toNat
    let upper : Bool := if lps then decide (q.qe.toNat ≤ rest) else decide (rest < q.qe.toNat)
    let size := if upper then q.qe.toNat else rest
    let low := if upper then s.ent.c.toNat + rest else s.ent.c.toNat
    let moved := s.setByteIn x (nextByte (s.byteIn x) q lps)
    (lps = false → 0x8000 ≤ rest → exec (.arithEncode x bit) s = .next (State.ended .done .none
      { s.freshBin x with ent := { (s.freshBin x).ent with a := BitVec.ofNat 32 rest } })) ∧
    (lps = true ∨ rest < 0x8000 →
      ∃ (k : Nat) (out : List Byte) (e : Entropy), 1 ≤ k ∧ 0x8000 ≤ size * 2 ^ k ∧ size * 2 ^ k < 0x10000 ∧
        (k < s.ent.ct.toNat → out = [] ∧ e = { s.ent with
          c := BitVec.ofNat 32 (low * 2 ^ k), ct := BitVec.ofNat 32 (s.ent.ct.toNat - k) }) ∧
        (s.ent.countersLow → Doubles k { s.ent with c := BitVec.ofNat 32 low } out e) ∧
        exec (.arithEncode x bit) s =
          if s.roomFor out.length then
            .next (State.ended .done .none
              { moved with
                outPort := s.outPort ++ out
                ent := { moved.ent with
                  a := BitVec.ofNat 32 (size * 2 ^ k), c := e.c, ct := e.ct, sc := e.sc, zc := e.zc
                  buffer := e.buffer } })
          else .next (s.ended .suspended .outputFull))

/-- The encoder's registers keep the ranges of R313, and `C` stays below 2^28; `ARITH_ENC_INIT` and `ARITH_ENC_FLUSH`
establish them. -/
def Obligations.EncoderRegisters : Prop :=
  (∀ (s t : State) (x : BinOperand) (bit : Bool), s.ent.encoderOk → exec (.arithEncode x bit) s = .next t →
    t.status.fault = none → t.ent.encoderOk ∧ t.ent.c.toNat < 2 ^ 28) ∧
  (∀ (s t : State) (i : Instr), i = .arithEncInit ∨ i = .arithEncFlush → s.idle → exec i s = .next t →
    t.status.fault = none → t.status.resultKind = .done → t.ent.encoderOk ∧ t.ent.c.toNat < 2 ^ 28)

/-- Every 0xFF that the arithmetic encoder appends is followed at once by 0x00: in `ARITH_ENCODE` and `ARITH_ENC_FLUSH`,
and in `ENCODE_MCU` and `FINISH_SCAN` of an arithmetic scan, where only a restart marker that is due stands between the
bytes of two segments (R314). -/
def Obligations.EncoderStuffing : Prop :=
  (∀ (s t : State) (i : Instr), (i = .arithEncFlush ∨ ∃ x bit, i = .arithEncode x bit) → s.ent.encoderOk →
    exec i s = .next t → ∀ n, s.outPort.length ≤ n → t.outPort[n]? = some 0xFF → t.outPort[n + 1]? = some 0x00) ∧
  ∀ (s t : State) (i : Instr), i = .encodeMcu ∨ i = .finishScan → s.scan.dir = .encode → s.scan.mode.isArith →
    s.ent.encoderOk → s.ent.nextRestart < 8 → exec i s = .next t →
    StuffedFrom s.outPort.length t.outPort ∨
      s.restartDue ∧ ∃ a b, StuffedFrom 0 a ∧ StuffedFrom 0 b ∧ t.outPort = s.outPort ++ a ++ s.rstBytes ++ b

/-- `ARITH_ENC_FLUSH` ends the segment: it appends the bytes held back and those of the last code, without the zero
bytes at the end (R330), none right after an init, and leaves the registers as `arith_enc_init` does; nothing else
changes; without room it suspends with cause 2, undone (R330, R352). The counters `sc` and `zc` wrap at their width
(log 8). -/
def Obligations.EncoderFlush : Prop :=
  ∀ s : State, s.idle →
    ∃ out, (s.ent.c = 0 → s.ent.a = 0x10000 → s.ent.ct = 11 → s.ent.sc = 0 → s.ent.zc = 0 → s.ent.buffer = -1 →
        out = []) ∧
      (s.ent.encoderOk → s.ent.countersLow → out = s.ent.lastBytes) ∧
      exec .arithEncFlush s =
        if s.roomFor out.length then
          .next (State.ended .done .none
            { s with
              outPort := s.outPort ++ out
              ent := { s.ent with c := 0, a := 0x10000, ct := 11, sc := 0, zc := 0, buffer := -1 } })
        else .next (s.ended .suspended .outputFull)

/-- `ARITH_DECODE` with an interval of at least 0x8000 takes no input: the decision, the sub-interval it leaves, the
code register and the bin are those of R321, and `RESULT` is the decision (R303, R321, R354). -/
def Obligations.DecodeDecision : Prop :=
  ∀ (s : State) (x : BinOperand) (q : QeEntry), s.idle → 0x8000 ≤ s.ent.a.toNat → s.ent.a.toNat ≤ 0x10000 →
    s.ent.ct.toNat ≤ 7 → qeEntry s.cfg.fixedBinMode ((s.byteIn x).toNat % 128) = some q →
    let rest := s.ent.a.toNat - q.qe.toNat
    let upper := decide (rest * 2 ^ s.ent.ct.toNat ≤ s.ent.c.toNat)
    let lps := if upper then decide (q.qe.toNat ≤ rest) else decide (rest < q.qe.toNat)
    let moved := if upper = true ∨ rest < 0x8000 then s.setByteIn x (nextByte (s.byteIn x) q lps) else s.freshBin x
    exec (.arithDecode x) s = .next (State.ended .done .none
      { moved with
        ent := { moved.ent with
          a := BitVec.ofNat 32 (if upper then q.qe.toNat else rest)
          c := BitVec.ofNat 32 (if upper then s.ent.c.toNat - rest * 2 ^ s.ent.ct.toNat else s.ent.c.toNat) }
        status := { s.status with
          result := if decide (128 ≤ (s.byteIn x).toNat) != lps then 1 else 0 } })

/-- The first `ARITH_DECODE` after an init reads two bytes and decides on an interval of 0x10000; without them it
suspends with cause 1 and changes nothing else (R320, R321, R322, R354). -/
def Obligations.DecodeStarts : Prop :=
  ∀ (s : State) (x : BinOperand), s.idle → s.ent.a = 0 → s.ent.ct = -16 →
    (∀ d₁ d₂ s₁ s₂, ReadsByte s d₁ s₁ → ReadsByte s₁ d₂ s₂ →
      exec (.arithDecode x) s = exec (.arithDecode x)
        { s₂ with ent := { s₂.ent with
            a := 0x10000, ct := 0, c := BitVec.ofNat 32 (s.ent.c.toNat * 65536 + d₁ * 256 + d₂) } }) ∧
    (NoByte s ∨ (∃ d s₁, ReadsByte s d s₁ ∧ NoByte s₁) →
      exec (.arithDecode x) s = .next (s.ended .suspended .inputEmpty))

/-- `ARITH_DECODE` on an interval below 0x8000 doubles it first, and reads a byte where `ct` reaches 0; a read that finds
none suspends with cause 1 and changes nothing else (R321, R322, R324, R354). -/
def Obligations.DecodeRenormalizes : Prop :=
  ∀ (s : State) (x : BinOperand), s.idle → 1 ≤ s.ent.a.toNat → s.ent.a.toNat < 0x8000 →
    (∀ t, 1 ≤ s.ent.ct.toInt → t.status.resultKind ≠ .suspended →
      exec (.arithDecode x) { s with ent := { s.ent with a := s.ent.a * 2, ct := s.ent.ct - 1 } } = .next t →
      exec (.arithDecode x) s = .next t) ∧
    (∀ d s₁ t, s.ent.ct = 0 → ReadsByte s d s₁ → t.status.resultKind ≠ .suspended →
      exec (.arithDecode x)
        { s₁ with ent := { s₁.ent with
            a := s.ent.a * 2, ct := 7, c := BitVec.ofNat 32 (s.ent.c.toNat * 256 + d) } } = .next t →
      exec (.arithDecode x) s = .next t) ∧
    (s.ent.ct = 0 → NoByte s → exec (.arithDecode x) s = .next (s.ended .suspended .inputEmpty))

/-- Every entry of the probability table has an interval below 0x8000 and leads inside the table; index 113 is the entry
of R301 in mode `ENTRY113` only; a byte whose index is outside is `BAD_PROB_STATE` (R300 to R303). -/
def Obligations.ProbabilityStates : Prop :=
  (∀ (mode : FixedBinMode) (i : Nat), i < 113 → ∃ q, qeEntry mode i = some q ∧ 0 < q.qe.toNat ∧
    q.qe.toNat < 0x8000 ∧ q.nlps < 113 ∧ q.nmps < 113) ∧
  (∀ (mode : FixedBinMode) (i : Nat), 113 ≤ i →
    qeEntry mode i = if i = 113 ∧ mode = .entry113 then some ⟨0x5A1D, 113, 113, false⟩ else none) ∧
  ∀ (s : State) (x : BinOperand) (bit : Bool), s.idle →
    qeEntry s.cfg.fixedBinMode ((s.byteIn x).toNat % 128) = none →
    exec (.arithEncode x bit) s = .next (s.faulted .badProbState) ∧
    (0x8000 ≤ s.ent.a.toNat → exec (.arithDecode x) s = .next (s.faulted .badProbState))

/-! ## Images (`45_scan_interface.md` §1, §4) -/

/-- `START_IMAGE` that passes its checks latches the image with its geometry, zeroes `COEF` where the image needs it,
and resets what R801 resets; everything else is kept (R701, R801, R802; `20_memory.md` R160). That the blocks of `COEF`
beyond the image's keep their contents is the model's reading (log 22). -/
def Obligations.StartImageLatches : Prop :=
  ∀ s : State, s.status.fault = none → s.regs.dimensionOk → s.regs.componentsOk → s.regs.samplingOk →
    (s.regs.multi = true → s.regs.imageBlocks ≤ s.cfg.coefMemBlocks) →
    ∃ t, exec .startImage s = .next t ∧
      (t.image.active = true ∧ t.image.dim = s.regs.imgDim ∧
        t.image.cfg = (if cfgProg s.regs.imgCfg then s.regs.imgCfg ||| 0x80 else s.regs.imgCfg) ∧
        t.image.maxH = s.regs.maxH ∧ t.image.maxV = s.regs.maxV ∧
        t.image.totalRows = ceilDiv (imgHeight s.regs.imgDim) (8 * s.regs.maxV) ∧ t.image.inputScanNumber = 0 ∧
        t.image.eoiReached = false) ∧
      (∀ c < 10, (t.image.comp c).hSamp = compH (s.regs.comp c) ∧ (t.image.comp c).vSamp = compV (s.regs.comp c) ∧
        (t.image.comp c).qLatched = false ∧ ∀ k, Cells.read (-1) (t.image.comp c).coefBits k = -1) ∧
      (∀ c < cfgComponents s.regs.imgCfg, (t.image.comp c).widthInBlocks = s.regs.blocksWide c ∧
        (t.image.comp c).heightInBlocks = s.regs.blocksHigh c) ∧
      (∀ a, Cells.read 0 t.stats a = 0) ∧
      (∀ a, Cells.read 0 t.coef a =
        if s.regs.multi = true ∧ a < 64 * s.regs.imageBlocks then 0 else Cells.read 0 s.coef a) ∧
      t = State.ended .done .none
        { s with
          image := t.image, stats := t.stats, coef := t.coef, scan := Scan.reset, ent := Entropy.reset
          ctl := { Ctl.reset with mode := if s.regs.multi then .multiScan else .singlePass }
          regs := { s.regs with arithCond := Vector.replicate 16 0x510 }
          status := { s.status with warnCount := 0 } }

/-- The checks of `START_IMAGE` run in the order of R801, each with its fault code. That the previous image, scan and
controller state are already discarded is how the model reads R801 (log 11). -/
def Obligations.StartImageChecks : Prop :=
  ∀ s : State, s.status.fault = none →
    (¬s.regs.dimensionOk → exec .startImage s = .next (s.noImage.faulted .badDimension)) ∧
    (s.regs.dimensionOk → ¬s.regs.componentsOk → exec .startImage s = .next (s.noImage.faulted .badComponent)) ∧
    (s.regs.dimensionOk → s.regs.componentsOk → ¬s.regs.samplingOk →
      exec .startImage s = .next (s.noImage.faulted .badSampling)) ∧
    (s.regs.dimensionOk → s.regs.componentsOk → s.regs.samplingOk → s.regs.multi = true →
      s.cfg.coefMemBlocks < s.regs.imageBlocks →
      ∃ t, exec .startImage s = .next t ∧ t.status.fault = some .outOfMemory ∧ t.image.active = false ∧
        t.coef = s.coef ∧ t.stats = s.stats ∧ t.ent = s.ent)

/-- `EOI` marks the image's end and clamps the output scan number to the input scan number, and nothing else (R818). That
the number `START_OUTPUT_PASS` latched is clamped with the register is the model's reading (log 12). -/
def Obligations.EoiEffect : Prop :=
  ∀ s : State, s.status.fault = none → s.image.active = true → s.scan.active = false →
    exec .eoi s = .next (State.ended .done .none
      { s with
        image := { s.image with eoiReached := true }
        regs := { s.regs with
          outScan := BitVec.ofNat 32 (min (bits s.regs.outScan 0 16) s.image.inputScanNumber.toNat) }
        ctl := { s.ctl with
          outputScan := BitVec.ofNat 16 (min s.ctl.outputScan.toNat s.image.inputScanNumber.toNat) } })

/-! ## Scans (`45_scan_interface.md` §2 to §4, `44_coef_controller.md` §2) -/

/-- `START_SCAN` that passes its checks starts the scan: descriptor, components, selectors and mode latched, the scan
active, for a decode scan the scan counted, the quantization tables of its components latched where they were not and are
valid, `coef_bits` of a progressive image at `Al` over the band, and the input side at its first MCU; tables, image and
controller state apart nothing outside scan, entropy and warning state changes (R804, R805, R806, R807;
`44_coef_controller.md` R704, R721). Each Huffman table the scan uses is the one `HT_BUILD_DEC` or `HT_BUILD_ENC` builds,
the others stay (R809); the warnings are those of R806 (2) and R807, counted. That a decode scan is the input scan of
R731 is the model's reading (log 26), and so is that `quant_tbl_no` is read from the register (log 23). -/
def Obligations.StartScanLatches : Prop :=
  ∀ (s : State) (dir : Direction), s.scanOk dir →
    ∃ t, exec (.startScan dir) s = .next t ∧ t.status.fault = none ∧ t.status.resultKind = .done ∧
      t.status.suspendCause = .none ∧ t.scan.active = true ∧ t.scan.dir = dir ∧ t.scan.mode = s.modeOfScan ∧
      t.scan.ss = scanSs s.regs.scan ∧ t.scan.se = scanSe s.regs.scan ∧ t.scan.ah = scanAh s.regs.scan ∧
      t.scan.al = scanAl s.regs.scan ∧ t.scan.compsInScan = scanCount s.regs.scan ∧
      t.scan.restartInterval = restartField s.regs.restart ∧
      (∀ i < scanCount s.regs.scan, (t.scan.comp i).comp = s.regs.scanned i ∧
        (t.scan.comp i).dcTbl = compDc (s.regs.comp (s.regs.scanned i)) ∧
        (t.scan.comp i).acTbl = compAc (s.regs.comp (s.regs.scanned i))) ∧
      (dir = .decode → t.image.inputScanNumber = s.image.inputScanNumber + 1 ∧
        t.ctl = { s.ctl with
          inputRow := 0, mcuCtr := 0, mcuVert := 0, inputSs := scanSs s.regs.scan
          mcuRowsPerImcu :=
            if 1 < scanCount s.regs.scan then 1
            else if 1 < s.image.totalRows then (s.image.comp (s.regs.scanned 0)).vSamp
            else (t.scan.comp 0).lastRowHeight }) ∧
      (dir = .decode → ∀ c < 10,
        (s.latchesQuant c → (t.image.comp c).qLatched = true ∧ ∀ p < 64, Cells.read 0 (t.image.comp c).qtab p =
          Cells.read 0 s.qtbl (compQuant (s.regs.comp c) * 64 + p)) ∧
        (¬s.latchesQuant c → (t.image.comp c).qLatched = (s.image.comp c).qLatched ∧
          (t.image.comp c).qtab = (s.image.comp c).qtab) ∧
        (∀ k, Cells.read (-1) (t.image.comp c).coefBits k =
          if s.image.prog = true ∧ s.inScan c ∧ scanSs s.regs.scan ≤ k ∧ k ≤ scanSe s.regs.scan then
            (scanAl s.regs.scan : Int)
          else Cells.read (-1) (s.image.comp c).coefBits k) ∧
        t.image.comp c = { s.image.comp c with
          qLatched := (t.image.comp c).qLatched, qtab := (t.image.comp c).qtab
          coefBits := (t.image.comp c).coefBits }) ∧
      (dir = .encode → t.image = s.image ∧ t.ctl = s.ctl) ∧
      t = { s with status := t.status, scan := t.scan, ent := t.ent, stats := t.stats, dtbl := t.dtbl,
                   image := t.image, ctl := t.ctl } ∧
      t.image = { s.image with comps := t.image.comps, inputScanNumber := t.image.inputScanNumber } ∧
      (∀ cls slot, slot ≤ 3 →
        (s.usesTable cls slot → ∃ u,
          exec (match dir with | .decode => .htBuildDec cls slot | .encode => .htBuildEnc cls slot) s = .next u ∧
            u.status.fault = none ∧ t.derived cls slot = u.derived cls slot) ∧
        (¬s.usesTable cls slot → t.derived cls slot = s.derived cls slot)) ∧
      t.status = { s.status with
        warnCount := if s.scanWarnings dir = 0 then s.status.warnCount
          else min (s.status.warnCount + s.scanWarnings dir) 0xFFFFFFFF
        warnLast := if s.scanWarnings dir = 0 then s.status.warnLast
          else some (if s.image.prog = true then .bogusProgression else .notSequential)
        resultKind := .done, suspendCause := .none }

/-- The scan geometry `START_SCAN` leaves (`44_coef_controller.md` R702). -/
def Obligations.ScanGeometry : Prop :=
  ∀ (s t : State) (dir : Direction), s.scanOk dir → exec (.startScan dir) s = .next t →
    t.scan.blocksInMcu = s.scanBlocks ∧
    (scanCount s.regs.scan = 1 →
      let c := s.image.comp (s.regs.scanned 0)
      t.scan.mcusPerRow = c.widthInBlocks ∧ t.scan.mcuRowsInScan = c.heightInBlocks ∧
        (t.scan.comp 0).mcuWidth = 1 ∧ (t.scan.comp 0).mcuHeight = 1 ∧ (t.scan.comp 0).mcuBlocks = 1 ∧
        (t.scan.comp 0).lastColWidth = 1 ∧
        (t.scan.comp 0).lastRowHeight =
          if c.heightInBlocks % c.vSamp = 0 then c.vSamp else c.heightInBlocks % c.vSamp) ∧
    (2 ≤ scanCount s.regs.scan →
      t.scan.mcusPerRow = ceilDiv (imgWidth s.image.dim) (8 * s.image.maxH) ∧
        t.scan.mcuRowsInScan = s.image.totalRows ∧
        ∀ i < scanCount s.regs.scan,
          let c := s.image.comp (s.regs.scanned i)
          (t.scan.comp i).mcuWidth = c.hSamp ∧ (t.scan.comp i).mcuHeight = c.vSamp ∧
            (t.scan.comp i).mcuBlocks = c.hSamp * c.vSamp ∧
            (t.scan.comp i).lastColWidth =
              (if c.widthInBlocks % c.hSamp = 0 then c.hSamp else c.widthInBlocks % c.hSamp) ∧
            (t.scan.comp i).lastRowHeight =
              if c.heightInBlocks % c.vSamp = 0 then c.vSamp else c.heightInBlocks % c.vSamp) ∧
    t.scan.places.length = t.scan.blocksInMcu ∧
    ∀ (b : Nat) (p : McuPlace), t.scan.places[b]? = some p → t.scan.membership.getD b 0 = p.ci

/-- The entropy state of a scan that starts: a Huffman scan has an empty bit reader and writer and zero predictors, an
arithmetic scan has the coder's registers of its direction and zeroes the bins it uses
(`42_huffman_entropy.md` R533; `43_arith_entropy.md` R635, R636, R637; `40_qm_coder.md` R306); where it codes DC with DC
bins all predictors and contexts are 0 (`10_state.md` R74, R75), and where it does not both stay (R636; log 25). Bins of
other slots keep their values (`45_scan_interface.md` R808). -/
def Obligations.ScanEntropyStart : Prop :=
  ∀ (s t : State) (dir : Direction), s.scanOk dir → exec (.startScan dir) s = .next t →
    t.ent.restartsToGo = restartField s.regs.restart ∧ t.ent.nextRestart = 0 ∧
    (dir = .decode → t.ent.unreadMarker = 0) ∧
    t.ent.fixedBin = fixedBinAtStart s.cfg.fixedBinMode s.ent.fixedBin ∧
    (s.image.arith = false → t.stats = s.stats ∧ (∀ i < 4, t.ent.dc i = 0) ∧ t.ent.eobrun = 0 ∧
      t.ent.bitBuffer = [] ∧ t.ent.getBuffer = 0 ∧ t.ent.bitsLeft = 0 ∧ t.ent.putBuffer = 0 ∧ t.ent.putBits = 0 ∧
      t.ent.insufficient = false) ∧
    (s.image.arith = true →
      (dir = .encode → t.ent.c = 0 ∧ t.ent.a = 0x10000 ∧ t.ent.ct = 11 ∧ t.ent.sc = 0 ∧ t.ent.zc = 0 ∧
        t.ent.buffer = -1) ∧
      (dir = .decode → t.ent.c = 0 ∧ t.ent.a = 0 ∧ t.ent.ct = -16) ∧
      ((s.image.prog = false ∨ scanSs s.regs.scan = 0 ∧ scanAh s.regs.scan = 0) →
        (∀ i < 4, t.ent.dc i = 0 ∧ t.ent.context i = 0) ∧ ∀ i < scanCount s.regs.scan,
          ∀ j < 64, Cells.read 0 t.stats (compDc (s.regs.comp (s.regs.scanned i)) * 64 + j) = 0) ∧
      ((s.image.prog = true ∧ (0 < scanSs s.regs.scan ∨ scanAh s.regs.scan ≠ 0)) →
        t.ent.lastDc = s.ent.lastDc ∧ t.ent.dcContext = s.ent.dcContext) ∧
      ((s.image.prog = false ∨ 0 < scanSs s.regs.scan) →
        ∀ i < scanCount s.regs.scan,
          ∀ j < 256, Cells.read 0 t.stats (0x400 + compAc (s.regs.comp (s.regs.scanned i)) * 256 + j) = 0) ∧
      ∀ a, (∀ i < scanCount s.regs.scan,
        ((s.image.prog = false ∨ scanSs s.regs.scan = 0 ∧ scanAh s.regs.scan = 0) →
          a / 64 ≠ compDc (s.regs.comp (s.regs.scanned i))) ∧
        ((s.image.prog = false ∨ 0 < scanSs s.regs.scan) →
          a / 256 ≠ 4 + compAc (s.regs.comp (s.regs.scanned i)))) →
        Cells.read 0 t.stats a = Cells.read 0 s.stats a)

/-- The checks of `START_SCAN` in their order, each with its fault (R804, R806, R809; `44_coef_controller.md` R702). Bad
components, a second decode scan of a single-pass image, and one without all its components leave the mode as it was; bad
progressive parameters, more than 10 blocks in an MCU, and a table that is absent or malformed leave the mode set; the
scan does not become active in any case. Of a scan with both an absent and a malformed table it says only that one of the
two faults comes. -/
def Obligations.StartScanChecks : Prop :=
  ∀ (s : State) (dir : Direction), s.status.fault = none → Admits s (.startScan dir) →
    let componentsOk := 1 ≤ scanCount s.regs.scan ∧ scanCount s.regs.scan ≤ 4 ∧
      (∀ i < scanCount s.regs.scan, s.regs.scanned i < s.image.components) ∧
      ∀ i < scanCount s.regs.scan, ∀ j < i, s.regs.scanned i ≠ s.regs.scanned j
    let faultsWith := fun (mode : ScanMode) (f : FaultCode) =>
      ∃ t, exec (.startScan dir) s = .next t ∧ t.status.fault = some f ∧ t.scan.mode = mode ∧ t.scan.active = false
    let progressionOk := s.image.prog = true → s.regs.progressionOk
    (¬componentsOk → faultsWith s.scan.mode .badComponent) ∧
    (componentsOk → dir = .decode → s.ctl.mode = .singlePass → s.image.inputScanNumber ≠ 0 →
      faultsWith s.scan.mode .badState) ∧
    (componentsOk → dir = .decode → s.ctl.mode = .singlePass → s.image.inputScanNumber = 0 →
      scanCount s.regs.scan ≠ s.image.components → faultsWith s.scan.mode .badComponent) ∧
    (s.scanComponentsOk dir → ¬progressionOk → faultsWith s.modeOfScan .badProgression ∧ s.modeOfScan ≠ .none) ∧
    (s.scanComponentsOk dir → progressionOk → 10 < s.scanBlocks → faultsWith s.modeOfScan .badMcuSize) ∧
    (s.scanComponentsOk dir → progressionOk → s.scanBlocks ≤ 10 → ¬s.scanTablesOk dir →
      (faultsWith s.modeOfScan .noHuffTable ∨ faultsWith s.modeOfScan .badHuffTable) ∧
      ((∀ cls t, s.usesTable cls t → s.hasSpec cls t) → faultsWith s.modeOfScan .badHuffTable) ∧
      ((∀ cls t, s.usesTable cls t → s.hasSpec cls t → s.canBuild dir cls t) → faultsWith s.modeOfScan .noHuffTable))

/-- `ENCODE_MCU` of a Huffman DC refinement scan appends bit `Al` of each block's DC coefficient, block by block, and
counts the MCU; without room it suspends with cause 2, undone (`42_huffman_entropy.md` R505, R520). In every Huffman mode
it appends the codes and bits of the mode's coding of the blocks, and the predictors, the pending run and its correction
bits follow; a value out of range, or a symbol without a code, raises its fault (R508, R511, R516, R517, R520, R523). In
every mode a restart that is due comes before the MCU: the segment is ended, a pending run and the padding or the coder's
last bytes go out, then the restart marker, and what a restart resets is reset (R527; `43_arith_entropy.md` R605, R636,
R640). That an arithmetic restart zeroes all four predictors and contexts where the scan codes DC (`10_state.md` R74, R75)
is the model's reading (log 14), and so is that it keeps them elsewhere, against the letter of R74 (log 25). -/
def Obligations.EncodeDcRefine : Prop :=
  (∀ s : State, s.status.fault = none → Admits s .encodeMcu → s.scan.mode = .hufDcRefine → s.noRestartDue →
    s.scan.blocksInMcu ≤ 10 → s.ent.writerOk →
    let bitsOut := (List.range s.scan.blocksInMcu).map fun b =>
      (Cells.read 0 s.mcubuf (b * 64)).toInt / 2 ^ s.scan.al % 2 == 1
    exec .encodeMcu s =
      if s.roomFor (s.bytesOut bitsOut).length then
        .next (State.ended .done .none
          { s.wrote bitsOut with ent := { (s.wrote bitsOut).ent with restartsToGo := s.restartsAfterMcu } })
      else .next (s.ended .suspended .outputFull)) ∧
  (∀ s : State, s.status.fault = none → Admits s .encodeMcu → s.scan.mode.isHuffman → s.noRestartDue →
    s.scan.blocksInMcu ≤ 10 → s.rangesOk →
    (s.scan.mode ∈ [.hufAcFirst, .hufAcRefine] → s.scan.blocksInMcu = 1) →
    let bitsOut := s.mcuItems.1.flatMap s.itemBits
    let e := s.mcuItems.2
    (s.mcuItems.1.findSome? s.itemFault = none → exec .encodeMcu s =
      if s.roomFor (s.bytesOut bitsOut).length then
        .next (State.ended .done .none
          { s.wrote bitsOut with ent := { (s.wrote bitsOut).ent with
              lastDc := e.lastDc, eobrun := e.eobrun, bitBuffer := e.bitBuffer
              restartsToGo := s.restartsAfterMcu } })
      else .next (s.ended .suspended .outputFull)) ∧
    ∀ f, s.mcuItems.1.findSome? s.itemFault = some f →
      ∃ t, exec .encodeMcu s = .next t ∧ t.status.fault = some f) ∧
  ∀ s : State, s.status.fault = none → Admits s .encodeMcu → s.restartDue → s.ent.nextRestart < 8 →
    s.outCapacity = none →
    (s.scan.mode.isHuffman → s.ent.writerOk → s.runCodable →
      ∀ t, exec .encodeMcu s.huffmanRestartSent = .next t → t.status.fault = none →
        exec .encodeMcu s = .next t) ∧
    (s.scan.mode.isArith → ∃ out u st, exec .arithEncFlush s.withoutScan = .next u ∧ u.outPort = s.outPort ++ out ∧
      s.freshStats st ∧ ∀ t, exec .encodeMcu (s.arithRestartSent out st) = .next t → t.status.fault = none →
        exec .encodeMcu s = .next t)

/-- In every encode mode `ENCODE_MCU` reads the coefficients and never writes them (`43_arith_entropy.md` R627). What an
arithmetic scan reads it codes, decision by decision, as `ARITH_ENCODE` codes: the DC difference and the AC band in their
bins, by R601, R610, R611, R615, R617 and the routine of the mode (R620, R622 to R625); the predictors and contexts
follow, and the MCU is counted. -/
def Obligations.EncodeReadsOnly : Prop :=
  (∀ s t : State, exec .encodeMcu s = .next t → t.mcubuf = s.mcubuf ∧ t.coef = s.coef) ∧
  ∀ s u : State, s.status.fault = none → Admits s .encodeMcu → s.scan.mode.isArith → s.noRestartDue →
    s.scan.blocksInMcu ≤ 10 → s.scan.se ≤ 63 → s.outCapacity = none →
    (s.scan.mode ∈ [.ariAcFirst, .ariAcRefine] → s.scan.blocksInMcu = 1 ∧ s.scan.membership.getD 0 0 = 0) →
    Codes s.withoutScan s.mcuDecisions.1 u →
    exec .encodeMcu s = .next (State.ended .done .none
      { u with
        scan := s.scan
        ent := { u.ent with
          lastDc := s.mcuDecisions.2.lastDc, dcContext := s.mcuDecisions.2.dcContext
          restartsToGo := s.restartsAfterMcu } })

/-- `DECODE_MCU` of a DC refinement scan ORs 2^Al into the DC coefficient of each block whose bit is 1 and counts the
MCU; nothing else changes. The bits of a Huffman scan come from the queue and the port, zero bits past a marker
(`42_huffman_entropy.md` R506, R520; `41_huffman_tables.md` R421); those of an arithmetic scan are the decisions that
`ARITH_DECODE` returns for the fixed bin (`43_arith_entropy.md` R606, R624). Without input it suspends with cause 1,
undone. In every mode the MCU is what the entropy data says: if `HT_DECODE` and `HT_GETBITS` return the symbols and bits of
its blocks in a Huffman mode (R507, R510, R515, R520, R522), or `ARITH_DECODE` the decisions of an arithmetic mode that
the encoder makes of some values (R621 to R624, R626), these values are written to the blocks, and the predictors, the
pending run and the contexts follow. A command of theirs that finds no input suspends the MCU, undone; a fault of theirs
is its fault. An overflow of the arithmetic decoder ends the MCU with the warning `ARITH_BAD_CODE` and the mark `ct` = -1,
what was decoded before it kept (R612, R616, R618, R626, R628, R630). -/
def Obligations.DecodeDcRefine : Prop :=
  (∀ s : State, s.status.fault = none → Admits s .decodeMcu → s.noRestartDue → 1 ≤ s.scan.blocksInMcu →
    s.scan.blocksInMcu ≤ 10 → Memory.wf s →
    let refines := fun (bit : Nat → Bool) (m : Cells Coef) =>
      (∀ b < s.scan.blocksInMcu, Cells.read 0 m (b * 64) =
        if bit b then Cells.read 0 s.mcubuf (b * 64) ||| BitVec.ofNat 16 (2 ^ s.scan.al)
        else Cells.read 0 s.mcubuf (b * 64)) ∧
      ∀ a, (∀ b < s.scan.blocksInMcu, a ≠ b * 64) → Cells.read 0 m a = Cells.read 0 s.mcubuf a
    (s.scan.mode = .hufDcRefine →
      (∀ v u, GivesBits s.scan.blocksInMcu s.scan.blocksInMcu s v u →
        ∃ m, refines (fun b => v.testBit (s.scan.blocksInMcu - 1 - b)) m ∧
          exec .decodeMcu s = .next (State.ended .done .none
            { u with mcubuf := m, ent := { u.ent with restartsToGo := s.restartsAfterMcu } })) ∧
      ∀ bs, s.runsOut bs → s.bitsWith bs < s.scan.blocksInMcu →
        exec .decodeMcu s = .next (s.ended .suspended .inputEmpty)) ∧
    (s.scan.mode = .ariDcRefine → s.ent.ct ≠ -1 → ∀ bits u, Decides s.withoutScan bits u →
      (bits.length = s.scan.blocksInMcu → ∃ m, refines (fun b => bits.getD b false) m ∧
        exec .decodeMcu s = .next (State.ended .done .none
          { s with
            mcubuf := m, inPort := u.inPort, ent := { u.ent with restartsToGo := s.restartsAfterMcu } })) ∧
      (bits.length < s.scan.blocksInMcu →
        exec (.arithDecode .fixed) u = .next (u.ended .suspended .inputEmpty) →
        exec .decodeMcu s = .next (s.ended .suspended .inputEmpty)))) ∧
  (∀ (s : State) (is : List HuffItem) (ws : List (Nat × Coef)) (e : Entropy), s.status.fault = none →
    Admits s .decodeMcu → s.scan.mode.isHuffman → s.ent.insufficient = false → s.noRestartDue →
    s.scan.blocksInMcu ≤ 10 → s.scan.se ≤ 63 →
    (s.scan.mode ∈ [.hufAcFirst, .hufAcRefine] → s.scan.blocksInMcu = 1) →
    BlockChain s.HuffBlock (List.range s.scan.blocksInMcu) s.ent is ws e →
    (∀ u, Reads s.withoutScan is u → exec .decodeMcu s = .next (State.ended .done .none
      { u with
        scan := s.scan
        mcubuf := Cells.writes 0 s.mcubuf ws
        status := { u.status with result := s.status.result }
        ent := { u.ent with lastDc := e.lastDc, eobrun := e.eobrun, restartsToGo := s.restartsAfterMcu } })) ∧
    ∀ pre q post u i, is = pre ++ q :: post → Reads s.withoutScan pre u → HuffItem.reader q = some i →
      exec i u = .next (u.ended .suspended .inputEmpty) →
      exec .decodeMcu s = .next (s.ended .suspended .inputEmpty)) ∧
  ∀ (s : State), s.status.fault = none → Admits s .decodeMcu → s.scan.mode.isArith → s.ent.ct ≠ -1 →
    s.noRestartDue → s.scan.blocksInMcu ≤ 10 → s.scan.se ≤ 63 →
    (s.scan.mode ∈ [.ariAcFirst, .ariAcRefine] →
      1 ≤ s.scan.ss ∧ s.scan.blocksInMcu = 1 ∧ s.scan.membership.getD 0 0 = 0) →
    (∀ ds ws e, BlockChain s.ArithBlock (List.range s.scan.blocksInMcu) s.ent ds ws e →
      (∀ u, Returns s.withoutScan ds u → exec .decodeMcu s = .next (State.ended .done .none
        { u with
          scan := s.scan
          mcubuf := Cells.writes 0 s.mcubuf ws
          status := { u.status with result := s.status.result }
          ent := { u.ent with
            lastDc := e.lastDc, dcContext := e.dcContext, restartsToGo := s.restartsAfterMcu } })) ∧
      ∀ pre x bit post u, ds = pre ++ (x, bit) :: post → Returns s.withoutScan pre u →
        (exec (.arithDecode x) (u.freshSign x) = .next ((u.freshSign x).ended .suspended .inputEmpty) →
          exec .decodeMcu s = .next (s.ended .suspended .inputEmpty)) ∧
        ∀ f t, exec (.arithDecode x) (u.freshSign x) = .next t → t.status.fault = some f →
          ∃ v, exec .decodeMcu s = .next v ∧ v.status.fault = some f) ∧
    ∀ b < s.scan.blocksInMcu, ∀ ds ws e ds' ws' e' u, BlockChain s.ArithBlock (List.range b) s.ent ds ws e →
      s.ArithOverflow b e ds' ws' e' → Returns s.withoutScan (ds ++ ds') u →
      exec .decodeMcu s = .next (State.ended .done .none
        { u.warned .arithBadCode with
          scan := s.scan
          mcubuf := Cells.writes 0 s.mcubuf (ws ++ ws')
          status := { (u.warned .arithBadCode).status with result := s.status.result }
          ent := { u.ent with
            lastDc := e'.lastDc, dcContext := e'.dcContext, ct := -1, restartsToGo := s.restartsAfterMcu } })

/-- While the entropy data is insufficient (Huffman) or the error mark `ct` = -1 stands (arithmetic), `DECODE_MCU`
leaves every block as it is and only counts the MCU (`42_huffman_entropy.md` R506; `43_arith_entropy.md` R606). In every
mode a restart that is due comes first: the decoder skips to its marker, by the resynchronization of R531 where it is
another, and what a restart resets is reset (R528 to R531; `43_arith_entropy.md` R636, R641); without a marker it suspends
with cause 1, undone. That `mod 8` of R531 is taken in 0..7 is the model's reading (log 13); so is that an arithmetic
restart zeroes all four predictors and contexts where the scan codes DC (`10_state.md` R74, R75; log 14), and that it
keeps them elsewhere, against the letter of R74 (log 25). -/
def Obligations.DecodeSkips : Prop :=
  (∀ s : State, s.status.fault = none → Admits s .decodeMcu → s.noRestartDue → s.scan.blocksInMcu ≤ 10 →
    ((s.scan.mode ∈ [.hufSeq, .hufDcFirst, .hufAcFirst, .hufAcRefine] ∧ s.ent.insufficient = true) ∨
      (s.scan.mode ∈ [.ariSeq, .ariDcFirst, .ariAcFirst, .ariDcRefine, .ariAcRefine] ∧ s.ent.ct = -1)) →
    exec .decodeMcu s = .next (State.ended .done .none
      { s with ent := { s.ent with restartsToGo := s.restartsAfterMcu } })) ∧
  ∀ s : State, s.status.fault = none → Admits s .decodeMcu → s.restartDue → s.scan.mode ≠ .none →
    s.scan.blocksInMcu ≤ 10 →
    (∀ t, TakesRestart s t → ∃ u,
      (s.scan.mode.isHuffman ∧ u = t.huffmanRestarted ∨
        s.scan.mode.isArith ∧ ∃ st, t.freshStats st ∧ u = t.arithRestarted st) ∧
      (∀ v, exec .decodeMcu u = .next v → v.status.resultKind ≠ .suspended → exec .decodeMcu s = .next v) ∧
      (exec .decodeMcu u = .next (u.ended .suspended .inputEmpty) →
        exec .decodeMcu s = .next (s.ended .suspended .inputEmpty))) ∧
    ((∀ t, ¬TakesRestart s t) → exec .decodeMcu s = .next (s.ended .suspended .inputEmpty))

/-- `FINISH_SCAN` ends the scan: a decode scan where it stands; a Huffman encode scan by the pending run, with its
correction bits, and the padding of the last byte, or the fault of a run that has no code; an arithmetic encode scan by
the bytes with which `ARITH_ENC_FLUSH` ends a segment. Without room it suspends with cause 2, undone (R814;
`42_huffman_entropy.md` R516, R532, R534; `43_arith_entropy.md` R642, R643; `40_qm_coder.md` R330). That a decode scan's end
empties the bit reader of an arithmetic scan too is the model's reading (log 16); the counters `sc` and `zc` wrap at their
width (log 8). -/
def Obligations.FinishScanEnds : Prop :=
  ∀ s : State, s.status.fault = none → s.scan.active = true →
    (s.scan.dir = .decode → exec .finishScan s = .next (State.ended .done .none
      { s with
        scan := { s.scan with active := false, mode := .none }
        ctl := { s.ctl with inputRow := s.image.totalRows }
        ent := { s.ent with getBuffer := 0, bitsLeft := 0 } })) ∧
    (s.scan.dir = .encode → s.scan.mode.isHuffman → s.ent.writerOk → s.runCodable →
      exec .finishScan s =
        if s.roomFor (s.bytesOut (s.runBits ++ List.replicate 7 true)).length then
          .next (State.ended .done .none
            { s with
              scan := { s.scan with active := false, mode := .none }
              outPort := s.outPort ++ s.bytesOut (s.runBits ++ List.replicate 7 true)
              ent := { s.ent with
                putBuffer := 0, putBits := 0
                eobrun := if s.scan.mode = .hufSeq then s.ent.eobrun else 0
                bitBuffer := if s.scan.mode = .hufSeq ∨ s.ent.eobrun = 0 then s.ent.bitBuffer else [] } })
        else .next (s.ended .suspended .outputFull)) ∧
    (s.scan.dir = .encode → s.scan.mode.isHuffman → s.rangesOk → ¬s.runCodable →
      exec .finishScan s = .next (s.faulted .huffMissingCode)) ∧
    (s.scan.dir = .encode → s.scan.mode.isArith →
      ∃ out c zc,
        (s.outCapacity = none → ∃ u, exec .arithEncFlush s.withoutScan = .next u ∧ u.outPort = s.outPort ++ out) ∧
        (s.ent.encoderOk → s.ent.countersLow → out = s.ent.lastBytes ∧ c = BitVec.ofNat 32 s.ent.lastCode ∧
          zc = BitVec.ofNat 32 s.ent.zerosUnsent) ∧
        exec .finishScan s =
          if s.roomFor out.length then
            .next (State.ended .done .none
              { s with
                scan := { s.scan with active := false, mode := .none }
                outPort := s.outPort ++ out
                ent := { s.ent with c := c, sc := 0, zc := zc } })
          else .next (s.ended .suspended .outputFull))

/-! ## The coefficient controller (`44_coef_controller.md`) -/

/-- `CONSUME_INPUT` of a single-pass Huffman scan whose entropy data is insufficient decodes the rest of the iMCU row as
zero blocks: it sends the records of R710 for every MCU of R715, in order, and moves to the next row or ends the scan
(R704, R710, R715, R720, R722). In a multi-scan image each MCU is decoded into the blocks of `COEF` at its place and no
record is sent: a DC refinement scan ORs 2^Al into the DC coefficients whose bit is 1, and goes on with the next MCU
(R705, R711, R715). In every mode an MCU is what `DECODE_MCU` makes of it: of the scratch blocks cleared, which then go
out as its records (R706, R710), or of the blocks of `COEF` at its place, which are put back there (R711); the rest of the
row follows. After the last MCU of an MCU row comes the next MCU row; after the last MCU row `ROW_COMPLETED` and the next
iMCU row, or `SCAN_COMPLETED` and the end of the scan (R704, R715, R720, R722), which empties the bit reader of an
arithmetic scan too (log 16). -/
def Obligations.ConsumeZeroRow : Prop :=
  (∀ s : State, s.status.fault = none → Admits s .consumeInput → s.scanShape → s.ctl.mode = .singlePass →
    s.scan.mode = .hufSeq → s.ent.insufficient = true → s.scan.restartInterval = 0 →
    ∃ t, exec .consumeInput s = .next t ∧ t.status.suspendCause = .none ∧ t.status.fault = none ∧
      t.idctPort = s.idctPort ++ s.mcusLeft.flatMap s.zeroRecords ∧
      t.ctl.inputRow = s.ctl.inputRow + 1 ∧ t.ctl.outputRow = s.ctl.outputRow + 1 ∧
      (s.ctl.inputRow + 1 < s.image.totalRows → t.status.resultKind = .rowCompleted ∧ t.scan = s.scan ∧
        t.ent = s.ent ∧ t.ctl.mcuCtr = 0 ∧ t.ctl.mcuVert = 0) ∧
      (s.image.totalRows ≤ s.ctl.inputRow + 1 → t.status.resultKind = .scanCompleted ∧
        t.scan = { s.scan with active := false, mode := .none } ∧
        t.ent = { s.ent with getBuffer := 0, bitsLeft := 0 }) ∧
      t = { s with status := t.status, scan := t.scan, ent := t.ent, ctl := t.ctl, mcubuf := t.mcubuf,
                   idctPort := t.idctPort }) ∧
  (∀ (s u : State) (v : Nat), s.status.fault = none → Admits s .consumeInput → s.scanShape →
    s.ctl.mode = .multiScan → s.scan.mode = .hufDcRefine → s.noRestartDue → Memory.wf s → 1 ≤ s.scan.blocksInMcu →
    s.ctl.mcuVert < s.ctl.mcuRowsPerImcu → s.ctl.mcuCtr < s.scan.mcusPerRow → s.mcuBlocks.Nodup →
    (∀ n ∈ s.mcuBlocks, n < s.cfg.coefMemBlocks) → GivesBits s.scan.blocksInMcu s.scan.blocksInMcu s v u →
    ∃ m, (∀ b n, s.mcuBlocks[b]? = some n → Cells.read 0 m (n * 64) =
        if v.testBit (s.scan.blocksInMcu - 1 - b) then
          Cells.read 0 s.coef (n * 64) ||| BitVec.ofNat 16 (2 ^ s.scan.al)
        else Cells.read 0 s.coef (n * 64)) ∧
      (∀ a, (∀ n ∈ s.mcuBlocks, a ≠ n * 64) → Cells.read 0 m a = Cells.read 0 s.coef a) ∧
      exec .consumeInput s = exec .consumeInput
        { u with
          coef := m
          ctl := { s.ctl with mcuCtr := s.ctl.mcuCtr + 1 }
          ent := { u.ent with restartsToGo := s.restartsAfterMcu } }) ∧
  ∀ s : State, s.status.fault = none → Admits s .consumeInput →
    (s.ctl.mcuVert < s.ctl.mcuRowsPerImcu → s.ctl.mcuCtr < s.scan.mcusPerRow →
      (s.ctl.mode = .singlePass → ∀ u, exec .decodeMcu s.scratchCleared = .next u → u.status.fault = none →
        u.status.resultKind ≠ .suspended → exec .consumeInput s = exec .consumeInput (s.mcuSent u)) ∧
      (s.ctl.mode = .multiScan → s.scanShape → Memory.wf s → s.mcuBlocks.Nodup →
        (∀ n ∈ s.mcuBlocks, n < s.cfg.coefMemBlocks) →
        ∀ u, exec .decodeMcu s.blocksLoaded = .next u → u.status.fault = none → u.status.resultKind ≠ .suspended →
          exec .consumeInput s = exec .consumeInput
            { s.blocksStored u with ctl := { s.ctl with mcuCtr := s.ctl.mcuCtr + 1 } })) ∧
    (s.ctl.mcuVert < s.ctl.mcuRowsPerImcu → s.scan.mcusPerRow ≤ s.ctl.mcuCtr →
      exec .consumeInput s = exec .consumeInput
        { s with ctl := { s.ctl with mcuCtr := 0, mcuVert := s.ctl.mcuVert + 1 } }) ∧
    (s.ctl.mcuRowsPerImcu ≤ s.ctl.mcuVert → exec .consumeInput s = .next s.rowDone)

/-- `CONSUME_INPUT` of a sequential Huffman scan that finds neither bits nor bytes suspends with cause 1, and the MCU's
position, its blocks and every other piece of state are as before (R715, R720; `45_scan_interface.md` R812). In every mode
it does so where `DECODE_MCU` of the MCU's blocks suspends, the scratch blocks cleared (R710) or those of `COEF` (R711);
where that raises a fault, `CONSUME_INPUT` raises it, with what the blocks hold by then. -/
def Obligations.ConsumeSuspends : Prop :=
  (∀ s : State, s.status.fault = none → Admits s .consumeInput → s.scanShape → s.ctl.mode = .singlePass →
    s.scan.mode = .hufSeq → s.ent.insufficient = false → s.noRestartDue → 1 ≤ s.scan.blocksInMcu →
    s.ctl.mcuVert < s.ctl.mcuRowsPerImcu → s.ctl.mcuCtr < s.scan.mcusPerRow → s.ent.bitsLeft = 0 → NoByte s →
    exec .consumeInput s = .next (s.ended .suspended .inputEmpty)) ∧
  ∀ s u : State, s.status.fault = none → Admits s .consumeInput → s.ctl.mcuVert < s.ctl.mcuRowsPerImcu →
    s.ctl.mcuCtr < s.scan.mcusPerRow →
    (s.ctl.mode = .singlePass → exec .decodeMcu s.scratchCleared = .next u →
      (u.status.resultKind = .suspended → exec .consumeInput s = .next (s.ended .suspended .inputEmpty)) ∧
      (u.status.fault ≠ none → exec .consumeInput s = .next u)) ∧
    (s.ctl.mode = .multiScan → s.scanShape → Memory.wf s → s.mcuBlocks.Nodup →
      (∀ n ∈ s.mcuBlocks, n < s.cfg.coefMemBlocks) → exec .decodeMcu s.blocksLoaded = .next u →
      (u.status.resultKind = .suspended → exec .consumeInput s = .next (s.ended .suspended .inputEmpty)) ∧
      (u.status.fault ≠ none → exec .consumeInput s = .next (s.blocksStored u)))

/-- `START_OUTPUT_PASS` writes the scan number it shows back to `OUT_SCAN`, decides on smoothing, latches `coef_bits` and
starts at row 0; nothing else changes (R725, R730). That the number is also latched for the pass is the model's reading
(log 12), and so is that `coef_bits_latch` keeps its value where `SMOOTH` is 0 (log 21). -/
def Obligations.OutputPassStarts : Prop :=
  ∀ s : State, s.status.fault = none → Admits s .startOutputPass → Memory.wf s →
    ∃ (smooth : Bool) (latch : Cells Int), exec .startOutputPass s = .next (State.ended .done .none
        { s with
          regs := { s.regs with outScan := BitVec.ofNat 32 s.passScan }
          ctl := { s.ctl with
            outputScan := BitVec.ofNat 16 s.passScan, smoothing := smooth, coefBitsLatch := latch, outputRow := 0
            outputPass := true } }) ∧
      (smooth = true ↔ s.passSmoothes) ∧
      ∀ c k, k < 6 → (s.passLatches c → 1 ≤ k →
          Cells.read 0 latch (6 * c + k) = Cells.read (-1) (s.image.comp c).coefBits k) ∧
        (¬s.passLatches c ∨ k = 0 → Cells.read 0 latch (6 * c + k) = Cells.read 0 s.ctl.coefBitsLatch (6 * c + k))

/-- `PRODUCE_OUTPUT` of a row that needs no input sends one record per block of the row, in the order of R728, moves to
the next row and ends the pass after the last; without smoothing each record holds the stored coefficients, with
smoothing the estimates of R732 and R733 where a coefficient is 0 and not fully known. `COEF` and everything else is
unchanged (R726, R727, R728, R731, R732, R733). Where the row needs input and a decode scan is active, `PRODUCE_OUTPUT`
first consumes an input row as `CONSUME_INPUT` does, and goes on from there; if that suspends it suspends with cause 1,
and a fault of it is its fault, with the input consumed so far (R726). The scan the row is compared with is the one
latched for the pass (log 12), and the `Ss` of R731 that of the decode scan started last (log 26). -/
def Obligations.OutputRowProduced : Prop :=
  (∀ s : State, s.canProduce →
    ∃ recs : List IdctRecord, recs.map (fun r => (r.comp, r.row, r.col)) = s.rowBlocks ∧
      (s.ctl.smoothing = false → ∀ r ∈ recs, r.coefs = (List.range 64).map (s.storedCoef (r.comp, r.row, r.col))) ∧
      (s.ctl.smoothing = true → ∀ r ∈ recs, r.coefs = (List.range 64).map (s.smoothedCoef (r.comp, r.row, r.col))) ∧
      exec .produceOutput s = .next (
        if s.ctl.outputRow + 1 < s.image.totalRows then
          State.ended .rowCompleted .none
            { s with idctPort := s.idctPort ++ recs, ctl := { s.ctl with outputRow := s.ctl.outputRow + 1 } }
        else State.ended .scanCompleted .none
          { s with
            idctPort := s.idctPort ++ recs
            ctl := { s.ctl with outputRow := s.ctl.outputRow + 1, outputPass := false, smoothing := false } })) ∧
  ∀ s t : State, s.status.fault = none → Admits s .produceOutput → ¬s.rowReady → s.scan.active = true →
    s.scan.dir = .decode → exec .consumeInput s = .next t →
    (t.status.fault = none → t.status.resultKind ≠ .suspended → exec .produceOutput s = exec .produceOutput t) ∧
    (t.status.resultKind = .suspended → t.status.suspendCause = .inputEmpty ∧ exec .produceOutput s = .next t) ∧
    (t.status.fault ≠ none → exec .produceOutput s = .next t)

/-- `PRODUCE_OUTPUT` of a row that needs input (R727; R731 in a pass that smooths) while no scan is active suspends with
cause 3: the scan it shows is not yet started, or is over and the pass looks a row ahead of it; while an encode scan is
active it is `BAD_STATE`; nothing else changes (R726). The scan the pass shows is the one latched for it (log 12), and the
`Ss` of R731 that of the decode scan started last (log 26). -/
def Obligations.OutputNeedsScan : Prop :=
  ∀ s : State, s.status.fault = none → Admits s .produceOutput → ¬s.rowReady →
    (s.scan.active = false → exec .produceOutput s = .next (s.ended .suspended .scanNeeded)) ∧
    (s.scan.active = true → s.scan.dir = .encode → exec .produceOutput s = .next (s.faulted .badState))

/-- Smoothing never changes a coefficient that is stored as nonzero, only positions 1, 8, 16, 9 and 2 of a record can
differ from the stored block, and `COEF` is not written (R734). -/
def Obligations.SmoothingKeeps : Prop :=
  ∀ s t : State, s.canProduce → exec .produceOutput s = .next t → t.coef = s.coef ∧
    ∀ r ∈ t.idctPort.drop s.idctPort.length, r.coefs.length = 64 ∧ ∀ p < 64,
      (s.storedCoef (r.comp, r.row, r.col) p ≠ 0 ∨ p ∉ [1, 8, 16, 9, 2]) →
      r.coefs.getD p 0 = s.storedCoef (r.comp, r.row, r.col) p

/-! ## The host's view (`10_state.md`, `20_memory.md`, `30_encoding.md` R214) -/

/-- A write of a configuration register keeps the bits of its fields, reads back so, and changes no other register and no
other state (`10_state.md` R54 to R61, R90, R91). -/
def Obligations.ConfigWrites : Prop :=
  ∀ (s : State) (a : Nat) (v m : Word), configMask a = some m →
    ∃ r, hostCsrWrite a v s = .next { s with regs := r } ∧
      State.readCsr { s with regs := r } a = some (v &&& m) ∧
      ∀ a', a' ≠ a → State.readCsr { s with regs := r } a' = s.readCsr a'

/-- What the host reads: each field of `STATUS` is at its place (`10_state.md` R63), `FAULT`, `WARN_COUNT`, `WARN_LAST`,
`RESULT`, `DISCARDED` and `UNREAD_MARKER` show their state (R64 to R68) with the codes of `60_exceptions.md` R901 and R904,
and so do the observation registers (R69). -/
def Obligations.StatusWord : Prop :=
  (∀ s : State, ∃ w, s.readCsr 0x001 = some w ∧
    (s.status.resultKind, bits w 0 2) ∈
      [(.done, 0), (.suspended, 1), (.rowCompleted, 2), (.scanCompleted, 3)] ∧
    bit w 2 = s.status.fault.isSome ∧ bit w 3 = s.ent.insufficient ∧
    (bit w 4 = true ↔ s.scan.active = true ∧ s.scan.dir = .decode ∧
      s.scan.mode ∈ [.ariSeq, .ariDcFirst, .ariAcFirst, .ariDcRefine, .ariAcRefine] ∧ s.ent.ct = -1) ∧
    bit w 5 = s.scan.active ∧ bit w 6 = s.image.active ∧ bit w 7 = s.ctl.outputPass ∧ bit w 8 = s.ctl.smoothing ∧
    bit w 9 = s.image.eoiReached ∧ (bit w 10 = true ↔ s.ctl.mode = .multiScan) ∧
    (s.scan.active = true → (bit w 11 = true ↔ s.scan.dir = .encode)) ∧
    (s.scan.mode, bits w 12 4) ∈
      [(.none, 0), (.hufSeq, 1), (.hufDcFirst, 2), (.hufAcFirst, 3), (.hufDcRefine, 4), (.hufAcRefine, 5),
       (.ariSeq, 6), (.ariDcFirst, 7), (.ariAcFirst, 8), (.ariDcRefine, 9), (.ariAcRefine, 10)] ∧
    (s.status.suspendCause, bits w 16 2) ∈ [(.none, 0), (.inputEmpty, 1), (.outputFull, 2), (.scanNeeded, 3)] ∧
    bits w 18 14 = 0) ∧
  (∀ s : State, ∃ f w, s.readCsr 0x002 = some f ∧ s.readCsr 0x004 = some w ∧
    (s.status.fault, f) ∈
      [(none, 0), (some .illegalCommand, 1), (some .badState, 2), (some .badHuffTable, 3), (some .noHuffTable, 4),
       (some .noArithTable, 5), (some .badProgression, 6), (some .badComponent, 7), (some .badSampling, 8),
       (some .badMcuSize, 9), (some .badDimension, 10), (some .outOfMemory, 11), (some .badDctCoef, 12),
       (some .huffMissingCode, 13), (some .badProbState, 14)] ∧
    (s.status.warnLast, w) ∈
      [(none, 0), (some .hitMarker, 1), (some .huffBadCode, 2), (some .arithBadCode, 3), (some .bogusProgression, 4),
       (some .notSequential, 5), (some .mustResync, 6), (some .extraneousData, 7)] ∧
    s.readCsr 0x003 = some (BitVec.ofNat 32 s.status.warnCount) ∧ s.readCsr 0x005 = some s.status.result ∧
    s.readCsr 0x006 = some s.status.discarded ∧ s.readCsr 0x007 = some (s.ent.unreadMarker.setWidth 32)) ∧
  ∀ s : State,
    let shows := fun (a n : Nat) => s.readCsr a = some (BitVec.ofNat 32 n)
    let showsPair := fun (a hi lo : Nat) => ∃ w, s.readCsr a = some w ∧ bits w 0 16 = lo % 2 ^ 16 ∧
      bits w 16 16 = hi % 2 ^ 16
    (shows 0x040 s.image.inputScanNumber.toNat ∧ shows 0x041 s.ctl.inputRow ∧ shows 0x042 s.ctl.outputRow ∧
      showsPair 0x043 s.ctl.mcuVert s.ctl.mcuCtr ∧ showsPair 0x044 (s.ent.nextRestart % 8) s.ent.restartsToGo ∧
      shows 0x045 s.ent.eobrun ∧ shows 0x046 s.ent.bitBuffer.length ∧ shows 0x048 s.ent.bitsLeft ∧
      shows 0x04F s.ent.putBuffer.toNat ∧ shows 0x059 s.ent.putBits) ∧
    (s.readCsr 0x047 = some s.ent.getBuffer ∧ s.readCsr 0x049 = some s.ent.c ∧ s.readCsr 0x04A = some s.ent.a ∧
      s.readCsr 0x04B = some s.ent.ct ∧ s.readCsr 0x04C = some s.ent.sc ∧ s.readCsr 0x04D = some s.ent.zc ∧
      s.readCsr 0x04E = some s.ent.buffer ∧ shows 0x058 s.ent.fixedBin.toNat) ∧
    (∀ i : Fin 4, s.readCsr (0x050 + i) = some s.ent.lastDc[i] ∧ shows (0x054 + i) s.ent.dcContext[i].toNat) ∧
    (∀ c < 10, showsPair (0x060 + c) (s.image.comp c).heightInBlocks (s.image.comp c).widthInBlocks) ∧
    shows 0x06A s.image.totalRows ∧ showsPair 0x06B s.scan.mcuRowsInScan s.scan.mcusPerRow ∧
    shows 0x06C s.scan.blocksInMcu

/-- A memory write the spec admits is read back, and no other element of any memory changes (`20_memory.md` R150, R151,
R169). -/
def Obligations.MemoryReadsBack : Prop :=
  ∀ (s : State) (sp : Space) (a : Nat) (v : Word), sp ≠ .dtbl → a < sp.size s.cfg → v.toNat < 2 ^ sp.width →
    Memory.wf s →
    ∃ t, hostMemWrite sp a v s = .next t ∧ hostMemRead sp a t = .next { t with reply := .word v } ∧
      (∀ sp' a', (sp', a') ≠ (sp, a) → t.readElement sp' a' = s.readElement sp' a') ∧
      t = { s with hspec := t.hspec, qtbl := t.qtbl, stats := t.stats, mcubuf := t.mcubuf, coef := t.coef }

/-- An access outside a space's range, to a `CSR` address that is not defined, or a write to a read-only register or to
`DTBL`, has no step (`20_memory.md` R151). -/
def Obligations.HostRefusals : Prop :=
  ∀ (s : State) (a : Nat) (v : Word),
    (configMask a = none → ¬readOnlyCsr a → a ≠ 0x008 →
      hostCsrWrite a v s = .refused .undefinedCsr ∧ hostCsrRead a s = .refused .undefinedCsr) ∧
    (readOnlyCsr a → hostCsrWrite a v s = .refused .readOnlyWrite) ∧
    (∀ sp, sp.size s.cfg ≤ a → hostMemWrite sp a v s = .refused .addressOutsideSpace ∧
      hostMemRead sp a s = .refused .addressOutsideSpace) ∧
    (a < Space.size s.cfg .dtbl → hostMemWrite .dtbl a v s = .refused .readOnlyWrite)

/-- The port operations of the host: bytes are appended to the input port and taken from its head, the output and IDCT
ports are emptied (`30_encoding.md` R214; `20_memory.md` R162, R164, R165). -/
def Obligations.PortOperations : Prop :=
  ∀ (s : State) (bs : List Byte) (n : Nat),
    hostAct (.inPush bs) s = .next { s with inPort := s.inPort ++ bs } ∧
    (n ≤ s.inPort.length →
      hostAct (.inTake n) s = .next { s with inPort := s.inPort.drop n, reply := .bytes (s.inPort.take n) }) ∧
    hostAct .outPop s = .next { s with outPort := [], reply := .bytes s.outPort } ∧
    hostAct .idctPop s = .next { s with idctPort := [], reply := .records s.idctPort }

/-! ## Invariants of every step -/

/-- Every step keeps the memories in canonical form. -/
def Obligations.MemoryCanonical : Prop := ∀ s t : State, Memory.wf s → step s = .next t → Memory.wf t

/-- Every step keeps the ranges the spec gives running state and reserved fields (`10_state.md` §3, R65, R77, R81;
`41_huffman_tables.md` R421). -/
def Obligations.RangesKept : Prop := ∀ s t : State, s.rangesOk → step s = .next t → t.rangesOk

/-- Every step keeps the shape of an active scan (`10_state.md` R72, R73; `44_coef_controller.md` R702, R703). -/
def Obligations.ScanShapeKept : Prop := ∀ s t : State, s.scanShape → step s = .next t → t.scanShape

/-- The invariants hold after reset. -/
def Obligations.InvariantsAtReset : Prop :=
  Memory.wf State.reset ∧ State.reset.rangesOk ∧ State.reset.scanShape ∧ State.reset.ent.encoderOk
end

