-- ==== Sys2Proof/Laws/Cells.lean ====
section
/-! SUPPORT. The laws of tables of cells: read after write, and that every operation keeps the canonical form. -/

namespace Sys2Proof.Machine

variable {α : Type} [DecidableEq α] {d : α} {m : Cells α}

theorem Cells.wf_nil : Cells.wf d ([] : Cells α) := by simp [Cells.wf]

theorem Cells.wf_cons {k : Nat} {v : α} {t : Cells α} :
    Cells.wf d ((k, v) :: t) ↔ (∀ c ∈ t, k < c.1) ∧ v ≠ d ∧ Cells.wf d t := by
  simp only [Cells.wf, List.pairwise_cons, List.mem_cons, forall_eq_or_imp]
  exact ⟨fun ⟨⟨a, b⟩, c, e⟩ => ⟨a, c, b, e⟩, fun ⟨a, c, b, e⟩ => ⟨⟨a, b⟩, c, e⟩⟩

omit [DecidableEq α] in
/-- A key below every listed key reads as the background. -/
theorem Cells.read_of_lt {a : Nat} : ∀ {m : Cells α}, (∀ c ∈ m, a < c.1) → Cells.read d m a = d
  | [], _ => rfl
  | (k, v) :: t, h => by
    have hk : a < k := h (k, v) (by simp)
    simp only [Cells.read, if_neg (Nat.ne_of_gt hk)]
    exact Cells.read_of_lt fun c hc => h c (by simp [hc])

/-- A write leaves every other key alone. -/
theorem Cells.read_write_other {a b : Nat} (v : α) (hab : b ≠ a) :
    ∀ {m : Cells α}, Cells.read d (Cells.write d m a v) b = Cells.read d m b
  | [] => by
    by_cases hv : v = d <;> simp [Cells.write, Cells.read, hv, Ne.symm hab]
  | (k, x) :: t => by
    unfold Cells.write
    by_cases h1 : a < k
    · by_cases hv : v = d <;> simp [h1, hv, Cells.read, Ne.symm hab]
    · by_cases h2 : a = k
      · subst h2
        by_cases hv : v = d <;> simp [hv, Cells.read, Ne.symm hab]
      · simp only [if_neg h1, if_neg h2, Cells.read]
        rw [Cells.read_write_other v hab]

/-- A read after a write to the same key gives the value written. -/
theorem Cells.read_write_same {a : Nat} (v : α) :
    ∀ {m : Cells α}, Cells.wf d m → Cells.read d (Cells.write d m a v) a = v
  | [], _ => by
    by_cases hv : v = d <;> simp [Cells.write, Cells.read, hv]
  | (k, x) :: t, h => by
    obtain ⟨hk, -, ht⟩ := Cells.wf_cons.1 h
    unfold Cells.write
    by_cases h1 : a < k
    · by_cases hv : v = d
      · subst hv
        simp only [h1, if_true]
        exact Cells.read_of_lt (by
          intro c hc
          rcases List.mem_cons.1 hc with rfl | hc
          · exact h1
          · exact Nat.lt_trans h1 (hk c hc))
      · simp [h1, hv, Cells.read]
    · by_cases h2 : a = k
      · subst h2
        by_cases hv : v = d
        · subst hv
          simp only [Nat.lt_irrefl, if_false, if_true]
          exact Cells.read_of_lt hk
        · simp [hv, Cells.read]
      · simp only [if_neg h1, if_neg h2, Cells.read, if_neg (Ne.symm h2)]
        exact Cells.read_write_same v ht

theorem Cells.read_write {a b : Nat} (v : α) (h : Cells.wf d m) :
    Cells.read d (Cells.write d m a v) b = if b = a then v else Cells.read d m b := by
  by_cases hab : b = a
  · subst hab; simp [Cells.read_write_same v h]
  · simp [hab, Cells.read_write_other v hab]

/-- Every cell of the table after a write is an old one or the new one. -/
theorem Cells.mem_write {a : Nat} {v : α} {c : Nat × α} :
    ∀ {m : Cells α}, c ∈ Cells.write d m a v → c ∈ m ∨ (c = (a, v) ∧ v ≠ d)
  | [] => by
    unfold Cells.write
    by_cases hv : v = d <;> simp [hv]
  | (k, x) :: t => by
    unfold Cells.write
    by_cases h1 : a < k
    · by_cases hv : v = d
      · simp only [h1, hv, if_true]
        exact Or.inl
      · simpa [h1, hv] using fun h => Or.symm h
    · by_cases h2 : a = k
      · subst h2
        by_cases hv : v = d
        · simpa [hv] using Or.inr
        · simp only [Nat.lt_irrefl, if_false, if_true, hv, List.mem_cons, ne_eq, not_false_eq_true, and_true]
          rintro (h | h)
          · exact .inr h
          · exact .inl (.inr h)
      · simp only [if_neg h1, if_neg h2, List.mem_cons]
        rintro (rfl | h)
        · exact .inl (.inl rfl)
        · exact (Cells.mem_write h).imp .inr id

/-- A write keeps the canonical form. -/
theorem Cells.wf_write {a : Nat} (v : α) : ∀ {m : Cells α}, Cells.wf d m → Cells.wf d (Cells.write d m a v)
  | [], _ => by
    by_cases hv : v = d <;> simp [Cells.write, hv, Cells.wf]
  | (k, x) :: t, h => by
    obtain ⟨hk, hx, ht⟩ := Cells.wf_cons.1 h
    unfold Cells.write
    by_cases h1 : a < k
    · by_cases hv : v = d
      · simpa [h1, hv] using h
      · simp only [h1, hv, if_true, if_false]
        refine Cells.wf_cons.2 ⟨fun c hc => ?_, hv, h⟩
        rcases List.mem_cons.1 hc with rfl | hc
        · exact h1
        · exact Nat.lt_trans h1 (hk c hc)
    · by_cases h2 : a = k
      · subst h2
        by_cases hv : v = d
        · simpa [hv] using ht
        · simpa [hv] using Cells.wf_cons.2 ⟨hk, hv, ht⟩
      · simp only [if_neg h1, if_neg h2]
        refine Cells.wf_cons.2 ⟨fun c hc => ?_, hx, Cells.wf_write v ht⟩
        rcases Cells.mem_write hc with hc | ⟨rfl, -⟩
        · exact hk c hc
        · exact Nat.lt_of_le_of_ne (Nat.le_of_not_lt h1) (Ne.symm h2)

theorem Cells.wf_writes (ws : List (Nat × α)) : ∀ {m : Cells α}, Cells.wf d m → Cells.wf d (Cells.writes d m ws) := by
  induction ws with
  | nil => exact fun h => h
  | cons w ws ih => exact fun h => ih (Cells.wf_write w.2 h)

omit [DecidableEq α] in
theorem Cells.writes_cons [DecidableEq α] (w : Nat × α) (ws : List (Nat × α)) :
    Cells.writes d m (w :: ws) = Cells.writes d (Cells.write d m w.1 w.2) ws := rfl

/-- A key none of the writes names reads as before. -/
theorem Cells.read_writes_other {a : Nat} : ∀ {ws : List (Nat × α)} {m : Cells α}, (∀ w ∈ ws, w.1 ≠ a) →
    Cells.read d (Cells.writes d m ws) a = Cells.read d m a
  | [], _, _ => rfl
  | w :: ws, m, h => by
    rw [Cells.writes_cons, Cells.read_writes_other fun x hx => h x (by simp [hx]),
      Cells.read_write_other _ (Ne.symm (h w (by simp)))]

/-- Where every write of a key agrees on its value, that value is read. -/
theorem Cells.read_writes_agree {a : Nat} {v : α} : ∀ {ws : List (Nat × α)} {m : Cells α}, Cells.wf d m →
    (∀ w ∈ ws, w.1 = a → w.2 = v) → (∃ w ∈ ws, w.1 = a) → Cells.read d (Cells.writes d m ws) a = v
  | [], _, _, _, h => by simp at h
  | w :: ws, m, hm, hall, hex => by
    rw [Cells.writes_cons]
    by_cases hlater : ∃ x ∈ ws, x.1 = a
    · exact Cells.read_writes_agree (Cells.wf_write _ hm) (fun x hx => hall x (by simp [hx])) hlater
    · rw [Cells.read_writes_other fun x hx hxa => hlater ⟨x, hx, hxa⟩]
      obtain ⟨x, hx, hxa⟩ := hex
      rcases List.mem_cons.1 hx with rfl | hx
      · rw [← hxa, Cells.read_write_same _ hm, hall x (by simp) hxa]
      · exact absurd ⟨x, hx, hxa⟩ hlater

omit [DecidableEq α] in
theorem Cells.read_clear_outside {lo n a : Nat} (h : a < lo ∨ lo + n ≤ a) :
    ∀ {m : Cells α}, Cells.read d (Cells.clear m lo n) a = Cells.read d m a
  | [] => rfl
  | (k, v) :: t => by
    have ih := Cells.read_clear_outside h (m := t)
    unfold Cells.clear at ih ⊢
    by_cases hk : k < lo ∨ lo + n ≤ k
    · rw [List.filter_cons_of_pos (by simpa using hk)]
      simp only [Cells.read, ih]
    · rw [List.filter_cons_of_neg (by simpa using hk), ih]
      have hne : k ≠ a := by omega
      simp [Cells.read, hne]

omit [DecidableEq α] in
theorem Cells.read_clear_inside {lo n a : Nat} (h1 : lo ≤ a) (h2 : a < lo + n) :
    ∀ {m : Cells α}, Cells.read d (Cells.clear m lo n) a = d
  | [] => rfl
  | (k, v) :: t => by
    have ih := Cells.read_clear_inside h1 h2 (m := t)
    unfold Cells.clear at ih ⊢
    by_cases hk : k < lo ∨ lo + n ≤ k
    · rw [List.filter_cons_of_pos (by simpa using hk)]
      have hne : k ≠ a := by omega
      simp only [Cells.read, ih, if_neg hne]
    · rw [List.filter_cons_of_neg (by simpa using hk), ih]

theorem Cells.wf_clear (lo n : Nat) (h : Cells.wf d m) : Cells.wf d (Cells.clear m lo n) :=
  ⟨h.1.filter _, fun c hc => h.2 c ((List.mem_filter.1 hc).1)⟩

omit [DecidableEq α] in
theorem Cells.mem_slice {lo n : Nat} {c : Nat × α} (h : c ∈ Cells.slice m lo n) :
    ∃ x ∈ m, lo ≤ x.1 ∧ x.1 < lo + n ∧ c = (x.1 - lo, x.2) := by
  simp only [Cells.slice, List.mem_map, List.mem_filter, Bool.and_eq_true, decide_eq_true_eq] at h
  obtain ⟨x, ⟨hx, h1, h2⟩, rfl⟩ := h
  exact ⟨x, hx, h1, h2, rfl⟩

theorem Cells.wf_slice (lo n : Nat) : ∀ {m : Cells α}, Cells.wf d m → Cells.wf d (Cells.slice m lo n)
  | [], h => h
  | (k, v) :: t, h => by
    obtain ⟨hk, hv, ht⟩ := Cells.wf_cons.1 h
    have ih := Cells.wf_slice lo n ht
    by_cases hin : lo ≤ k ∧ k < lo + n
    · have hs : Cells.slice ((k, v) :: t) lo n = (k - lo, v) :: Cells.slice t lo n := by
        simp [Cells.slice, hin.1, hin.2]
      rw [hs]
      refine Cells.wf_cons.2 ⟨fun c hc => ?_, hv, ih⟩
      obtain ⟨x, hx, h1, -, rfl⟩ := Cells.mem_slice hc
      have := hk x hx
      simp only
      omega
    · have hs : Cells.slice ((k, v) :: t) lo n = Cells.slice t lo n := by
        unfold Cells.slice
        rw [List.filter_cons_of_neg (by simpa using hin)]
      rw [hs]; exact ih

omit [DecidableEq α] in
/-- A slice reads as the part of the table it was taken from. -/
theorem Cells.read_slice {lo n a : Nat} (h : a < n) :
    ∀ {m : Cells α}, Cells.read d (Cells.slice m lo n) a = Cells.read d m (lo + a)
  | [] => rfl
  | (k, v) :: t => by
    have ih := Cells.read_slice (lo := lo) h (m := t)
    by_cases hin : lo ≤ k ∧ k < lo + n
    · have hs : Cells.slice ((k, v) :: t) lo n = (k - lo, v) :: Cells.slice t lo n := by
        simp [Cells.slice, hin.1, hin.2]
      rw [hs]
      simp only [Cells.read, ih]
      by_cases hka : k = lo + a
      · simp [hka]
      · have : k - lo ≠ a := by omega
        simp [hka, this]
    · have hs : Cells.slice ((k, v) :: t) lo n = Cells.slice t lo n := by
        unfold Cells.slice
        rw [List.filter_cons_of_neg (by simpa using hin)]
      rw [hs, ih]
      have : k ≠ lo + a := by omega
      simp [Cells.read, this]

end Sys2Proof.Machine
end

