-- ==== Sys2Proof/Laws/Proc.lean ====
section
/-! SUPPORT. How a procedure runs, step by step, and what a command answers from the end of its body. -/

namespace Sys2Proof.Machine

variable {α β : Type}

/-! ## Running a procedure -/

@[simp] theorem run_pure (a : α) (s : State) : (pure a : Proc α) s = .ok a s := rfl
@[simp] theorem run_get (s : State) : (get : Proc State) s = .ok s s := rfl
@[simp] theorem run_set (t s : State) : (set t : Proc PUnit) s = .ok ⟨⟩ t := rfl
@[simp] theorem run_modify (f : State → State) (s : State) : (modify f : Proc PUnit) s = .ok ⟨⟩ (f s) := rfl
@[simp] theorem run_throw (e : Stop) (s : State) : (throw e : Proc α) s = .error e s := rfl
@[simp] theorem run_raise (c : FaultCode) (s : State) : (raise c : Proc α) s = .error (.raise c) s := rfl
@[simp] theorem run_suspend (c : SuspendCause) (s : State) : (suspend c : Proc α) s = .error (.suspend c) s := rfl

theorem run_bind (p : Proc α) (f : α → Proc β) (s : State) :
    (p >>= f) s = match p s with
      | .ok a t => f a t
      | .error e t => .error e t := by
  show EStateM.bind p f s = _
  unfold EStateM.bind
  cases p s <;> rfl

theorem run_bind_ok {p : Proc α} {f : α → Proc β} {s t : State} {a : α} (h : p s = .ok a t) :
    (p >>= f) s = f a t := by rw [run_bind, h]

theorem run_bind_error {p : Proc α} {f : α → Proc β} {s t : State} {e : Stop} (h : p s = .error e t) :
    (p >>= f) s = .error e t := by rw [run_bind, h]

@[simp] theorem run_get_bind (f : State → Proc β) (s : State) : (get >>= f) s = f s s := run_bind_ok rfl
@[simp] theorem run_pure_bind (a : α) (f : α → Proc β) (s : State) : (pure a >>= f) s = f a s := run_bind_ok rfl
@[simp] theorem run_set_bind (t : State) (f : PUnit → Proc β) (s : State) : (set t >>= f) s = f ⟨⟩ t := run_bind_ok rfl
@[simp] theorem run_modify_bind (g : State → State) (f : PUnit → Proc β) (s : State) :
    (modify g >>= f) s = f ⟨⟩ (g s) := run_bind_ok rfl

@[simp] theorem run_modStatus (f : Status → Status) (s : State) :
    modStatus f s = .ok ⟨⟩ { s with status := f s.status } := rfl
@[simp] theorem run_modImage (f : Image → Image) (s : State) :
    modImage f s = .ok ⟨⟩ { s with image := f s.image } := rfl
@[simp] theorem run_modScan (f : Scan → Scan) (s : State) : modScan f s = .ok ⟨⟩ { s with scan := f s.scan } := rfl
@[simp] theorem run_modEnt (f : Entropy → Entropy) (s : State) : modEnt f s = .ok ⟨⟩ { s with ent := f s.ent } := rfl
@[simp] theorem run_modCtl (f : Ctl → Ctl) (s : State) : modCtl f s = .ok ⟨⟩ { s with ctl := f s.ctl } := rfl

@[simp] theorem run_modStatus_bind (f : Status → Status) (g : Unit → Proc β) (s : State) :
    (modStatus f >>= g) s = g ⟨⟩ { s with status := f s.status } := run_bind_ok rfl
@[simp] theorem run_modImage_bind (f : Image → Image) (g : Unit → Proc β) (s : State) :
    (modImage f >>= g) s = g ⟨⟩ { s with image := f s.image } := run_bind_ok rfl
@[simp] theorem run_modScan_bind (f : Scan → Scan) (g : Unit → Proc β) (s : State) :
    (modScan f >>= g) s = g ⟨⟩ { s with scan := f s.scan } := run_bind_ok rfl
@[simp] theorem run_modEnt_bind (f : Entropy → Entropy) (g : Unit → Proc β) (s : State) :
    (modEnt f >>= g) s = g ⟨⟩ { s with ent := f s.ent } := run_bind_ok rfl
@[simp] theorem run_modCtl_bind (f : Ctl → Ctl) (g : Unit → Proc β) (s : State) :
    (modCtl f >>= g) s = g ⟨⟩ { s with ctl := f s.ctl } := run_bind_ok rfl

theorem run_ite (c : Prop) [Decidable c] (p q : Proc α) (s : State) :
    (if c then p else q) s = if c then p s else q s := by split <;> rfl

@[simp] theorem run_demand_true (c : FaultCode) (s : State) : demand true c s = .ok ⟨⟩ s := rfl
@[simp] theorem run_demand_false (c : FaultCode) (s : State) : demand false c s = .error (.raise c) s := rfl

theorem run_demand_bind (b : Bool) (c : FaultCode) (f : Unit → Proc β) (s : State) :
    (demand b c >>= f) s = if b then f ⟨⟩ s else .error (.raise c) s := by
  cases b <;> rfl

@[simp] theorem run_outByte (v : Nat) (s : State) :
    outByte v s = .ok ⟨⟩ { s with
      outPort := s.outPort ++ [if v < 256 then BitVec.ofNat 8 v else Config.unstatedByte v] } := rfl

@[simp] theorem run_outByte_bind (v : Nat) (g : Unit → Proc β) (s : State) :
    (outByte v >>= g) s = g ⟨⟩ { s with
      outPort := s.outPort ++ [if v < 256 then BitVec.ofNat 8 v else Config.unstatedByte v] } := run_bind_ok rfl

@[simp] theorem run_idctOut (r : IdctRecord) (s : State) :
    idctOut r s = .ok ⟨⟩ { s with idctPort := s.idctPort ++ [r] } := rfl

@[simp] theorem run_setCoef (ref : BlockRef) (p : Nat) (v : Int) (s : State) :
    setCoef ref p v s = .ok ⟨⟩ (s.withCoef ref p (trunc16 v)) := rfl

@[simp] theorem run_getCoef (ref : BlockRef) (p : Nat) (s : State) :
    getCoef ref p s = .ok (s.coefAt ref p).toInt s := rfl

@[simp] theorem run_warn (w : Warning) (s : State) :
    warn w s = .ok ⟨⟩ { s with status := { s.status with
      warnCount := min (s.status.warnCount + 1) 0xFFFFFFFF, warnLast := some w } } := rfl

@[simp] theorem run_warn_bind (w : Warning) (g : Unit → Proc β) (s : State) :
    (warn w >>= g) s = g ⟨⟩ { s with status := { s.status with
      warnCount := min (s.status.warnCount + 1) 0xFFFFFFFF, warnLast := some w } } := run_bind_ok rfl

/-- `in_byte()` on a port that holds a byte. -/
theorem run_inByte_cons {s : State} {b : Byte} {t : List Byte} (h : s.inPort = b :: t) :
    inByte s = .ok b { s with inPort := t } := by
  unfold inByte
  simp only [run_get_bind, h]
  rfl

/-- `in_byte()` on an empty port suspends. -/
theorem run_inByte_nil {s : State} (h : s.inPort = []) : inByte s = .error (.suspend .inputEmpty) s := by
  unfold inByte
  simp only [run_get_bind, h]
  rfl

theorem run_checkBlocks {blks : List McuBlock} {s : State} (h : blks.all (fun b => b.ref.inRange s.cfg) = true) :
    checkBlocks blks s = .ok ⟨⟩ s := by
  unfold checkBlocks
  rw [run_get_bind, if_pos h]
  rfl

/-! ## The space check (`20_memory.md` R164) -/

/-- The output port of `t` holds no more than the space offered beyond what `s` held. -/
def HasRoom (s t : State) : Prop := ∀ cap, t.outCapacity = some cap → t.outPort.length - s.outPort.length ≤ cap

theorem run_checkSpace_ok {n : Nat} {t : State} (h : ∀ cap, t.outCapacity = some cap → t.outPort.length - n ≤ cap) :
    checkSpace n t = .ok ⟨⟩ t := by
  unfold checkSpace
  rw [run_get_bind]
  cases hc : t.outCapacity with
  | none => rfl
  | some cap =>
    show (if t.outPort.length - n ≤ cap then pure () else suspend .outputFull : Proc Unit) t = _
    rw [if_pos (h cap hc)]
    rfl

theorem run_withSpace_ok {p : Proc α} {s t : State} {a : α} (h : p s = .ok a t) (hr : HasRoom s t) :
    withSpace p s = .ok a t := by
  unfold withSpace
  rw [run_get_bind, run_bind_ok h, run_bind_ok (run_checkSpace_ok hr)]
  rfl

theorem run_withSpace_error {p : Proc α} {s t : State} {e : Stop} (h : p s = .error e t) :
    withSpace p s = .error e t := by
  unfold withSpace
  rw [run_get_bind, run_bind_error h]

/-! ## What a command answers -/

theorem command_faulted {body : Proc ResultKind} {s : State} (h : s.status.fault.isSome) :
    command body s = .next s := by simp [command, h]

theorem command_ok {body : Proc ResultKind} {s t : State} {k : ResultKind} (hf : s.status.fault = none)
    (h : body s = .ok k t) : command body s = .next (t.finish k) := by simp [command, hf, h]

theorem command_raise {body : Proc ResultKind} {s t : State} {c : FaultCode} (hf : s.status.fault = none)
    (h : body s = .error (.raise c) t) : command body s = .next (t.raiseFault c) := by simp [command, hf, h]

theorem command_suspend {body : Proc ResultKind} {s t : State} {c : SuspendCause} (hf : s.status.fault = none)
    (h : body s = .error (.suspend c) t) : command body s = .next (t.suspended c) := by simp [command, hf, h]

/-- Everything a command can answer that is a next state. -/
theorem command_cases {body : Proc ResultKind} {s t : State} (h : command body s = .next t) :
    (s.status.fault.isSome ∧ t = s) ∨
    (s.status.fault = none ∧
      ((∃ k u, body s = .ok k u ∧ t = u.finish k) ∨
       (∃ c u, body s = .error (.raise c) u ∧ t = u.raiseFault c) ∨
       (∃ c u, body s = .error (.suspend c) u ∧ t = u.suspended c))) := by
  unfold command at h
  by_cases hf : s.status.fault.isSome
  · rw [if_pos hf] at h
    exact .inl ⟨hf, (Host.Outcome.next.inj h).symm⟩
  · rw [if_neg hf] at h
    refine .inr ⟨by simpa using hf, ?_⟩
    cases hb : body s with
    | ok k u =>
      rw [hb] at h
      exact .inl ⟨k, u, rfl, (Host.Outcome.next.inj h).symm⟩
    | error e u =>
      rw [hb] at h
      cases e with
      | raise c => exact .inr (.inl ⟨c, u, rfl, (Host.Outcome.next.inj h).symm⟩)
      | suspend c => exact .inr (.inr ⟨c, u, rfl, (Host.Outcome.next.inj h).symm⟩)
      | stop f => cases h

theorem run_atomically_ok {p : Proc α} {s t : State} {a : α} (h : p s = .ok a t) : atomically p s = .ok a t := by
  simp [atomically, h]

theorem run_atomically_raise {p : Proc α} {s t : State} {c : FaultCode} (h : p s = .error (.raise c) t) :
    atomically p s = .error (.raise c) t := by simp [atomically, h]

theorem run_atomically_stop {p : Proc α} {s t : State} {f : Fault} (h : p s = .error (.stop f) t) :
    atomically p s = .error (.stop f) t := by simp [atomically, h]

/-- A suspension undoes the step (`45_scan_interface.md` R812). -/
theorem run_atomically_suspend {p : Proc α} {s t : State} {c : SuspendCause} (h : p s = .error (.suspend c) t) :
    atomically p s = .error (.suspend c) s := by simp [atomically, h]

/-- Everything an atomic step can do. -/
theorem atomically_cases (p : Proc α) (s : State) :
    (∃ a t, p s = .ok a t ∧ atomically p s = .ok a t) ∨
    (∃ c t, p s = .error (.raise c) t ∧ atomically p s = .error (.raise c) t) ∨
    (∃ c t, p s = .error (.suspend c) t ∧ atomically p s = .error (.suspend c) s) ∨
    (∃ f t, p s = .error (.stop f) t ∧ atomically p s = .error (.stop f) t) := by
  unfold atomically
  cases h : p s with
  | ok a t => exact .inl ⟨a, t, rfl, rfl⟩
  | error e t =>
    cases e with
    | raise c => exact .inr (.inl ⟨c, t, rfl, rfl⟩)
    | suspend c => exact .inr (.inr (.inl ⟨c, t, rfl, rfl⟩))
    | stop f => exact .inr (.inr (.inr ⟨f, t, rfl, rfl⟩))

/-- A single-step command whose body ends, with room for its output. -/
theorem singleStep_ok {body : Proc Unit} {s t : State} (hf : s.status.fault = none) (h : body s = .ok ⟨⟩ t)
    (hr : HasRoom s t) : singleStep body s = .next (t.finish .done) := by
  unfold singleStep
  refine command_ok hf (run_atomically_ok (run_withSpace_ok ?_ hr))
  rw [run_bind_ok h]
  rfl

theorem singleStep_raise {body : Proc Unit} {s t : State} {c : FaultCode} (hf : s.status.fault = none)
    (h : body s = .error (.raise c) t) : singleStep body s = .next (t.raiseFault c) := by
  unfold singleStep
  exact command_raise hf (run_atomically_raise (run_withSpace_error (run_bind_error h)))

theorem singleStep_suspend {body : Proc Unit} {s t : State} {c : SuspendCause} (hf : s.status.fault = none)
    (h : body s = .error (.suspend c) t) : singleStep body s = .next (s.suspended c) := by
  unfold singleStep
  exact command_suspend hf (run_atomically_suspend (run_withSpace_error (run_bind_error h)))

theorem singleStep_faulted {body : Proc Unit} {s : State} (h : s.status.fault.isSome) :
    singleStep body s = .next s := command_faulted h

/-- Everything a single-step command can answer that is a next state: a suspension leaves the state it found. -/
theorem singleStep_cases {body : Proc Unit} {s t : State} (h : singleStep body s = .next t) :
    (s.status.fault.isSome ∧ t = s) ∨
    (s.status.fault = none ∧
      ((∃ u, body s = .ok ⟨⟩ u ∧ t = u.finish .done) ∨
       (∃ c u, body s = .error (.raise c) u ∧ t = u.raiseFault c) ∨
       (∃ c, t = s.suspended c))) := by
  unfold singleStep at h
  rcases command_cases h with h | ⟨hf, h⟩
  · exact .inl h
  refine .inr ⟨hf, ?_⟩
  cases hb : body s with
  | error e u =>
    have hw : withSpace (do body; pure ResultKind.done) s = .error e u := run_withSpace_error (run_bind_error hb)
    cases e with
    | raise c =>
      simp only [run_atomically_raise hw] at h
      simp only [reduceCtorEq, false_and, exists_false, EStateM.Result.error.injEq, Stop.raise.injEq, false_or,
        or_false] at h
      obtain ⟨c', u', ⟨rfl, rfl⟩, rfl⟩ := h
      exact .inr (.inl ⟨c, u, rfl, rfl⟩)
    | suspend c =>
      simp only [run_atomically_suspend hw] at h
      simp only [reduceCtorEq, false_and, exists_false, EStateM.Result.error.injEq, Stop.suspend.injEq,
        false_or] at h
      obtain ⟨c', u', ⟨rfl, rfl⟩, rfl⟩ := h
      exact .inr (.inr ⟨c, rfl⟩)
    | stop f =>
      simp only [run_atomically_stop hw, reduceCtorEq, false_and, exists_false, EStateM.Result.error.injEq,
        or_self] at h
  | ok a u =>
    by_cases hr : HasRoom s u
    · have hw : withSpace (do body; pure ResultKind.done) s = .ok .done u :=
        run_withSpace_ok (by rw [run_bind_ok hb]; rfl) hr
      simp only [run_atomically_ok hw] at h
      simp only [reduceCtorEq, false_and, exists_false, EStateM.Result.ok.injEq, or_false] at h
      obtain ⟨k, u', ⟨rfl, rfl⟩, rfl⟩ := h
      exact .inl ⟨u, rfl, rfl⟩
    · have hw : withSpace (do body; pure ResultKind.done) s = .error (.suspend .outputFull) u := by
        simp only [HasRoom, Classical.not_forall] at hr
        obtain ⟨cap, hc, hl⟩ := hr
        unfold withSpace checkSpace
        rw [run_get_bind, run_bind_ok (a := ResultKind.done) (t := u) (by rw [run_bind_ok hb]; rfl), run_bind,
          run_get_bind, hc]
        simp only [if_neg hl, run_suspend]
      simp only [run_atomically_suspend hw] at h
      simp only [reduceCtorEq, false_and, exists_false, EStateM.Result.error.injEq, Stop.suspend.injEq,
        false_or] at h
      obtain ⟨c', u', ⟨rfl, rfl⟩, rfl⟩ := h
      exact .inr (.inr ⟨_, rfl⟩)

end Sys2Proof.Machine
end

