-- ==== Sys2Proof/Laws/Frame.lean ====
section
/-! SUPPORT. Frames: a relation between the states before and after that every small write of a procedure respects.
What one lemma per procedure says of every frame (`Keeps`), each use of it (an invariant, a field left alone, a port
that only grows) gets by choosing the frame. -/

namespace Sys2Proof.Machine

/-- The ranges of the running state that `10_state.md` R77, R81 and `41_huffman_tables.md` R421 give, carried from one
entropy state to the next. -/
def EntOk (e e' : Entropy) : Prop :=
  (e.writerOk → e'.writerOk) ∧ (e.bitsLeft ≤ 23 → e'.bitsLeft ≤ 23) ∧
    (e.nextRestart < 8 → e'.nextRestart < 8)

/-- What a procedure may do to the status registers: warnings and `DISCARDED`. -/
def StatusOk (t t' : Status) : Prop :=
  t'.fault = t.fault ∧ t'.result = t.result ∧ t'.resultKind = t.resultKind ∧ t'.suspendCause = t.suspendCause ∧
    (t.warnCount ≤ 0xFFFFFFFF → t'.warnCount ≤ 0xFFFFFFFF)

/-- A relation that the writes of the entropy codecs respect; `writes` says which blocks may be written. -/
structure Frame where
  rel : State → State → Prop
  writes : BlockRef → Prop
  refl : ∀ s, rel s s
  trans : ∀ {s t u}, rel s t → rel t u → rel s u
  ent : ∀ s e, EntOk s.ent e → rel s { s with ent := e }
  status : ∀ s t, StatusOk s.status t → rel s { s with status := t }
  statsWrite : ∀ s a v, rel s { s with stats := Cells.write 0 s.stats a v }
  statsClear : ∀ s lo n, rel s { s with stats := Cells.clear s.stats lo n }
  takes : ∀ s l, l <:+ s.inPort → rel s { s with inPort := l }
  emits : ∀ s b, rel s { s with outPort := s.outPort ++ [b] }
  sends : ∀ s r, rel s { s with idctPort := s.idctPort ++ [r] }
  coef : ∀ s ref p v, writes ref → rel s (s.withCoef ref p v)

/-- `R` holds of the state a procedure ends in. An end that stops the machine leaves no state; a suspended end counts
where `b` is true (elsewhere the enclosing step undoes it). -/
def Ends {α : Type} (b : Bool) (R : State → Prop) : EStateM.Result Stop State α → Prop
  | .ok _ t => R t
  | .error (.raise _) t => R t
  | .error (.suspend _) t => b = true → R t
  | .error (.stop _) _ => True

/-- The procedure respects the frame from every state. -/
def Keeps (b : Bool) (F : Frame) {α : Type} (p : Proc α) : Prop := ∀ s, Ends b (F.rel s) (p s)

variable {b : Bool} {F : Frame} {α β : Type}

theorem Ends.imp {R Q : State → Prop} {r : EStateM.Result Stop State α} (h : Ends b R r) (hq : ∀ t, R t → Q t) :
    Ends b Q r := by
  cases r with
  | ok a t => exact hq t h
  | error e t =>
    cases e with
    | raise c => exact hq t h
    | suspend c => exact fun hb => hq t (h hb)
    | stop f => trivial

theorem Keeps.ok {p : Proc α} (h : Keeps b F p) {s t : State} {a : α} (hp : p s = .ok a t) : F.rel s t := by
  have := h s; rwa [hp] at this

theorem Keeps.raise {p : Proc α} (h : Keeps b F p) {s t : State} {c : FaultCode} (hp : p s = .error (.raise c) t) :
    F.rel s t := by
  have := h s; rwa [hp] at this

theorem Keeps.suspend {p : Proc α} (h : Keeps true F p) {s t : State} {c : SuspendCause}
    (hp : p s = .error (.suspend c) t) : F.rel s t := by
  have := h s; rw [hp] at this; exact this rfl

theorem Keeps.weaken {p : Proc α} (h : Keeps true F p) : Keeps b F p := by
  intro s
  have hs := h s
  cases e : p s with
  | ok a t => rwa [e] at hs
  | error x t =>
    rw [e] at hs
    cases x with
    | raise c => exact hs
    | suspend c => exact fun _ => hs rfl
    | stop f => trivial

/-! ## The shapes of a procedure -/

@[simp] theorem keeps_pure (a : α) : Keeps b F (pure a : Proc α) := fun s => F.refl s
@[simp] theorem keeps_stop (f : Fault) : Keeps b F (throw (.stop f) : Proc α) := fun _ => trivial
@[simp] theorem keeps_raise (c : FaultCode) : Keeps b F (raise c : Proc α) := fun s => F.refl s
@[simp] theorem keeps_suspend (c : SuspendCause) : Keeps b F (suspend c : Proc α) := fun s _ => F.refl s
@[simp] theorem keeps_get : Keeps b F (get : Proc State) := fun s => F.refl s

@[simp] theorem keeps_demand (x : Bool) (c : FaultCode) : Keeps b F (demand x c) := by
  cases x <;> exact fun s => F.refl s

theorem keeps_bind {p : Proc α} {f : α → Proc β} (hp : Keeps b F p) (hf : ∀ a, Keeps b F (f a)) :
    Keeps b F (p >>= f) := by
  intro s
  rw [run_bind]
  have h := hp s
  cases e : p s with
  | ok a t =>
    rw [e] at h
    exact (hf a t).imp fun u hu => F.trans h hu
  | error x t =>
    rw [e] at h
    cases x with
    | raise c => exact h
    | suspend c => exact h
    | stop f => trivial

/-- What follows a `get` may use that it reads the state it starts in. -/
theorem keeps_get_bind {f : State → Proc β} (hf : ∀ s, Ends b (F.rel s) (f s s)) : Keeps b F (get >>= f) := by
  intro s
  rw [run_get_bind]
  exact hf s

theorem keeps_ite {c : Prop} [Decidable c] {p q : Proc α} (hp : Keeps b F p) (hq : Keeps b F q) :
    Keeps b F (if c then p else q) := by split <;> assumption

theorem ends_ite {R : State → Prop} {c : Prop} [Decidable c] {p q : Proc α} {s : State} (hp : Ends b R (p s))
    (hq : Ends b R (q s)) : Ends b R ((if c then p else q) s) := by split <;> assumption

theorem keeps_modify {f : State → State} (h : ∀ s, F.rel s (f s)) : Keeps b F (modify f : Proc PUnit) := h

theorem keeps_modEnt {f : Entropy → Entropy} (h : ∀ e, EntOk e (f e)) : Keeps b F (modEnt f) :=
  fun s => F.ent s _ (h s.ent)

theorem keeps_modStatus {f : Status → Status} (h : ∀ t, StatusOk t (f t)) : Keeps b F (modStatus f) :=
  fun s => F.status s _ (h s.status)

theorem keeps_forM {body : β → Proc PUnit} : ∀ {l : List β}, (∀ x ∈ l, Keeps b F (body x)) → Keeps b F (l.forM body)
  | [], _ => keeps_pure _
  | x :: l, h => by
    rw [show (x :: l).forM body = (body x >>= fun _ => l.forM body) from rfl]
    exact keeps_bind (h x (by simp)) fun _ => keeps_forM fun y hy => h y (by simp [hy])

theorem keeps_forUpTo {n : Nat} {body : Nat → Proc Unit} (h : ∀ i, Keeps b F (body i)) : Keeps b F (forUpTo n body) :=
  keeps_forM fun i _ => h i

/-- An atomic step undoes its suspension, so its suspended end counts too. -/
theorem keeps_atomically {p : Proc α} (h : Keeps false F p) : Keeps b F (atomically p) := by
  intro s
  rcases atomically_cases p s with ⟨a, t, hp, ha⟩ | ⟨a, t, hp, ha⟩ | ⟨a, t, hp, ha⟩ | ⟨a, t, hp, ha⟩ <;> rw [ha]
  · exact h.ok hp
  · exact h.raise hp
  · exact fun _ => F.refl s
  · trivial

/-! ## Shared operations -/

theorem entOk_refl (e : Entropy) : EntOk e e := ⟨id, id, id⟩

@[simp] theorem keeps_warn (w : Warning) : Keeps b F (warn w) :=
  keeps_modStatus fun t => ⟨rfl, rfl, rfl, rfl, fun h => by simp only; omega⟩

@[simp] theorem keeps_outByte (v : Nat) : Keeps b F (outByte v) := fun s => F.emits s _
@[simp] theorem keeps_idctOut (r : IdctRecord) : Keeps b F (idctOut r) := fun s => F.sends s r
@[simp] theorem keeps_getCoef (ref : BlockRef) (p : Nat) : Keeps b F (getCoef ref p) := fun s => F.refl s

theorem keeps_setCoef {ref : BlockRef} (h : F.writes ref) (p : Nat) (v : Int) : Keeps b F (setCoef ref p v) :=
  fun s => F.coef s ref p _ h

@[simp] theorem keeps_setBin (x : Bin) (v : Byte) : Keeps b F (setBin x v) := by
  intro s
  cases x with
  | stats addr => exact F.statsWrite s addr v
  | fixed => exact F.ent s _ ⟨id, id, id⟩

@[simp] theorem keeps_inByte : Keeps b F inByte := by
  intro s
  cases h : s.inPort with
  | nil => rw [run_inByte_nil h]; exact fun _ => F.refl s
  | cons x t => rw [run_inByte_cons h]; exact F.takes s t (h ▸ List.suffix_cons x t)

theorem afterFill_suffix : ∀ {l t : List Byte} {x : Byte}, afterFill l = some (x, t) → t <:+ l
  | [], _, _, h => by simp [afterFill] at h
  | c :: l, t, x, h => by
    unfold afterFill at h
    split at h
    · exact (afterFill_suffix h).trans (List.suffix_cons c l)
    · simp only [Option.some.injEq, Prod.mk.injEq] at h
      exact h.2 ▸ List.suffix_cons c l

theorem run_inByteAfterFill_none {s : State} (h : afterFill s.inPort = none) :
    inByteAfterFill s = .error (.suspend .inputEmpty) s := by
  unfold inByteAfterFill
  rw [run_get_bind, h]
  rfl

theorem run_inByteAfterFill_some {s : State} {x : Byte} {t : List Byte} (h : afterFill s.inPort = some (x, t)) :
    inByteAfterFill s = .ok x { s with inPort := t } := by
  unfold inByteAfterFill
  rw [run_get_bind, h]
  rfl

@[simp] theorem keeps_inByteAfterFill : Keeps b F inByteAfterFill := by
  intro s
  cases h : afterFill s.inPort with
  | none => rw [run_inByteAfterFill_none h]; exact fun _ => F.refl s
  | some x => rw [run_inByteAfterFill_some (x := x.1) (t := x.2) h]; exact F.takes s x.2 (afterFill_suffix h)

@[simp] theorem keeps_checkBlocks (blks : List McuBlock) : Keeps b F (checkBlocks blks) := by
  refine keeps_get_bind fun s => ?_
  split
  · exact F.refl s
  · trivial

@[simp] theorem keeps_checkSpace (n : Nat) : Keeps b F (checkSpace n) := by
  refine keeps_get_bind fun s => ?_
  cases s.outCapacity with
  | none => exact F.refl s
  | some cap => exact keeps_ite (F := F) (b := b) (keeps_pure _) (keeps_suspend _) s

theorem keeps_withSpace {p : Proc α} (h : Keeps b F p) : Keeps b F (withSpace p) := by
  unfold withSpace
  exact keeps_bind keeps_get fun s => keeps_bind h fun a => keeps_bind (keeps_checkSpace _) fun _ => keeps_pure a

/-! ## Marker search (`42_huffman_entropy.md` R529 to R531) -/

theorem scanMarker_suffix : ∀ {l t : List Byte} {ff : Bool} {n n' : Nat} {x : Byte},
    scanMarker ff n l = some (n', x, t) → t <:+ l
  | [], _, ff, _, _, _, h => by cases ff <;> simp [scanMarker] at h
  | c :: l, t, ff, n, n', x, h => by
    have hs := List.suffix_cons c l
    cases ff <;> unfold scanMarker at h
    · split at h <;> exact (scanMarker_suffix h).trans hs
    · split at h
      · exact (scanMarker_suffix h).trans hs
      · split at h
        · exact (scanMarker_suffix h).trans hs
        · simp only [Option.some.injEq, Prod.mk.injEq] at h
          exact h.2.2 ▸ hs

@[simp] theorem keeps_nextMarker : Keeps b F nextMarker := by
  refine keeps_get_bind fun s => ?_
  cases h : scanMarker false 0 s.inPort with
  | none => exact fun _ => F.refl s
  | some x =>
    have hk : Keeps b F (if x.1 ≠ 0 then do
          modStatus fun st => { st with discarded := BitVec.ofNat 32 x.1 }
          warn .extraneousData
          modEnt fun e => { e with unreadMarker := x.2.1 }
        else modEnt fun e => { e with unreadMarker := x.2.1 }) :=
      keeps_ite (keeps_bind (keeps_modStatus fun t => ⟨rfl, rfl, rfl, rfl, id⟩) fun _ =>
        keeps_bind (keeps_warn _) fun _ => keeps_modEnt fun e => ⟨id, id, id⟩) (keeps_modEnt fun e => ⟨id, id, id⟩)
    exact (hk { s with inPort := x.2.2 }).imp fun u hu => F.trans (F.takes s x.2.2 (scanMarker_suffix h)) hu

@[simp] theorem keeps_resyncLoop (desired : Nat) : ∀ fuel, Keeps b F (resyncLoop desired fuel)
  | 0 => keeps_stop _
  | fuel + 1 => by
    unfold resyncLoop
    refine keeps_bind keeps_get fun s => keeps_ite (keeps_modEnt fun e => ⟨id, id, id⟩) (keeps_ite ?_ (keeps_pure _))
    exact keeps_bind keeps_nextMarker fun _ => keeps_resyncLoop desired fuel

@[simp] theorem keeps_resync (desired : Nat) : Keeps b F (resync desired) := by
  unfold resync
  exact keeps_bind (keeps_warn _) fun _ => keeps_bind keeps_get fun s => keeps_resyncLoop desired _

@[simp] theorem keeps_readRestartMarker : Keeps b F readRestartMarker := by
  unfold readRestartMarker
  dsimp only
  refine keeps_bind keeps_get fun s => keeps_ite (keeps_bind keeps_nextMarker fun _ => ?_) ?_
  all_goals
    refine keeps_bind keeps_get fun s => keeps_ite (keeps_bind (keeps_modEnt fun e => ⟨id, id, id⟩) fun _ => ?_)
      (keeps_bind (keeps_resync _) fun _ => ?_)
  all_goals exact keeps_modEnt fun e => ⟨id, id, fun _ => Nat.mod_lt _ (by decide)⟩

end Sys2Proof.Machine
end

