-- ==== Sys2Proof/Laws/Engine.lean ====
section
/-! SUPPORT. Every procedure of the QM coder and of the Huffman bit reader and writer respects every frame. -/

namespace Sys2Proof.Machine

variable {b : Bool} {F : Frame}

/-! ## QM coder (`40_qm_coder.md`) -/

@[simp] theorem keeps_freshenBin (x : Bin) : Keeps b F (freshenBin x) := by
  unfold freshenBin
  exact keeps_bind keeps_get fun s => keeps_ite (keeps_setBin _ _) (keeps_pure _)

@[simp] theorem keeps_initFixedBin : Keeps b F initFixedBin := by
  unfold initFixedBin
  refine keeps_bind keeps_get fun s => ?_
  cases s.cfg.fixedBinMode <;> simp

@[simp] theorem keeps_useBin (x : Bin) : Keeps b F (useBin x) := by
  unfold useBin
  refine keeps_bind (keeps_freshenBin x) fun _ => keeps_bind keeps_get fun s => ?_
  cases qeEntry s.cfg.fixedBinMode (idxOf (s.binByte x)) <;> simp

@[simp] theorem keeps_arithEncInit : Keeps b F arithEncInit := keeps_modEnt fun _ => ⟨id, id, id⟩

@[simp] theorem keeps_emitByte (v : Nat) : Keeps b F (emitByte v) := by
  unfold emitByte
  exact keeps_bind (keeps_outByte v) fun _ => keeps_ite (keeps_outByte 0) (keeps_pure _)

@[simp] theorem keeps_emitZeros : Keeps b F emitZeros := by
  unfold emitZeros
  exact keeps_bind keeps_get fun s => keeps_bind (keeps_forUpTo fun _ => keeps_outByte 0) fun _ =>
    keeps_modEnt fun _ => ⟨id, id, id⟩

@[simp] theorem keeps_flushCarry : Keeps b F flushCarry := by
  unfold flushCarry
  dsimp only
  refine keeps_bind keeps_get fun s => keeps_ite (keeps_bind keeps_emitZeros fun _ =>
    keeps_bind (keeps_emitByte _) fun _ => ?_) ?_ <;> exact keeps_modEnt fun _ => ⟨id, id, id⟩

@[simp] theorem keeps_flushHeld : Keeps b F flushHeld := by
  unfold flushHeld
  dsimp only
  refine keeps_bind keeps_get fun s => keeps_ite (keeps_bind (keeps_modEnt fun _ => ⟨id, id, id⟩) fun _ => ?_)
    (keeps_ite (keeps_bind keeps_emitZeros fun _ => keeps_bind (keeps_emitByte _) fun _ => ?_) ?_)
  all_goals
    exact keeps_ite (keeps_bind keeps_emitZeros fun _ => keeps_bind
      (keeps_forUpTo fun _ => keeps_bind (keeps_outByte _) fun _ => keeps_outByte _) fun _ =>
      keeps_modEnt fun _ => ⟨id, id, id⟩) (keeps_pure _)

@[simp] theorem keeps_encByteOut : Keeps b F encByteOut := by
  unfold encByteOut
  dsimp only
  refine keeps_bind keeps_get fun s => keeps_ite (keeps_bind keeps_flushCarry fun _ => ?_)
    (keeps_ite (keeps_bind (keeps_modEnt fun _ => ⟨id, id, id⟩) fun _ => ?_)
      (keeps_bind keeps_flushHeld fun _ => ?_))
  · exact keeps_bind (keeps_modEnt fun _ => ⟨id, id, id⟩) fun _ => keeps_modEnt fun _ => ⟨id, id, id⟩
  · exact keeps_modEnt fun _ => ⟨id, id, id⟩
  · exact keeps_bind (keeps_modEnt fun _ => ⟨id, id, id⟩) fun _ => keeps_modEnt fun _ => ⟨id, id, id⟩

@[simp] theorem keeps_encRenorm : ∀ fuel, Keeps b F (encRenorm fuel)
  | 0 => keeps_stop _
  | fuel + 1 => by
    have hk : ∀ s : State, Keeps b F (if 0x8000 ≤ s.ent.a.toNat then pure () else encRenorm fuel) := fun s =>
      keeps_ite (keeps_pure _) (keeps_encRenorm fuel)
    unfold encRenorm
    dsimp only
    refine keeps_bind (keeps_modEnt fun _ => ⟨id, id, id⟩) fun _ => keeps_bind keeps_get fun s =>
      keeps_ite (keeps_bind keeps_encByteOut fun _ => keeps_bind (keeps_modEnt fun _ => ⟨id, id, id⟩) fun _ => ?_) ?_
    all_goals exact keeps_bind keeps_get fun s => hk s

@[simp] theorem keeps_arithEncode (x : Bin) (v : Bool) : Keeps b F (arithEncode x v) := by
  unfold arithEncode
  dsimp only
  refine keeps_bind (keeps_useBin x) fun sq => keeps_bind (keeps_modEnt fun _ => ⟨id, id, id⟩) fun _ =>
    keeps_bind keeps_get fun s => keeps_ite (keeps_ite (keeps_bind (keeps_modEnt fun _ => ⟨id, id, id⟩) fun _ => ?_) ?_)
      (keeps_ite (keeps_pure _) (keeps_ite (keeps_bind (keeps_modEnt fun _ => ⟨id, id, id⟩) fun _ => ?_) ?_))
  all_goals exact keeps_bind (keeps_setBin _ _) fun _ => keeps_encRenorm _

@[simp] theorem keeps_arithEncFinish : Keeps b F arithEncFinish := by
  have hz : ∀ c : Prop, [Decidable c] → ∀ v : Nat, Keeps b F (if c then emitByte v else pure ()) := fun c _ v =>
    keeps_ite (keeps_emitByte v) (keeps_pure _)
  unfold arithEncFinish
  dsimp only
  refine keeps_bind (keeps_modEnt fun _ => ⟨id, id, id⟩) fun _ => keeps_bind keeps_get fun s =>
    keeps_ite (keeps_bind keeps_flushCarry fun _ => ?_) (keeps_bind keeps_flushHeld fun _ => ?_)
  all_goals
    exact keeps_ite (keeps_bind keeps_emitZeros fun _ => keeps_bind (keeps_emitByte _) fun _ => hz _ _) (keeps_pure _)

@[simp] theorem keeps_arithDecInit : Keeps b F arithDecInit := keeps_modEnt fun _ => ⟨id, id, id⟩

@[simp] theorem keeps_decByteIn : Keeps b F decByteIn := by
  unfold decByteIn
  refine keeps_bind keeps_get fun s => keeps_ite (keeps_pure _) (keeps_bind keeps_inByte fun d => keeps_ite (keeps_pure _)
    (keeps_bind keeps_inByteAfterFill fun m => keeps_ite (keeps_pure _)
      (keeps_bind (keeps_modEnt fun _ => ⟨id, id, id⟩) fun _ => keeps_pure _)))

@[simp] theorem keeps_decFetch : Keeps b F decFetch := by
  unfold decFetch
  exact keeps_bind keeps_decByteIn fun d => keeps_bind (keeps_modEnt fun _ => ⟨id, id, id⟩) fun _ =>
    keeps_bind keeps_get fun s => keeps_ite (keeps_bind (keeps_modEnt fun _ => ⟨id, id, id⟩) fun _ =>
      keeps_bind keeps_get fun s => keeps_ite (keeps_modEnt fun _ => ⟨id, id, id⟩) (keeps_pure _)) (keeps_pure _)

@[simp] theorem keeps_decRenorm : ∀ fuel, Keeps b F (decRenorm fuel)
  | 0 => keeps_stop _
  | fuel + 1 => by
    unfold decRenorm
    dsimp only
    refine keeps_bind keeps_get fun s => keeps_ite (keeps_pure _) (keeps_bind (keeps_modEnt fun _ => ⟨id, id, id⟩) fun _ =>
      keeps_bind keeps_get fun s => keeps_ite (keeps_bind keeps_decFetch fun _ => ?_) ?_)
    all_goals exact keeps_bind (keeps_modEnt fun _ => ⟨id, id, id⟩) fun _ => keeps_decRenorm fuel

@[simp] theorem keeps_arithDecode (x : Bin) : Keeps b F (arithDecode x) := by
  have hb : ∀ (v : Byte) (r : Bool), Keeps b F (do setBin x v; pure r) := fun v r =>
    keeps_bind (keeps_setBin x v) fun _ => keeps_pure r
  unfold arithDecode
  dsimp only
  refine keeps_bind (keeps_decRenorm _) fun _ => keeps_bind (keeps_useBin x) fun sq =>
    keeps_bind (keeps_modEnt fun _ => ⟨id, id, id⟩) fun _ => keeps_bind keeps_get fun s =>
      keeps_ite (keeps_bind (keeps_modEnt fun _ => ⟨id, id, id⟩) fun _ => keeps_ite (hb _ _) (hb _ _))
        (keeps_ite (keeps_ite (hb _ _) (hb _ _)) (keeps_pure _))

@[simp] theorem keeps_demandNoScan : Keeps b F demandNoScan := by
  unfold demandNoScan
  exact keeps_bind keeps_get fun s => keeps_demand _ _

/-! ## Bit reader (`41_huffman_tables.md` R420 to R424) -/

/-- What reading entropy bytes may change: a marker met, and the bytes taken. -/
def TookBytes (s t : State) : Prop :=
  ∃ m l, l <:+ s.inPort ∧ t = { s with ent := { s.ent with unreadMarker := m }, inPort := l }

/-- Everything `read_entropy_byte()` can do. -/
theorem readEntropyByte_cases (s : State) :
    (∃ c t, readEntropyByte s = .ok c t ∧ TookBytes s t) ∨
      ∃ t, readEntropyByte s = .error (.suspend .inputEmpty) t := by
  unfold readEntropyByte
  rw [run_get_bind]
  by_cases hm : s.ent.unreadMarker ≠ 0
  · rw [if_pos hm]
    exact .inl ⟨none, s, rfl, s.ent.unreadMarker, s.inPort, List.suffix_refl _, rfl⟩
  · rw [if_neg hm]
    cases hp : s.inPort with
    | nil => exact .inr ⟨s, run_bind_error (run_inByte_nil hp)⟩
    | cons c l =>
      rw [run_bind_ok (run_inByte_cons hp)]
      by_cases hc : c ≠ 0xFF
      · rw [if_pos hc]
        exact .inl ⟨some c, _, rfl, s.ent.unreadMarker, l, hp ▸ List.suffix_cons c l, rfl⟩
      · rw [if_neg hc]
        cases ha : afterFill l with
        | none => exact .inr ⟨{ s with inPort := l }, run_bind_error (run_inByteAfterFill_none ha)⟩
        | some x =>
          rw [run_bind_ok (run_inByteAfterFill_some (s := { s with inPort := l }) (x := x.1) (t := x.2) ha)]
          have hx : x.2 <:+ s.inPort := hp ▸ (afterFill_suffix (x := x.1) ha).trans (List.suffix_cons c l)
          by_cases h0 : x.1 = 0
          · rw [if_pos h0]
            exact .inl ⟨some 0xFF, _, rfl, s.ent.unreadMarker, x.2, hx, rfl⟩
          · rw [if_neg h0]
            exact .inl ⟨none, _, rfl, x.1, x.2, hx, rfl⟩

/-- What filling the bit queue may change, and how far the queue can grow. -/
def Filled (n : Nat) (s t : State) : Prop :=
  ∃ g k m l, l <:+ s.inPort ∧ k ≤ max s.ent.bitsLeft (n + 7) ∧
    t = { s with ent := { s.ent with getBuffer := g, bitsLeft := k, unreadMarker := m }, inPort := l }

theorem Filled.refl (n : Nat) (s : State) : Filled n s s :=
  ⟨s.ent.getBuffer, s.ent.bitsLeft, s.ent.unreadMarker, s.inPort, List.suffix_refl _, Nat.le_max_left .., rfl⟩

/-- Everything the loop of `fill` can do. -/
theorem fillLoop_cases (n : Nat) : ∀ (fuel : Nat) (s : State),
    (∃ t, fillLoop n fuel s = .ok ⟨⟩ t ∧ Filled n s t) ∨
      ∃ t, fillLoop n fuel s = .error (.suspend .inputEmpty) t
  | 0, s => .inl ⟨s, rfl, Filled.refl n s⟩
  | fuel + 1, s => by
    unfold fillLoop
    rw [run_get_bind]
    by_cases hn : s.ent.bitsLeft < n
    · rw [if_pos hn]
      rcases readEntropyByte_cases s with ⟨c, t, hr, m, l, hl, rfl⟩ | ⟨t, hr⟩
      · rw [run_bind_ok hr]
        cases c with
        | none =>
          exact .inl ⟨_, rfl, s.ent.getBuffer, s.ent.bitsLeft, m, l, hl, Nat.le_max_left .., rfl⟩
        | some v =>
          simp only [run_modEnt_bind]
          rcases fillLoop_cases n fuel { s with
              ent := { s.ent with
                getBuffer := (s.ent.getBuffer <<< 8) ||| BitVec.ofNat 32 v.toNat
                bitsLeft := s.ent.bitsLeft + 8
                unreadMarker := m }
              inPort := l } with ⟨t, ht, g, k, m', l', hl', hk, rfl⟩ | ⟨t, ht⟩
          · refine .inl ⟨_, ht, g, k, m', l', hl'.trans hl, ?_, rfl⟩
            simp only at hk
            omega
          · exact .inr ⟨t, ht⟩
      · exact .inr ⟨t, run_bind_error hr⟩
    · rw [if_neg hn]
      exact .inl ⟨s, rfl, Filled.refl n s⟩

theorem Filled.keeps {n : Nat} {s t : State} (h : Filled n s t) (hn : n ≤ 16) : F.rel s t := by
  obtain ⟨g, k, m, l, hl, hk, rfl⟩ := h
  refine F.trans (F.takes s l hl) (F.ent _ _ ⟨id, fun hb => ?_, id⟩)
  simp only at hb hk ⊢
  omega

@[simp] theorem keeps_fill_soft : Keeps false F (fill 8 false) := by
  intro s
  unfold fill
  rcases fillLoop_cases 8 8 s with ⟨t, ht, hf⟩ | ⟨t, ht⟩
  · rw [run_bind_ok ht, run_get_bind, if_neg (by simp)]
    exact hf.keeps (by decide)
  · rw [run_bind_error ht]
    intro h; cases h

/-- The state a hard `fill(n)` leaves from what the bytes filled (`41_huffman_tables.md` R421): where a marker left the
queue short, zero bits, and the warning the first time. -/
def State.padded (n : Nat) (t : State) : State :=
  if t.ent.bitsLeft < n then
    { t with
      ent := { t.ent with
        insufficient := true
        getBuffer := t.ent.getBuffer <<< (n - t.ent.bitsLeft)
        bitsLeft := n }
      status :=
        if t.ent.insufficient then t.status
        else { t.status with
          warnCount := min (t.status.warnCount + 1) 0xFFFFFFFF
          warnLast := some .hitMarker } }
  else t

theorem run_fill_hard {n : Nat} {s t : State} (h : fillLoop n n s = .ok ⟨⟩ t) : fill n true s = .ok ⟨⟩ (t.padded n) := by
  unfold fill State.padded
  rw [run_bind_ok h, run_get_bind]
  by_cases hn : t.ent.bitsLeft < n
  · simp only [hn, and_self, if_true]
    cases hi : t.ent.insufficient <;> simp [hi]
  · simp [hn]

/-- `get_bits(n)` once the bytes are in the queue: the oldest `n` bits, taken. -/
theorem run_getBits {n : Nat} {s t : State} (h : fillLoop n n s = .ok ⟨⟩ t) :
    getBits n s = .ok (peekBits (t.padded n).ent n) { t.padded n with ent := dropBits n (t.padded n).ent } := by
  unfold getBits
  rw [run_bind_ok (run_fill_hard h), run_get_bind, run_modEnt_bind]
  rfl

theorem run_getBits_suspend {n : Nat} {s t : State} {c : SuspendCause}
    (h : fillLoop n n s = .error (.suspend c) t) : getBits n s = .error (.suspend c) t := by
  unfold getBits fill
  exact run_bind_error (run_bind_error h)

/-- A queue that holds the bits is not filled. -/
theorem fillLoop_enough {n : Nat} {s : State} (h : n ≤ s.ent.bitsLeft) : ∀ fuel, fillLoop n fuel s = .ok ⟨⟩ s
  | 0 => rfl
  | fuel + 1 => by
    unfold fillLoop
    rw [run_get_bind, if_neg (by omega)]
    rfl

theorem padded_keeps {n : Nat} {s t : State} (h : Filled n s t) :
    F.rel s { t.padded n with ent := dropBits n (t.padded n).ent } := by
  obtain ⟨g, k, m, l, hl, hk, rfl⟩ := h
  refine F.trans (F.takes s l hl) ?_
  unfold State.padded
  simp only
  split
  · refine F.trans (F.status _ (if s.ent.insufficient then s.status
        else { s.status with
          warnCount := min (s.status.warnCount + 1) 0xFFFFFFFF
          warnLast := some .hitMarker }) ?_) (F.ent _ _ ⟨id, fun hb => ?_, id⟩)
    · split
      · exact ⟨rfl, rfl, rfl, rfl, id⟩
      · exact ⟨rfl, rfl, rfl, rfl, fun _ => Nat.min_le_right ..⟩
    · simp only [dropBits]
      omega
  · refine F.ent _ _ ⟨id, fun hb => ?_, id⟩
    simp only [dropBits] at hb ⊢
    omega

@[simp] theorem keeps_getBits (n : Nat) : Keeps false F (getBits n) := by
  intro s
  rcases fillLoop_cases n n s with ⟨t, ht, hf⟩ | ⟨t, ht⟩
  · rw [run_getBits ht]
    exact padded_keeps hf
  · rw [run_getBits_suspend ht]
    intro h; cases h

theorem keeps_dropBits (n : Nat) : Keeps b F (modEnt (dropBits n)) :=
  keeps_modEnt fun e => ⟨id, fun h => by simp only [dropBits]; omega, id⟩

@[simp] theorem keeps_slowDecode (d : DerivedTable) : ∀ fuel code l, Keeps false F (slowDecode d fuel code l)
  | 0, _, _ => keeps_pure _
  | fuel + 1, code, l => by
    unfold slowDecode
    exact keeps_ite (keeps_bind (keeps_getBits 1) fun x => keeps_slowDecode d fuel _ _) (keeps_pure _)

@[simp] theorem keeps_huffDecode (cls : TableClass) (t : Nat) : Keeps false F (huffDecode cls t) := by
  unfold huffDecode
  dsimp only
  exact keeps_bind keeps_fill_soft fun _ => keeps_bind keeps_get fun s =>
    keeps_ite (keeps_bind (keeps_dropBits _) fun _ => keeps_pure _) (keeps_bind (keeps_getBits _) fun first =>
      keeps_bind (keeps_slowDecode _ _ _ _) fun cl => keeps_ite (keeps_bind (keeps_warn _) fun _ => keeps_pure _)
        (keeps_pure _))

@[simp] theorem keeps_receiveExtend (n : Nat) : Keeps false F (receiveExtend n) := by
  unfold receiveExtend
  exact keeps_ite (keeps_pure _) (keeps_bind (keeps_getBits n) fun x => keeps_pure _)

@[simp] theorem keeps_readerReset : Keeps b F readerReset := keeps_modEnt fun _ => ⟨id, fun _ => Nat.zero_le _, id⟩

/-! ## Bit writer (`41_huffman_tables.md` R430 to R433) -/

theorem writerOk_stored {e : Entropy} {buf n : Nat} (hn : n < 8) (hb : 2 ^ (24 - n) ∣ buf) :
    Entropy.writerOk { e with putBuffer := BitVec.ofNat 24 buf, putBits := n } := by
  refine ⟨hn, Nat.mod_eq_zero_of_dvd ?_⟩
  rw [BitVec.toNat_ofNat]
  exact (Nat.dvd_mod_iff (Nat.pow_dvd_pow 2 (by omega))).2 hb

/-- The bits of `buf` below its `n` pending ones are 0 in every turn of the loop, so they are when it ends. -/
theorem ends_emitLoop : ∀ fuel buf n s, n < 8 + 8 * fuel → (s.ent.writerOk → 2 ^ (24 - n) ∣ buf) →
    Ends b (F.rel s) (emitLoop fuel buf n s)
  | 0, buf, n, s, h, hb => F.ent s _ ⟨fun hw => writerOk_stored (by omega) (hb hw), id, id⟩
  | fuel + 1, buf, n, s, h, hb => by
    unfold emitLoop
    dsimp only
    by_cases hn : 8 ≤ n
    · rw [if_pos hn]
      have hd : s.ent.writerOk → 2 ^ (24 - (n - 8)) ∣ buf * 2 ^ 8 % 2 ^ 24 := fun hw => by
        refine (Nat.dvd_mod_iff (Nat.pow_dvd_pow 2 (by omega))).2 ?_
        refine Nat.dvd_trans (Nat.pow_dvd_pow 2 (show 24 - (n - 8) ≤ 24 - n + 8 by omega)) ?_
        rw [Nat.pow_add]
        exact Nat.mul_dvd_mul_right (hb hw) _
      have go : ∀ t : State, t.ent = s.ent → F.rel s t →
          Ends b (F.rel s) (emitLoop fuel (buf * 2 ^ 8 % 2 ^ 24) (n - 8) t) := fun t ht hr =>
        (ends_emitLoop fuel _ _ t (by omega) (ht ▸ hd)).imp fun u hu => F.trans hr hu
      rw [run_outByte_bind]
      refine ends_ite ?_ (go _ rfl (F.emits s _))
      rw [run_outByte_bind]
      exact go _ rfl (F.trans (F.emits s _) (F.emits _ _))
    · rw [if_neg hn]
      exact F.ent s _ ⟨fun hw => writerOk_stored (by omega) (hb hw), id, id⟩

/-- A writer whose pending bits are left-aligned stays one. -/
@[simp] theorem keeps_emitBits (code size : Nat) : Keeps b F (emitBits code size) := by
  unfold emitBits
  refine keeps_ite (keeps_raise _) (keeps_get_bind fun s => ends_emitLoop _ _ _ s (by omega) fun hw => ?_)
  have h1 : 2 ^ (24 - (s.ent.putBits + size)) ∣ s.ent.putBuffer.toNat :=
    Nat.dvd_trans (Nat.pow_dvd_pow 2 (by omega)) (Nat.dvd_of_mod_eq_zero hw.2)
  exact Nat.dvd_of_mod_eq_zero (by
    rw [Nat.or_mod_two_pow, Nat.mul_mod_left, Nat.mod_eq_zero_of_dvd h1]; rfl)

@[simp] theorem keeps_emitSymbol (cls : TableClass) (t sym : Nat) : Keeps b F (emitSymbol cls t sym) := by
  unfold emitSymbol
  exact keeps_bind keeps_get fun s => keeps_emitBits _ _

@[simp] theorem keeps_writerReset : Keeps b F writerReset :=
  keeps_modEnt fun _ => ⟨fun _ => ⟨by simp only; omega, by simp⟩, id, id⟩

@[simp] theorem keeps_flushBits : Keeps b F flushBits := by
  unfold flushBits
  exact keeps_bind (keeps_emitBits _ _) fun _ => keeps_writerReset

end Sys2Proof.Machine
end

