-- ==== Sys2Proof/Laws/Codec.lean ====
section
/-! SUPPORT. Every procedure of the two entropy codecs respects every frame: a decoder where the frame lets it write
the blocks of the MCU, an encoder always (`43_arith_entropy.md` R627). -/

namespace Sys2Proof.Machine

variable {b : Bool} {F : Frame}

/-! ## Shared pieces -/

theorem keeps_onFirst {blks : List McuBlock} {p : McuBlock → Proc Unit} (h : ∀ x ∈ blks, Keeps b F (p x)) :
    Keeps b F (onFirst blks p) := by
  cases blks with
  | nil => exact keeps_pure _
  | cons x l => exact h x (by simp)

theorem keeps_withDc (i : Nat) (v : Entropy → Int) : Keeps b F (modEnt fun e => e.withDc i (v e)) :=
  keeps_modEnt fun _ => ⟨id, id, id⟩

theorem keeps_withContext (i v : Nat) : Keeps b F (modEnt fun e => e.withContext i v) :=
  keeps_modEnt fun _ => ⟨id, id, id⟩

theorem keeps_eobrun (f : Entropy → Nat) : Keeps b F (modEnt fun e => { e with eobrun := f e }) :=
  keeps_modEnt fun _ => ⟨id, id, id⟩

/-! ## Huffman decoders (`42_huffman_entropy.md`) -/

@[simp] theorem keeps_hufDecodeDc (x : McuBlock) : Keeps false F (hufDecodeDc x) := by
  unfold hufDecodeDc
  exact keeps_bind keeps_get fun s => keeps_bind (keeps_huffDecode _ _) fun n => keeps_bind (keeps_receiveExtend n)
    fun d => keeps_bind (keeps_withDc _ _) fun _ => keeps_bind keeps_get fun s => keeps_pure _

theorem keeps_hufSeqAcLoop {x : McuBlock} (hx : F.writes x.ref) (t : Nat) :
    ∀ fuel k, Keeps false F (hufSeqAcLoop x t fuel k)
  | 0, _ => keeps_pure _
  | fuel + 1, k => by
    unfold hufSeqAcLoop
    dsimp only
    exact keeps_ite (keeps_bind (keeps_huffDecode _ _) fun rs => keeps_ite (keeps_bind (keeps_receiveExtend _) fun v =>
      keeps_bind (keeps_setCoef hx _ _) fun _ => keeps_hufSeqAcLoop hx t fuel _) (keeps_ite (keeps_pure _)
        (keeps_hufSeqAcLoop hx t fuel _))) (keeps_pure _)

theorem keeps_hufSeqDecodeBlock {x : McuBlock} (hx : F.writes x.ref) : Keeps false F (hufSeqDecodeBlock x) := by
  unfold hufSeqDecodeBlock
  exact keeps_bind (keeps_hufDecodeDc x) fun dc => keeps_bind (keeps_setCoef hx _ _) fun _ =>
    keeps_bind keeps_get fun s => keeps_hufSeqAcLoop hx _ _ _

theorem keeps_hufDcFirstDecodeBlock {x : McuBlock} (hx : F.writes x.ref) :
    Keeps false F (hufDcFirstDecodeBlock x) := by
  unfold hufDcFirstDecodeBlock
  exact keeps_bind (keeps_hufDecodeDc x) fun dc => keeps_bind keeps_get fun s => keeps_setCoef hx _ _

@[simp] theorem keeps_eobLength (r : Nat) : Keeps false F (eobLength r) := by
  unfold eobLength
  exact keeps_ite (keeps_bind (keeps_getBits r) fun x => keeps_pure _) (keeps_pure _)

theorem keeps_hufAcFirstLoop {x : McuBlock} (hx : F.writes x.ref) (t se al : Nat) :
    ∀ fuel k, Keeps false F (hufAcFirstLoop x t se al fuel k)
  | 0, _ => keeps_pure _
  | fuel + 1, k => by
    unfold hufAcFirstLoop
    dsimp only
    exact keeps_ite (keeps_bind (keeps_huffDecode _ _) fun rs => keeps_ite (keeps_bind (keeps_receiveExtend _) fun v =>
      keeps_bind (keeps_setCoef hx _ _) fun _ => keeps_hufAcFirstLoop hx t se al fuel _)
      (keeps_ite (keeps_hufAcFirstLoop hx t se al fuel _) (keeps_bind (keeps_eobLength _) fun run => keeps_eobrun _)))
      (keeps_pure _)

theorem keeps_hufAcFirstDecode {x : McuBlock} (hx : F.writes x.ref) : Keeps false F (hufAcFirstDecode x) := by
  unfold hufAcFirstDecode
  exact keeps_bind keeps_get fun s => keeps_ite (keeps_eobrun _) (keeps_hufAcFirstLoop hx _ _ _ _ _)

theorem keeps_hufDcRefineDecodeBlock {x : McuBlock} (hx : F.writes x.ref) :
    Keeps false F (hufDcRefineDecodeBlock x) := by
  unfold hufDcRefineDecodeBlock
  exact keeps_bind (keeps_getBits 1) fun v => keeps_ite (keeps_modify fun s => F.coef s _ _ _ hx) (keeps_pure _)

theorem keeps_correctCoef {x : McuBlock} (hx : F.writes x.ref) (al p : Nat) : Keeps false F (correctCoef x al p) := by
  unfold correctCoef
  dsimp only
  exact keeps_bind (keeps_getBits 1) fun v => keeps_bind keeps_get fun s =>
    keeps_ite (keeps_setCoef hx _ _) (keeps_pure _)

theorem keeps_refineSkip {x : McuBlock} (hx : F.writes x.ref) (se al : Nat) :
    ∀ fuel r k, Keeps false F (refineSkip x se al fuel r k)
  | 0, _, _ => keeps_pure _
  | fuel + 1, r, k => by
    unfold refineSkip
    exact keeps_bind (keeps_getCoef _ _) fun v => keeps_ite (keeps_bind (keeps_correctCoef hx _ _) fun _ =>
      keeps_ite (keeps_pure _) (keeps_refineSkip hx se al fuel _ _)) (keeps_ite (keeps_pure _)
        (keeps_ite (keeps_pure _) (keeps_refineSkip hx se al fuel _ _)))

@[simp] theorem keeps_newCoef (al size : Nat) : Keeps false F (newCoef al size) := by
  unfold newCoef
  dsimp only
  refine keeps_ite (keeps_bind (keeps_warn _) fun _ => ?_) ?_
  all_goals exact keeps_bind (keeps_getBits 1) fun x => keeps_pure _

theorem keeps_hufAcRefineLoop {x : McuBlock} (hx : F.writes x.ref) (t se al : Nat) :
    ∀ fuel k, Keeps false F (hufAcRefineLoop x t se al fuel k)
  | 0, _ => keeps_pure _
  | fuel + 1, k => by
    unfold hufAcRefineLoop
    dsimp only
    exact keeps_ite (keeps_bind (keeps_huffDecode _ _) fun rs => keeps_ite (keeps_bind (keeps_newCoef _ _) fun v =>
      keeps_bind (keeps_refineSkip hx _ _ _ _ _) fun k => keeps_bind (keeps_setCoef hx _ _) fun _ =>
        keeps_hufAcRefineLoop hx t se al fuel _) (keeps_ite (keeps_bind (keeps_eobLength _) fun run =>
          keeps_bind (keeps_eobrun _) fun _ => keeps_pure _) (keeps_bind (keeps_refineSkip hx _ _ _ _ _) fun k =>
            keeps_hufAcRefineLoop hx t se al fuel _))) (keeps_pure _)

theorem keeps_refineRest {x : McuBlock} (hx : F.writes x.ref) (al : Nat) : ∀ ks, Keeps false F (refineRest x al ks)
  | [] => keeps_pure _
  | k :: ks => by
    unfold refineRest
    dsimp only
    refine keeps_bind (keeps_getCoef _ _) fun v => keeps_ite (keeps_bind (keeps_correctCoef hx _ _) fun _ => ?_) ?_
    all_goals exact keeps_refineRest hx al ks

theorem keeps_hufAcRefineDecode {x : McuBlock} (hx : F.writes x.ref) : Keeps false F (hufAcRefineDecode x) := by
  unfold hufAcRefineDecode
  dsimp only
  have hr : ∀ k : Nat, Keeps false F (do
      let s ← get
      if 0 < s.ent.eobrun then do
        refineRest x s.scan.al (fromTo k s.scan.se)
        modEnt fun e => { e with eobrun := e.eobrun - 1 }) := fun k =>
    keeps_bind keeps_get fun s => keeps_ite (keeps_bind (keeps_refineRest hx _ _) fun _ => keeps_eobrun _) (keeps_pure _)
  exact keeps_bind keeps_get fun s => keeps_ite (keeps_bind (keeps_hufAcRefineLoop hx _ _ _ _ _) fun k => hr k)
    (keeps_bind (keeps_pure _) fun k => hr k)

/-! ## Huffman encoders -/

@[simp] theorem keeps_hufEncodeDcDiff (t : Nat) (d : Int) : Keeps b F (hufEncodeDcDiff t d) := by
  unfold hufEncodeDcDiff
  exact keeps_bind (keeps_demand _ _) fun _ => keeps_bind (keeps_emitSymbol _ _ _) fun _ =>
    keeps_ite (keeps_emitBits _ _) (keeps_pure _)

@[simp] theorem keeps_emitZrls (t : Nat) : ∀ fuel r, Keeps b F (emitZrls t fuel r)
  | 0, _ => keeps_pure _
  | fuel + 1, r => by
    unfold emitZrls
    exact keeps_ite (keeps_bind (keeps_emitSymbol _ _ _) fun _ => keeps_emitZrls t fuel _) (keeps_pure _)

@[simp] theorem keeps_hufEncodeAcValue (t r : Nat) (v : Int) : Keeps b F (hufEncodeAcValue t r v) := by
  unfold hufEncodeAcValue
  exact keeps_bind (keeps_emitZrls _ _ _) fun r => keeps_bind (keeps_demand _ _) fun _ =>
    keeps_bind (keeps_emitSymbol _ _ _) fun _ => keeps_emitBits _ _

@[simp] theorem keeps_hufSeqEncodeAc (x : McuBlock) (t : Nat) : ∀ ks r, Keeps b F (hufSeqEncodeAc x t ks r)
  | [], _ => keeps_pure _
  | k :: ks, r => by
    unfold hufSeqEncodeAc
    exact keeps_bind (keeps_getCoef _ _) fun v => keeps_ite (keeps_hufSeqEncodeAc x t ks _)
      (keeps_bind (keeps_hufEncodeAcValue _ _ _) fun _ => keeps_hufSeqEncodeAc x t ks _)

@[simp] theorem keeps_hufSeqEncodeBlock (x : McuBlock) : Keeps b F (hufSeqEncodeBlock x) := by
  unfold hufSeqEncodeBlock
  dsimp only
  exact keeps_bind (keeps_getCoef _ _) fun v => keeps_bind keeps_get fun s => keeps_bind (keeps_withDc _ _) fun _ =>
    keeps_bind (keeps_hufEncodeDcDiff _ _) fun _ => keeps_bind (keeps_hufSeqEncodeAc _ _ _ _) fun r =>
      keeps_ite (keeps_emitSymbol _ _ _) (keeps_pure _)

@[simp] theorem keeps_hufDcFirstEncodeBlock (x : McuBlock) : Keeps b F (hufDcFirstEncodeBlock x) := by
  unfold hufDcFirstEncodeBlock
  dsimp only
  exact keeps_bind (keeps_getCoef _ _) fun v => keeps_bind keeps_get fun s => keeps_bind (keeps_withDc _ _) fun _ =>
    keeps_hufEncodeDcDiff _ _

@[simp] theorem keeps_emitBitList (bs : List Bool) : Keeps b F (emitBitList bs) :=
  keeps_forM fun _ _ => keeps_emitBits _ _

@[simp] theorem keeps_emitEobrun : Keeps b F emitEobrun := by
  unfold emitEobrun
  dsimp only
  refine keeps_bind keeps_get fun s => keeps_ite (keeps_bind (keeps_demand _ _) fun _ =>
    keeps_bind (keeps_emitSymbol _ _ _) fun _ => keeps_ite (keeps_bind (keeps_emitBits _ _) fun _ => ?_) ?_) (keeps_pure _)
  all_goals
    exact keeps_bind (keeps_eobrun _) fun _ => keeps_bind (keeps_emitBitList _) fun _ =>
      keeps_modEnt fun _ => ⟨id, id, id⟩

@[simp] theorem keeps_hufAcFirstEncodeBand (x : McuBlock) (t al : Nat) :
    ∀ ks r, Keeps b F (hufAcFirstEncodeBand x t al ks r)
  | [], _ => keeps_pure _
  | k :: ks, r => by
    unfold hufAcFirstEncodeBand
    dsimp only
    exact keeps_bind (keeps_getCoef _ _) fun v => keeps_ite (keeps_hufAcFirstEncodeBand x t al ks _)
      (keeps_bind keeps_emitEobrun fun _ => keeps_bind (keeps_hufEncodeAcValue _ _ _) fun _ =>
        keeps_hufAcFirstEncodeBand x t al ks _)

@[simp] theorem keeps_hufAcFirstEncode (x : McuBlock) : Keeps b F (hufAcFirstEncode x) := by
  unfold hufAcFirstEncode
  exact keeps_bind keeps_get fun s => keeps_bind (keeps_hufAcFirstEncodeBand _ _ _ _ _) fun r =>
    keeps_ite (keeps_bind (keeps_eobrun _) fun _ => keeps_bind keeps_get fun s =>
      keeps_ite keeps_emitEobrun (keeps_pure _)) (keeps_pure _)

@[simp] theorem keeps_hufDcRefineEncodeBlock (x : McuBlock) : Keeps b F (hufDcRefineEncodeBlock x) := by
  unfold hufDcRefineEncodeBlock
  exact keeps_bind (keeps_getCoef _ _) fun v => keeps_bind keeps_get fun s => keeps_emitBits _ _

@[simp] theorem keeps_refineZrls (t k eob : Nat) : ∀ fuel r br, Keeps b F (refineZrls t k eob fuel r br)
  | 0, _, _ => keeps_pure _
  | fuel + 1, r, br => by
    unfold refineZrls
    exact keeps_ite (keeps_bind keeps_emitEobrun fun _ => keeps_bind (keeps_emitSymbol _ _ _) fun _ =>
      keeps_bind (keeps_emitBitList _) fun _ => keeps_refineZrls t k eob fuel _ _) (keeps_pure _)

@[simp] theorem keeps_hufAcRefineBand (x : McuBlock) (t al eob : Nat) :
    ∀ ks r br, Keeps b F (hufAcRefineBand x t al eob ks r br)
  | [], _, _ => keeps_pure _
  | k :: ks, r, br => by
    unfold hufAcRefineBand
    dsimp only
    exact keeps_bind (keeps_getCoef _ _) fun v => keeps_ite (keeps_hufAcRefineBand x t al eob ks _ _)
      (keeps_bind (keeps_refineZrls _ _ _ _ _ _) fun rb => keeps_ite (keeps_hufAcRefineBand x t al eob ks _ _)
        (keeps_bind keeps_emitEobrun fun _ => keeps_bind (keeps_emitSymbol _ _ _) fun _ =>
          keeps_bind (keeps_emitBits _ _) fun _ => keeps_bind (keeps_emitBitList _) fun _ =>
            keeps_hufAcRefineBand x t al eob ks _ _))

@[simp] theorem keeps_hufAcRefineEncode (x : McuBlock) : Keeps b F (hufAcRefineEncode x) := by
  unfold hufAcRefineEncode
  dsimp only
  exact keeps_bind keeps_get fun s => keeps_bind (keeps_hufAcRefineBand _ _ _ _ _ _ _) fun rb =>
    keeps_ite (keeps_bind (keeps_modEnt fun _ => ⟨id, id, id⟩) fun _ => keeps_bind keeps_get fun s =>
      keeps_ite keeps_emitEobrun (keeps_pure _)) (keeps_pure _)

/-! ## Huffman restart, scan end and wrappers -/

@[simp] theorem keeps_zeroPredictors : Keeps b F zeroPredictors := by
  unfold zeroPredictors
  exact keeps_bind keeps_get fun s => keeps_forUpTo fun i => keeps_withDc _ _

@[simp] theorem keeps_hufEmitRestart : Keeps b F hufEmitRestart := by
  unfold hufEmitRestart
  dsimp only
  refine keeps_bind keeps_get fun s => keeps_ite (keeps_bind keeps_emitEobrun fun _ => ?_) ?_
  all_goals
    exact keeps_bind keeps_flushBits fun _ => keeps_bind (keeps_outByte _) fun _ => keeps_bind (keeps_outByte _) fun _ =>
      keeps_ite keeps_zeroPredictors (keeps_modEnt fun _ => ⟨id, id, id⟩)

@[simp] theorem keeps_hufProcessRestart : Keeps b F hufProcessRestart := by
  unfold hufProcessRestart
  exact keeps_bind keeps_readerReset fun _ => keeps_bind keeps_readRestartMarker fun _ =>
    keeps_bind keeps_zeroPredictors fun _ => keeps_bind (keeps_eobrun _) fun _ => keeps_bind keeps_get fun s =>
      keeps_bind (keeps_modEnt fun _ => ⟨id, id, id⟩) fun _ =>
        keeps_ite (keeps_modEnt fun _ => ⟨id, id, id⟩) (keeps_pure _)

@[simp] theorem keeps_hufFinishEncode : Keeps b F hufFinishEncode := by
  unfold hufFinishEncode
  dsimp only
  exact keeps_bind keeps_get fun s => keeps_ite (keeps_bind keeps_emitEobrun fun _ => keeps_flushBits) keeps_flushBits

@[simp] theorem keeps_hufEncodeRoutine (mode : ScanMode) (blks : List McuBlock) :
    Keeps b F (hufEncodeRoutine mode blks) := by
  unfold hufEncodeRoutine
  cases mode <;> dsimp only <;>
    first
      | exact keeps_stop _
      | exact keeps_forM fun x _ => by simp
      | exact keeps_onFirst fun x _ => by simp

theorem keeps_hufDecodeRoutine (mode : ScanMode) {blks : List McuBlock} (h : ∀ x ∈ blks, F.writes x.ref) :
    Keeps false F (hufDecodeRoutine mode blks) := by
  unfold hufDecodeRoutine
  cases mode <;> dsimp only <;>
    first
      | exact keeps_stop _
      | exact keeps_forM fun x hx => keeps_hufSeqDecodeBlock (h x hx)
      | exact keeps_forM fun x hx => keeps_hufDcFirstDecodeBlock (h x hx)
      | exact keeps_forM fun x hx => keeps_hufDcRefineDecodeBlock (h x hx)
      | exact keeps_onFirst fun x hx => keeps_hufAcFirstDecode (h x hx)
      | exact keeps_onFirst fun x hx => keeps_hufAcRefineDecode (h x hx)

@[simp] theorem keeps_countRestart : Keeps b F countRestart := by
  unfold countRestart
  dsimp only
  exact keeps_bind keeps_get fun s => keeps_ite (keeps_ite (keeps_bind
    (keeps_modEnt fun _ => ⟨id, id, fun _ => Nat.mod_lt _ (by decide)⟩) fun _ => keeps_modEnt fun _ => ⟨id, id, id⟩)
      (keeps_modEnt fun _ => ⟨id, id, id⟩)) (keeps_pure _)

@[simp] theorem keeps_hufEncodeMcu (blks : List McuBlock) : Keeps b F (hufEncodeMcu blks) := by
  unfold hufEncodeMcu
  dsimp only
  refine keeps_bind keeps_get fun s => keeps_ite (keeps_bind keeps_hufEmitRestart fun _ => ?_) ?_
  all_goals exact keeps_bind (keeps_hufEncodeRoutine _ _) fun _ => keeps_countRestart

theorem keeps_hufDecodeMcu {blks : List McuBlock} (h : ∀ x ∈ blks, F.writes x.ref) :
    Keeps false F (hufDecodeMcu blks) := by
  unfold hufDecodeMcu
  dsimp only
  refine keeps_bind keeps_get fun s => keeps_ite (keeps_bind keeps_hufProcessRestart fun _ => ?_) ?_
  all_goals
    refine keeps_bind keeps_get fun s => keeps_ite (keeps_bind (keeps_hufDecodeRoutine _ h) fun _ => ?_) ?_
  all_goals exact keeps_ite (keeps_modEnt fun _ => ⟨id, id, id⟩) (keeps_pure _)

/-! ## Arithmetic coder pieces (`43_arith_entropy.md`) -/

@[simp] theorem keeps_freshenSign (t : Nat) : Keeps b F (freshenSign t) := by
  unfold freshenSign
  refine keeps_bind keeps_get fun s => ?_
  cases s.cfg.acSignCtx <;> simp

@[simp] theorem keeps_encChain (bin : Nat → Bin) : ∀ fuel v m st, Keeps b F (encChain bin fuel v m st)
  | 0, v, m, st => by
    unfold encChain
    exact keeps_bind (keeps_arithEncode _ _) fun _ => keeps_pure _
  | fuel + 1, v, m, st => by
    unfold encChain
    exact keeps_ite (keeps_bind (keeps_arithEncode _ _) fun _ => keeps_encChain bin fuel _ _ _)
      (keeps_bind (keeps_arithEncode _ _) fun _ => keeps_pure _)

@[simp] theorem keeps_encMagBits (x : Bin) (v : Nat) : ∀ fuel m, Keeps b F (encMagBits x v fuel m)
  | 0, _ => keeps_pure _
  | fuel + 1, m => by
    unfold encMagBits
    exact keeps_ite (keeps_bind (keeps_arithEncode _ _) fun _ => keeps_encMagBits x v fuel _) (keeps_pure _)

@[simp] theorem keeps_arithOverflow : Keeps b F arithOverflow := by
  unfold arithOverflow
  exact keeps_bind (keeps_warn _) fun _ => keeps_modEnt fun _ => ⟨id, id, id⟩

@[simp] theorem keeps_decChain (bin : Nat → Bin) : ∀ fuel m st, Keeps b F (decChain bin fuel m st)
  | 0, _, _ => keeps_pure _
  | fuel + 1, m, st => by
    unfold decChain
    exact keeps_bind (keeps_arithDecode _) fun x => keeps_ite (keeps_ite (keeps_bind keeps_arithOverflow fun _ =>
      keeps_pure _) (keeps_decChain bin fuel _ _)) (keeps_pure _)

@[simp] theorem keeps_decMagBits (x : Bin) : ∀ fuel m v, Keeps b F (decMagBits x fuel m v)
  | 0, _, _ => keeps_pure _
  | fuel + 1, m, v => by
    unfold decMagBits
    exact keeps_ite (keeps_bind (keeps_arithDecode _) fun y => keeps_decMagBits x fuel _ _) (keeps_pure _)

@[simp] theorem keeps_setDcContext (x : McuBlock) (m : Nat) (neg : Bool) : Keeps b F (setDcContext x m neg) := by
  unfold setDcContext
  dsimp only
  exact keeps_bind keeps_get fun s => keeps_withContext _ _

@[simp] theorem keeps_dcEncode (x : McuBlock) (v : Int) : Keeps b F (dcEncode x v) := by
  unfold dcEncode
  dsimp only
  exact keeps_bind keeps_get fun s => keeps_ite (keeps_bind (keeps_arithEncode _ _) fun _ => keeps_withContext _ _)
    (keeps_bind (keeps_withDc _ _) fun _ => keeps_bind (keeps_arithEncode _ _) fun _ =>
      keeps_bind (keeps_arithEncode _ _) fun _ => keeps_ite (keeps_bind (keeps_arithEncode _ _) fun _ =>
        keeps_bind (keeps_encChain _ _ _ _ _) fun ms => keeps_bind (keeps_setDcContext _ _ _) fun _ =>
          keeps_encMagBits _ _ _ _) (keeps_bind (keeps_arithEncode _ _) fun _ => keeps_setDcContext _ _ _))

@[simp] theorem keeps_dcDecodeCategory (t st : Nat) : Keeps b F (dcDecodeCategory t st) := by
  unfold dcDecodeCategory
  exact keeps_bind (keeps_arithDecode _) fun x => keeps_ite (keeps_decChain _ _ _ _) (keeps_pure _)

@[simp] theorem keeps_dcDecode (x : McuBlock) : Keeps b F (dcDecode x) := by
  unfold dcDecode
  dsimp only
  refine keeps_bind keeps_get fun s => keeps_bind (keeps_arithDecode _) fun nz => keeps_ite
    (keeps_bind (keeps_arithDecode _) fun neg => keeps_bind (keeps_dcDecodeCategory _ _) fun r => ?_)
    (keeps_bind (keeps_withContext _ _) fun _ => keeps_bind keeps_get fun s => keeps_pure _)
  cases r with
  | none => exact keeps_pure _
  | some ms =>
    exact keeps_bind (keeps_setDcContext _ _ _) fun _ => keeps_bind (keeps_decMagBits _ _ _ _) fun v =>
      keeps_bind (keeps_withDc _ _) fun _ => keeps_bind keeps_get fun s => keeps_pure _

@[simp] theorem keeps_acMagEncode (t k v : Nat) : Keeps b F (acMagEncode t k v) := by
  unfold acMagEncode
  dsimp only
  exact keeps_bind keeps_get fun s => keeps_ite (keeps_arithEncode _ _) (keeps_bind (keeps_arithEncode _ _) fun _ =>
    keeps_ite (keeps_arithEncode _ _) (keeps_bind (keeps_arithEncode _ _) fun _ =>
      keeps_bind (keeps_encChain _ _ _ _ _) fun ms => keeps_encMagBits _ _ _ _))

@[simp] theorem keeps_acDecodeCategory (t k : Nat) : Keeps b F (acDecodeCategory t k) := by
  unfold acDecodeCategory
  dsimp only
  exact keeps_bind keeps_get fun s => keeps_bind (keeps_arithDecode _) fun x => keeps_ite
    (keeps_bind (keeps_arithDecode _) fun y => keeps_ite (keeps_decChain _ _ _ _) (keeps_pure _)) (keeps_pure _)

@[simp] theorem keeps_acMagDecode (t k : Nat) : Keeps b F (acMagDecode t k) := by
  unfold acMagDecode
  refine keeps_bind (keeps_acDecodeCategory _ _) fun r => ?_
  cases r with
  | none => exact keeps_pure _
  | some ms => exact keeps_bind (keeps_decMagBits _ _ _ _) fun v => keeps_pure _

@[simp] theorem keeps_acSkipZeros (t : Nat) (val : Nat → Int) : ∀ fuel k, Keeps b F (acSkipZeros t val fuel k)
  | 0, _ => keeps_pure _
  | fuel + 1, k => by
    unfold acSkipZeros
    exact keeps_ite (keeps_bind (keeps_arithEncode _ _) fun _ => keeps_acSkipZeros t val fuel _) (keeps_pure _)

@[simp] theorem keeps_acEncodeLoop (t : Nat) (val : Nat → Int) (ke : Nat) :
    ∀ fuel k, Keeps b F (acEncodeLoop t val ke fuel k)
  | 0, _ => keeps_pure _
  | fuel + 1, k => by
    unfold acEncodeLoop
    exact keeps_ite (keeps_bind (keeps_arithEncode _ _) fun _ => keeps_bind (keeps_acSkipZeros _ _ _ _) fun k =>
      keeps_bind (keeps_arithEncode _ _) fun _ => keeps_bind (keeps_freshenSign _) fun _ => keeps_bind keeps_get fun s =>
        keeps_bind (keeps_arithEncode _ _) fun _ => keeps_bind (keeps_acMagEncode _ _ _) fun _ =>
          keeps_acEncodeLoop t val ke fuel _) (keeps_pure _)

@[simp] theorem keeps_acEncodeBand (t ss se : Nat) (val : Nat → Int) : Keeps b F (acEncodeBand t ss se val) := by
  unfold acEncodeBand
  exact keeps_bind (keeps_acEncodeLoop _ _ _ _ _) fun k => keeps_ite (keeps_arithEncode _ _) (keeps_pure _)

@[simp] theorem keeps_acDecodeRun (t se : Nat) : ∀ fuel k, Keeps b F (acDecodeRun t se fuel k)
  | 0, _ => keeps_pure _
  | fuel + 1, k => by
    unfold acDecodeRun
    exact keeps_bind (keeps_arithDecode _) fun x => keeps_ite (keeps_pure _) (keeps_ite
      (keeps_bind keeps_arithOverflow fun _ => keeps_pure _) (keeps_acDecodeRun t se fuel _))

theorem keeps_acDecodeLoop {x : McuBlock} (hx : F.writes x.ref) (t se shift : Nat) :
    ∀ fuel k, Keeps b F (acDecodeLoop x t se shift fuel k)
  | 0, _ => keeps_pure _
  | fuel + 1, k => by
    unfold acDecodeLoop
    refine keeps_ite (keeps_bind (keeps_arithDecode _) fun eob => keeps_ite (keeps_pure _)
      (keeps_bind (keeps_acDecodeRun _ _ _ _) fun r => ?_)) (keeps_pure _)
    cases r with
    | none => exact keeps_pure _
    | some k =>
      refine keeps_bind (keeps_freshenSign _) fun _ => keeps_bind keeps_get fun s =>
        keeps_bind (keeps_arithDecode _) fun neg => keeps_bind (keeps_acMagDecode _ _) fun v => ?_
      cases v with
      | none => exact keeps_pure _
      | some v => exact keeps_bind (keeps_setCoef hx _ _) fun _ => keeps_acDecodeLoop hx t se shift fuel _

/-! ## Arithmetic mode routines -/

@[simp] theorem keeps_ariSeqEncodeBlock (x : McuBlock) : Keeps b F (ariSeqEncodeBlock x) := by
  unfold ariSeqEncodeBlock
  exact keeps_bind (keeps_getCoef _ _) fun v => keeps_bind (keeps_dcEncode _ _) fun _ => keeps_bind keeps_get fun s =>
    keeps_acEncodeBand _ _ _ _

theorem keeps_ariSeqDecode : ∀ {blks : List McuBlock}, (∀ x ∈ blks, F.writes x.ref) → Keeps b F (ariSeqDecode blks)
  | [], _ => keeps_pure _
  | x :: l, h => by
    unfold ariSeqDecode
    refine keeps_bind (keeps_dcDecode _) fun v => ?_
    cases v with
    | none => exact keeps_pure _
    | some v =>
      exact keeps_bind (keeps_setCoef (h x (by simp)) _ _) fun _ => keeps_bind keeps_get fun s =>
        keeps_bind (keeps_acDecodeLoop (h x (by simp)) _ _ _ _ _) fun ok =>
          keeps_ite (keeps_ariSeqDecode fun y hy => h y (by simp [hy])) (keeps_pure _)

@[simp] theorem keeps_ariDcFirstEncodeBlock (x : McuBlock) : Keeps b F (ariDcFirstEncodeBlock x) := by
  unfold ariDcFirstEncodeBlock
  exact keeps_bind (keeps_getCoef _ _) fun v => keeps_bind keeps_get fun s => keeps_dcEncode _ _

theorem keeps_ariDcFirstDecode :
    ∀ {blks : List McuBlock}, (∀ x ∈ blks, F.writes x.ref) → Keeps b F (ariDcFirstDecode blks)
  | [], _ => keeps_pure _
  | x :: l, h => by
    unfold ariDcFirstDecode
    refine keeps_bind (keeps_dcDecode _) fun v => ?_
    cases v with
    | none => exact keeps_pure _
    | some v =>
      exact keeps_bind keeps_get fun s => keeps_bind (keeps_setCoef (h x (by simp)) _ _) fun _ =>
        keeps_ariDcFirstDecode fun y hy => h y (by simp [hy])

@[simp] theorem keeps_ariAcFirstEncode (x : McuBlock) : Keeps b F (ariAcFirstEncode x) := by
  unfold ariAcFirstEncode
  exact keeps_bind keeps_get fun s => keeps_acEncodeBand _ _ _ _

theorem keeps_ariAcFirstDecode {x : McuBlock} (hx : F.writes x.ref) : Keeps b F (ariAcFirstDecode x) := by
  unfold ariAcFirstDecode
  exact keeps_bind keeps_get fun s => keeps_bind (keeps_acDecodeLoop hx _ _ _ _ _) fun _ => keeps_pure _

@[simp] theorem keeps_ariDcRefineEncodeBlock (x : McuBlock) : Keeps b F (ariDcRefineEncodeBlock x) := by
  unfold ariDcRefineEncodeBlock
  exact keeps_bind (keeps_getCoef _ _) fun v => keeps_bind keeps_get fun s => keeps_arithEncode _ _

theorem keeps_ariDcRefineDecodeBlock {x : McuBlock} (hx : F.writes x.ref) :
    Keeps b F (ariDcRefineDecodeBlock x) := by
  unfold ariDcRefineDecodeBlock
  exact keeps_bind (keeps_arithDecode _) fun v => keeps_ite (keeps_modify fun s => F.coef s _ _ _ hx) (keeps_pure _)

@[simp] theorem keeps_ariRefineEncodeStep (s : State) (x : McuBlock) (t : Nat) :
    ∀ fuel k, Keeps b F (ariRefineEncodeStep s x t fuel k)
  | 0, _ => keeps_pure _
  | fuel + 1, k => by
    unfold ariRefineEncodeStep
    dsimp only
    exact keeps_ite (keeps_bind (keeps_arithEncode _ _) fun _ => keeps_pure _) (keeps_ite
      (keeps_bind (keeps_arithEncode _ _) fun _ => keeps_bind (keeps_arithEncode _ _) fun _ => keeps_pure _)
      (keeps_bind (keeps_arithEncode _ _) fun _ => keeps_ariRefineEncodeStep s x t fuel _))

@[simp] theorem keeps_ariRefineEncodeLoop (s : State) (x : McuBlock) (t ke kex : Nat) :
    ∀ fuel k, Keeps b F (ariRefineEncodeLoop s x t ke kex fuel k)
  | 0, _ => keeps_pure _
  | fuel + 1, k => by
    unfold ariRefineEncodeLoop
    dsimp only
    refine keeps_ite (keeps_ite (keeps_bind (keeps_arithEncode _ _) fun _ => ?_) ?_) (keeps_pure _)
    all_goals exact keeps_bind (keeps_ariRefineEncodeStep _ _ _ _ _) fun k => keeps_ariRefineEncodeLoop s x t ke kex fuel _

@[simp] theorem keeps_ariAcRefineEncode (x : McuBlock) : Keeps b F (ariAcRefineEncode x) := by
  unfold ariAcRefineEncode
  dsimp only
  exact keeps_bind keeps_get fun s => keeps_bind (keeps_ariRefineEncodeLoop _ _ _ _ _ _ _) fun k =>
    keeps_ite (keeps_arithEncode _ _) (keeps_pure _)

theorem keeps_ariRefineDecodeStep {x : McuBlock} (hx : F.writes x.ref) (t se al : Nat) :
    ∀ fuel k, Keeps b F (ariRefineDecodeStep x t se al fuel k)
  | 0, _ => keeps_pure _
  | fuel + 1, k => by
    unfold ariRefineDecodeStep
    dsimp only
    refine keeps_bind (keeps_getCoef _ _) fun c => keeps_ite (keeps_bind (keeps_arithDecode _) fun v =>
      keeps_ite (keeps_bind (keeps_setCoef hx _ _) fun _ => keeps_pure _) (keeps_pure _))
      (keeps_bind (keeps_arithDecode _) fun new => keeps_ite (keeps_bind (keeps_arithDecode _) fun neg =>
        keeps_bind (keeps_setCoef hx _ _) fun _ => keeps_pure _) (keeps_ite (keeps_bind keeps_arithOverflow fun _ =>
          keeps_pure _) (keeps_ariRefineDecodeStep hx t se al fuel _)))

theorem keeps_ariRefineDecodeLoop {x : McuBlock} (hx : F.writes x.ref) (t se al kex : Nat) :
    ∀ fuel k, Keeps b F (ariRefineDecodeLoop x t se al kex fuel k)
  | 0, _ => keeps_pure _
  | fuel + 1, k => by
    have hstep : Keeps b F (do
        let r ← ariRefineDecodeStep x t se al 64 k
        match r with
        | none => pure ()
        | some k => ariRefineDecodeLoop x t se al kex fuel (k + 1)) := by
      refine keeps_bind (keeps_ariRefineDecodeStep hx _ _ _ _ _) fun r => ?_
      cases r with
      | none => exact keeps_pure _
      | some k => exact keeps_ariRefineDecodeLoop hx t se al kex fuel _
    unfold ariRefineDecodeLoop
    dsimp only
    exact keeps_ite (keeps_ite (keeps_bind (keeps_arithDecode _) fun eob => keeps_ite (keeps_pure _) hstep)
      (keeps_bind (keeps_pure _) fun eob => keeps_ite (keeps_pure _) hstep)) (keeps_pure _)

theorem keeps_ariAcRefineDecode {x : McuBlock} (hx : F.writes x.ref) : Keeps b F (ariAcRefineDecode x) := by
  unfold ariAcRefineDecode
  dsimp only
  exact keeps_bind keeps_get fun s => keeps_ariRefineDecodeLoop hx _ _ _ _ _ _

/-! ## Arithmetic restart, scan end and wrappers -/

@[simp] theorem keeps_resetComponentBins (i : Nat) : Keeps b F (resetComponentBins i) := by
  have hd : Keeps b F (modify fun s : State =>
      { s with stats := Cells.clear s.stats ((s.scan.comp i).dcTbl * 64) 64 }) := keeps_modify fun s =>
    F.statsClear s _ _
  have ha : Keeps b F (modify fun s : State =>
      { s with stats := Cells.clear s.stats (0x400 + (s.scan.comp i).acTbl * 256) 256 }) := keeps_modify fun s =>
    F.statsClear s _ _
  unfold resetComponentBins
  dsimp only
  exact keeps_bind keeps_get fun s => keeps_ite (keeps_bind hd fun _ => keeps_ite ha (keeps_pure _))
    (keeps_ite ha (keeps_pure _))

@[simp] theorem keeps_ariResetContexts : Keeps b F ariResetContexts := by
  unfold ariResetContexts
  dsimp only
  exact keeps_bind keeps_get fun s => keeps_bind (keeps_forUpTo fun i => keeps_resetComponentBins i) fun _ =>
    keeps_ite (keeps_bind (keeps_modEnt fun _ => ⟨id, id, id⟩) fun _ => keeps_initFixedBin) keeps_initFixedBin

@[simp] theorem keeps_ariEmitRestart : Keeps b F ariEmitRestart := by
  unfold ariEmitRestart
  exact keeps_bind keeps_arithEncFinish fun _ => keeps_bind keeps_get fun s => keeps_bind (keeps_outByte _) fun _ =>
    keeps_bind (keeps_outByte _) fun _ => keeps_bind keeps_ariResetContexts fun _ => keeps_arithEncInit

@[simp] theorem keeps_ariProcessRestart : Keeps b F ariProcessRestart := by
  unfold ariProcessRestart
  exact keeps_bind keeps_readRestartMarker fun _ => keeps_bind keeps_ariResetContexts fun _ =>
    keeps_bind keeps_arithDecInit fun _ => keeps_bind keeps_get fun s => keeps_modEnt fun _ => ⟨id, id, id⟩

@[simp] theorem keeps_ariFinishEncode : Keeps b F ariFinishEncode := keeps_arithEncFinish

@[simp] theorem keeps_ariEncodeRoutine (mode : ScanMode) (blks : List McuBlock) :
    Keeps b F (ariEncodeRoutine mode blks) := by
  unfold ariEncodeRoutine
  cases mode <;> dsimp only <;>
    first
      | exact keeps_stop _
      | exact keeps_forM fun x _ => by simp
      | exact keeps_onFirst fun x _ => by simp

theorem keeps_ariDecodeRoutine (mode : ScanMode) {blks : List McuBlock} (h : ∀ x ∈ blks, F.writes x.ref) :
    Keeps b F (ariDecodeRoutine mode blks) := by
  unfold ariDecodeRoutine
  cases mode <;> dsimp only <;>
    first
      | exact keeps_stop _
      | exact keeps_ariSeqDecode h
      | exact keeps_ariDcFirstDecode h
      | exact keeps_forM fun x hx => keeps_ariDcRefineDecodeBlock (h x hx)
      | exact keeps_onFirst fun x hx => keeps_ariAcFirstDecode (h x hx)
      | exact keeps_onFirst fun x hx => keeps_ariAcRefineDecode (h x hx)

@[simp] theorem keeps_ariEncodeMcu (blks : List McuBlock) : Keeps b F (ariEncodeMcu blks) := by
  unfold ariEncodeMcu
  dsimp only
  refine keeps_bind keeps_get fun s => keeps_ite (keeps_bind keeps_ariEmitRestart fun _ => ?_) ?_
  all_goals exact keeps_bind (keeps_ariEncodeRoutine _ _) fun _ => keeps_countRestart

theorem keeps_ariDecodeMcu {blks : List McuBlock} (h : ∀ x ∈ blks, F.writes x.ref) :
    Keeps b F (ariDecodeMcu blks) := by
  have hr : Keeps b F (do
      let s ← get
      if s.ent.ct = -1 then pure () else ariDecodeRoutine s.scan.mode blks) :=
    keeps_bind keeps_get fun s => keeps_ite (keeps_pure _) (keeps_ariDecodeRoutine _ h)
  unfold ariDecodeMcu
  dsimp only
  refine keeps_bind keeps_get fun s => keeps_ite (keeps_ite (keeps_bind keeps_ariProcessRestart fun _ =>
    keeps_bind (keeps_modEnt fun _ => ⟨id, id, id⟩) fun _ => hr) (keeps_bind (keeps_modEnt fun _ => ⟨id, id, id⟩)
      fun _ => hr)) hr

/-! ## The MCU of either codec (`45_scan_interface.md` R810, R811) -/

@[simp] theorem keeps_encodeMcu (blks : List McuBlock) : Keeps b F (encodeMcu blks) := by
  unfold encodeMcu
  exact keeps_bind (keeps_checkBlocks _) fun _ => keeps_bind keeps_get fun s =>
    keeps_ite (keeps_hufEncodeMcu _) (keeps_ariEncodeMcu _)

theorem keeps_decodeMcu {blks : List McuBlock} (h : ∀ x ∈ blks, F.writes x.ref) : Keeps false F (decodeMcu blks) := by
  unfold decodeMcu
  exact keeps_bind (keeps_checkBlocks _) fun _ => keeps_bind keeps_get fun s =>
    keeps_ite (keeps_hufDecodeMcu h) (keeps_ariDecodeMcu h)

end Sys2Proof.Machine
end

