-- ==== Sys2Proof/Laws/Control.lean ====
section
/-! SUPPORT. The procedures of the controller and of the image and scan commands respect every frame that lets them
write what they write; every command but `RESET` respects every command frame. -/

namespace Sys2Proof.Machine

/-- A frame the controller and the scan commands respect too: image, scan and controller state, the MCU buffer and the
derived tables may be written. -/
structure CtlFrame extends Frame where
  ctl : ∀ s c, (Memory.wf s → Cells.wf 0 c.coefBitsLatch) → rel s { s with ctl := c }
  scan : ∀ s x, rel s { s with scan := x }
  image : ∀ s m, (Memory.wf s → Image.wf m) → rel s { s with image := m }
  clearBuf : ∀ s n, rel s { s with mcubuf := Cells.clear s.mcubuf 0 n }
  buffer : ∀ n, writes (.mcubuf n)
  built : ∀ s cls t d, (Memory.wf s → DerivedTable.wf d) →
    (DerivedTable.sizesOk (s.derived cls t) → DerivedTable.sizesOk d) → rel s (s.withDerived cls t d)

/-- A frame the body of the command `i` respects: what only some commands write, it need allow for those only. -/
structure CmdFrame (i : Instr) extends CtlFrame where
  array : i.writesCoef → ∀ n, writes (.coef n)
  result : i.writesResult → ∀ s v, rel s { s with status := { s.status with result := v } }
  soi : i = .startImage → ∀ s, rel s s.soiReset
  allocate : i = .startImage → ∀ s n, rel s { s with coef := Cells.clear s.coef 0 n }
  outScan : i = .eoi ∨ i = .startOutputPass → ∀ s (v : Word), v.toNat < 2 ^ 16 →
    rel s { s with regs := { s.regs with outScan := v } }

variable {b : Bool} {F : CtlFrame}

theorem CtlFrame.all (F : CtlFrame) (ha : ∀ n, F.writes (.coef n)) (x : BlockRef) : F.writes x := by
  cases x with
  | mcubuf n => exact F.buffer n
  | coef n => exact ha n

/-- The blocks of the MCU buffer may be written in every such frame. -/
theorem CtlFrame.bufferBlocks (F : CtlFrame) {s : State} {x : McuBlock} (h : x ∈ s.bufferBlocks) : F.writes x.ref := by
  simp only [State.bufferBlocks, List.mem_map] at h
  obtain ⟨n, -, rfl⟩ := h
  exact F.buffer n

theorem keeps_modCtl {f : Ctl → Ctl} (h : ∀ c, (f c).coefBitsLatch = c.coefBitsLatch := by intro c; rfl) :
    Keeps b F.toFrame (modCtl f) := fun s => F.ctl s _ fun hw => (h s.ctl) ▸ hw.2.2.2.2.2.2.1

theorem keeps_modImage {f : Image → Image} (h : ∀ m, Image.wf m → Image.wf (f m)) :
    Keeps b F.toFrame (modImage f) := fun s => F.image s _ fun hw => h _ hw.2.2.2.2.2.2.2

theorem keeps_modScan (f : Scan → Scan) : Keeps b F.toFrame (modScan f) := fun s => F.scan s _

/-! ## The controller (`44_coef_controller.md`) -/

theorem keeps_startImcuRow : Keeps b F.toFrame startImcuRow := fun s => F.ctl s _ fun h => h.2.2.2.2.2.2.1

theorem keeps_onepassMcu : Keeps false F.toFrame onepassMcu := by
  unfold onepassMcu
  refine keeps_bind keeps_get fun s => keeps_bind (keeps_modify fun s => F.clearBuf s _) fun _ =>
    keeps_bind (keeps_decodeMcu fun x hx => F.bufferBlocks hx) fun _ => keeps_bind keeps_get fun s => keeps_forM fun p _ => ?_
  exact keeps_ite (keeps_idctOut _) (keeps_pure _)

theorem keeps_accumulateMcu (ha : ∀ n, F.writes (.coef n)) : Keeps false F.toFrame accumulateMcu := by
  unfold accumulateMcu
  exact keeps_bind keeps_get fun s => keeps_decodeMcu fun x _ => F.all ha x.ref

theorem keeps_consumeMcu (ha : ∀ n, F.writes (.coef n)) : Keeps b F.toFrame consumeMcu := by
  unfold consumeMcu
  exact keeps_bind keeps_get fun s => keeps_bind (keeps_atomically (keeps_ite keeps_onepassMcu (keeps_accumulateMcu ha)))
    fun _ => keeps_modCtl

theorem keeps_times {p : Proc Unit} (h : Keeps b F.toFrame p) : ∀ n, Keeps b F.toFrame (times n p)
  | 0 => keeps_pure _
  | n + 1 => keeps_bind h fun _ => keeps_times h n

theorem keeps_consumeMcuRow (ha : ∀ n, F.writes (.coef n)) : Keeps b F.toFrame consumeMcuRow := by
  unfold consumeMcuRow
  exact keeps_bind keeps_get fun s => keeps_bind (keeps_times (keeps_consumeMcu ha) _) fun _ => keeps_modCtl

theorem keeps_endDecodeScan : Keeps b F.toFrame endDecodeScan := by
  unfold endDecodeScan
  exact keeps_bind keeps_readerReset fun _ => keeps_modScan _

theorem keeps_consumeRow (ha : ∀ n, F.writes (.coef n)) : Keeps b F.toFrame consumeRow := by
  unfold consumeRow
  exact keeps_bind keeps_get fun s => keeps_bind (keeps_times (keeps_consumeMcuRow ha) _) fun _ =>
    keeps_bind keeps_modCtl fun _ => keeps_bind keeps_get fun s => keeps_ite
      (keeps_bind keeps_startImcuRow fun _ => keeps_pure _) (keeps_bind keeps_endDecodeScan fun _ => keeps_pure _)

@[simp] theorem keeps_outputRow {F : Frame} : Keeps b F outputRow := by
  unfold outputRow
  exact keeps_bind keeps_get fun s => keeps_bind (keeps_checkBlocks _) fun _ => keeps_forM fun p _ => keeps_idctOut _

theorem keeps_produceInput (ha : ∀ n, F.writes (.coef n)) : ∀ n, Keeps b F.toFrame (produceInput n)
  | 0 => keeps_stop _
  | n + 1 => by
    unfold produceInput
    exact keeps_bind keeps_get fun s => keeps_ite (keeps_ite (keeps_bind (keeps_consumeRow ha) fun _ => keeps_produceInput ha n)
      (keeps_ite (keeps_raise _) (keeps_suspend _))) (keeps_pure _)

theorem keeps_consumeInputBody (ha : ∀ n, F.writes (.coef n)) : Keeps b F.toFrame consumeInputBody := by
  unfold consumeInputBody
  exact keeps_bind keeps_get fun s => keeps_bind (keeps_demand _ _) fun _ => keeps_consumeRow ha

theorem keeps_produceOutputBody (ha : ∀ n, F.writes (.coef n)) : Keeps b F.toFrame produceOutputBody := by
  unfold produceOutputBody
  exact keeps_bind keeps_get fun s => keeps_bind (keeps_demand _ _) fun _ => keeps_bind (keeps_produceInput ha _) fun _ =>
    keeps_bind keeps_outputRow fun _ => keeps_bind keeps_modCtl fun _ => keeps_bind keeps_get fun s =>
      keeps_ite (keeps_pure _) (keeps_bind keeps_modCtl fun _ => keeps_pure _)

/-! ## Builds (`41_huffman_tables.md` R402, R404) -/

theorem derived_wf {s : State} (h : Memory.wf s) (cls : TableClass) (t : Nat) : DerivedTable.wf (s.derived cls t) := by
  unfold State.derived
  by_cases hi : tableSlot cls t < 8
  · rw [show s.dtbl.getD (tableSlot cls t) DerivedTable.reset = s.dtbl[tableSlot cls t] by simp [Vector.getD, hi]]
    exact h.2.1 _ (by simp)
  · rw [show s.dtbl.getD (tableSlot cls t) DerivedTable.reset = DerivedTable.reset by simp [Vector.getD, hi]]
    exact ⟨Cells.wf_nil, Cells.wf_nil, Cells.wf_nil, Cells.wf_nil, Cells.wf_nil, Cells.wf_nil, Cells.wf_nil⟩

theorem decoderTable_wf {counts : List (Nat × Nat)} {codes : List HuffCode} {vals : Cells Byte} {old : DerivedTable}
    (hv : Cells.wf 0 vals) (h : DerivedTable.wf old) : DerivedTable.wf (decoderTable counts codes vals old) :=
  ⟨Cells.wf_writes _ Cells.wf_nil, Cells.wf_writes _ Cells.wf_nil, Cells.wf_writes _ Cells.wf_nil,
    Cells.wf_writes _ Cells.wf_nil, h.2.2.2.2.1, h.2.2.2.2.2.1, hv⟩

theorem encoderTable_wf {codes : List HuffCode} {old : DerivedTable} (h : DerivedTable.wf old) :
    DerivedTable.wf (encoderTable codes old) :=
  ⟨h.1, h.2.1, h.2.2.1, h.2.2.2.1, Cells.wf_writes _ Cells.wf_nil, Cells.wf_writes _ Cells.wf_nil, h.2.2.2.2.2.2⟩

@[simp] theorem keeps_demandSpec {F : Frame} (cls : TableClass) (t : Nat) : Keeps b F (demandSpec cls t) := by
  unfold demandSpec
  exact keeps_bind keeps_get fun s => keeps_demand _ _

theorem genSizes_le : ∀ {p : Nat} {counts : List (Nat × Nat)} {sizes : List Nat}, (∀ c ∈ counts, c.1 ≤ 16) →
    genSizes p counts = some sizes → ∀ x ∈ sizes, x ≤ 16
  | _, [], _, _, h, x, hx => by simp only [genSizes, Option.some.injEq] at h; subst h; simp at hx
  | p, (l, n) :: t, sizes, hc, h, x, hx => by
    simp only [genSizes] at h
    split at h
    · cases h
    · split at h
      · cases h
      · next tail ht =>
        cases h
        rcases List.mem_append.1 hx with hx | hx
        · rw [List.eq_of_mem_replicate hx]; exact hc (l, n) (by simp)
        · exact genSizes_le (fun c hm => hc c (by simp [hm])) ht x hx

/-- No code is longer than 16 bits (`41_huffman_tables.md` R401). -/
theorem genCodes_size_le {s : State} {cls : TableClass} {t : Nat} {codes : List HuffCode}
    (h : s.genCodes cls t = some codes) : ∀ c ∈ codes, c.size ≤ 16 := by
  unfold State.genCodes at h
  split at h
  · next sizes _ hs _ =>
    cases h
    intro c hc
    simp only [List.mem_map] at hc
    obtain ⟨p, -, rfl⟩ := hc
    have hl : ∀ c ∈ s.specCounts cls t, c.1 ≤ 16 := by
      intro c hc
      simp only [State.specCounts, List.mem_map, List.mem_range] at hc
      obtain ⟨i, hi, rfl⟩ := hc
      simp only
      omega
    simp only [List.getD_eq_getElem?_getD]
    cases hp : sizes[p]? with
    | none => simp
    | some x => simpa using genSizes_le hl hs x (List.mem_of_getElem? hp)
  · cases h

theorem Cells.mem_writes {α : Type} [DecidableEq α] {d : α} {c : Nat × α} : ∀ {ws : List (Nat × α)} {m : Cells α},
    c ∈ Cells.writes d m ws → c ∈ m ∨ c ∈ ws
  | [], _, h => .inl h
  | w :: ws, m, h => by
    rw [Cells.writes_cons] at h
    rcases Cells.mem_writes h with h | h
    · rcases Cells.mem_write h with h | h
      · exact .inl h
      · exact .inr (by simp [h.1])
    · exact .inr (by simp [h])

theorem encoderTable_sizesOk {codes : List HuffCode} {old : DerivedTable} (h : ∀ c ∈ codes, c.size ≤ 16) :
    DerivedTable.sizesOk (encoderTable codes old) := by
  intro c hc
  rcases Cells.mem_writes hc with hc | hc
  · cases hc
  · simp only [List.mem_map] at hc
    obtain ⟨x, hx, rfl⟩ := hc
    have := h x hx
    simp only [BitVec.toNat_ofNat]
    omega

@[simp] theorem keeps_genCodes {F : Frame} (cls : TableClass) (t : Nat) : Keeps b F (genCodes cls t) := by
  unfold genCodes
  refine keeps_bind keeps_get fun s => ?_
  cases s.genCodes cls t <;> simp

theorem keeps_buildDec (cls : TableClass) (t : Nat) : Keeps b F.toFrame (buildDec cls t) := by
  unfold buildDec
  refine keeps_bind (keeps_demandSpec _ _) fun _ => keeps_bind (keeps_genCodes _ _) fun codes =>
    keeps_bind (keeps_demand _ _) fun _ => keeps_modify fun s => F.built s _ _ _ (fun h => ?_) id
  exact decoderTable_wf (Cells.wf_slice _ _ h.1) (derived_wf h _ _)

theorem keeps_buildEnc (cls : TableClass) (t : Nat) : Keeps b F.toFrame (buildEnc cls t) := by
  unfold buildEnc
  refine keeps_bind (keeps_demandSpec _ _) fun _ => fun s => ?_
  unfold genCodes
  rw [run_bind, run_get_bind]
  cases hg : s.genCodes cls t with
  | none => exact F.refl s
  | some codes =>
    exact keeps_bind (keeps_demand _ _) (fun _ => keeps_modify fun s => F.built s _ _ _
      (fun h => encoderTable_wf (derived_wf h _ _)) fun _ => encoderTable_sizesOk (genCodes_size_le hg)) s

/-! ## Scan start (`45_scan_interface.md` R804) -/

theorem keeps_buildTable (dir : Direction) (cls : TableClass) (t : Nat) : Keeps b F.toFrame (buildTable dir cls t) := by
  cases dir
  · exact keeps_buildDec cls t
  · exact keeps_buildEnc cls t

theorem keeps_buildComponentTables (i : Nat) : Keeps b F.toFrame (buildComponentTables i) := by
  unfold buildComponentTables
  dsimp only
  refine keeps_bind keeps_get fun s => keeps_ite (keeps_bind (keeps_buildTable _ _ _) fun _ => ?_) ?_
  all_goals exact keeps_ite (keeps_buildTable _ _ _) (keeps_pure _)

theorem keeps_buildScanTables : Keeps b F.toFrame buildScanTables := by
  unfold buildScanTables
  exact keeps_bind keeps_get fun s => keeps_forUpTo keeps_buildComponentTables

@[simp] theorem keeps_checkComponents {F : Frame} : Keeps b F checkComponents := by
  unfold checkComponents
  exact keeps_bind keeps_get fun s => keeps_bind (keeps_demand _ _) fun _ =>
    keeps_ite (keeps_bind (keeps_demand _ _) fun _ => keeps_demand _ _) (keeps_pure _)

theorem keeps_chooseMode : Keeps b F.toFrame chooseMode := by
  unfold chooseMode
  exact keeps_bind (keeps_modify fun s => F.scan s _) fun _ => keeps_bind keeps_get fun s =>
    keeps_ite (keeps_warn _) (keeps_pure _)

@[simp] theorem keeps_checkProgression {F : Frame} : Keeps b F checkProgression := by
  unfold checkProgression
  exact keeps_bind keeps_get fun s => keeps_ite (keeps_demand _ _) (keeps_pure _)

theorem keeps_computeScanGeometry : Keeps b F.toFrame computeScanGeometry := by
  unfold computeScanGeometry
  exact keeps_bind (keeps_modify fun s => F.scan s _) fun _ => keeps_bind keeps_get fun s =>
    keeps_bind (keeps_demand _ _) fun _ => keeps_modScan _

theorem image_wf_withComp {m : Image} (h : Image.wf m) (c : Nat) {x : ImageComp} (hq : Cells.wf 0 x.qtab)
    (hc : Cells.wf (-1) x.coefBits) : Image.wf (m.withComp c x) := by
  intro y hy
  simp only [Image.withComp, Vector.toList_setIfInBounds] at hy
  rcases List.mem_or_eq_of_mem_set hy with hy | rfl
  · exact h y hy
  · exact ⟨hq, hc⟩

theorem image_comp_wf {m : Image} (h : Image.wf m) (c : Nat) :
    Cells.wf 0 (m.comp c).qtab ∧ Cells.wf (-1) (m.comp c).coefBits := by
  unfold Image.comp
  by_cases hi : c < 10
  · rw [show m.comps.getD c ImageComp.reset = m.comps[c] by simp [Vector.getD, hi]]
    exact h _ (by simp)
  · rw [show m.comps.getD c ImageComp.reset = ImageComp.reset by simp [Vector.getD, hi]]
    exact ⟨Cells.wf_nil, Cells.wf_nil⟩

theorem keeps_updateCoefBits (c k : Nat) : Keeps b F.toFrame (updateCoefBits c k) := by
  intro s
  have hw : Memory.wf s → Image.wf (s.image.withComp c
      { s.image.comp c with coefBits := Cells.write (-1) (s.image.comp c).coefBits k s.scan.al }) := fun h =>
    image_wf_withComp h.2.2.2.2.2.2.2 c (image_comp_wf h.2.2.2.2.2.2.2 c).1
      (Cells.wf_write _ (image_comp_wf h.2.2.2.2.2.2.2 c).2)
  unfold updateCoefBits
  rw [run_get_bind]
  refine ends_ite ?_ (F.image s _ hw)
  rw [run_warn_bind]
  refine F.trans (t := { s with status := { s.status with
    warnCount := min (s.status.warnCount + 1) 0xFFFFFFFF, warnLast := some .bogusProgression } })
    (F.status s _ ⟨rfl, rfl, rfl, rfl, fun _ => Nat.min_le_right ..⟩) (F.image _ (s.image.withComp c
      { s.image.comp c with coefBits := Cells.write (-1) (s.image.comp c).coefBits k s.scan.al }) fun h => hw h)

theorem keeps_updateProgression (i : Nat) : Keeps b F.toFrame (updateProgression i) := by
  unfold updateProgression
  dsimp only
  refine keeps_bind keeps_get fun s => keeps_ite (keeps_bind (keeps_warn _) fun _ => ?_) ?_
  all_goals exact keeps_forM fun k _ => keeps_updateCoefBits _ k

theorem keeps_latchQuant (i : Nat) : Keeps b F.toFrame (latchQuant i) := by
  intro s
  unfold latchQuant
  rw [run_get_bind]
  refine ends_ite (F.image s _ fun h => ?_) (F.refl s)
  exact image_wf_withComp h.2.2.2.2.2.2.2 _ (Cells.wf_slice _ _ h.2.2.1) (image_comp_wf h.2.2.2.2.2.2.2 _).2

theorem keeps_startDecode : Keeps b F.toFrame startDecode := by
  unfold startDecode
  dsimp only
  refine keeps_bind keeps_get fun s => keeps_ite (keeps_ite (keeps_bind
    (keeps_forUpTo keeps_updateProgression) fun _ => ?_) ?_) (keeps_pure _)
  all_goals exact keeps_forUpTo keeps_latchQuant

@[simp] theorem keeps_initEntropy {F : Frame} : Keeps b F initEntropy := by
  unfold initEntropy
  refine keeps_bind keeps_get fun s => keeps_bind (keeps_modEnt fun e =>
    ⟨fun _ => ⟨by simp [Entropy.scanStart], by simp [Entropy.scanStart]⟩, fun _ => by simp [Entropy.scanStart],
      fun _ => by simp [Entropy.scanStart]⟩) fun _ =>
    keeps_ite (keeps_bind (keeps_modEnt fun _ => ⟨id, id, id⟩) fun _ => keeps_initFixedBin)
      (keeps_bind keeps_ariResetContexts fun _ => ?_)
  cases s.scan.dir
  · exact keeps_arithDecInit
  · exact keeps_arithEncInit

theorem keeps_startInput : Keeps b F.toFrame startInput := by
  unfold startInput
  exact keeps_bind keeps_get fun s => keeps_ite (keeps_bind (keeps_modImage fun _ h => h) fun _ =>
    keeps_bind keeps_modCtl fun _ => keeps_startImcuRow) (keeps_pure _)

theorem keeps_startScanBody (dir : Direction) : Keeps b F.toFrame (startScanBody dir) := by
  unfold startScanBody
  exact keeps_bind keeps_get fun s => keeps_bind (keeps_demand _ _) fun _ => keeps_bind (keeps_modScan _) fun _ =>
    keeps_bind keeps_checkComponents fun _ => keeps_bind (keeps_modScan _) fun _ => keeps_bind keeps_chooseMode fun _ =>
      keeps_bind keeps_checkProgression fun _ => keeps_bind keeps_computeScanGeometry fun _ =>
        keeps_bind keeps_buildScanTables fun _ => keeps_bind keeps_startDecode fun _ =>
          keeps_bind keeps_initEntropy fun _ => keeps_bind keeps_startInput fun _ => keeps_modScan _

theorem keeps_finishEncode : Keeps b F.toFrame finishEncode := by
  unfold finishEncode
  refine keeps_bind keeps_get fun s => ?_
  cases s.scan.mode <;> dsimp only <;>
    first
      | exact keeps_bind (keeps_stop _) fun _ => keeps_modScan _
      | exact keeps_ite (keeps_bind keeps_hufFinishEncode fun _ => keeps_modScan _)
          (keeps_bind keeps_ariFinishEncode fun _ => keeps_modScan _)

theorem keeps_abandonDecode : Keeps b F.toFrame abandonDecode := by
  unfold abandonDecode
  exact keeps_bind (keeps_modify fun s => F.ctl s _ fun h => h.2.2.2.2.2.2.1) fun _ => keeps_endDecodeScan

/-! ## Image and output-pass commands -/

theorem keeps_setResult {i : Instr} {F : CmdFrame i} (hi : i.writesResult) (v : Word) : Keeps b F.toFrame (modStatus fun t => { t with result := v }) :=
  fun s => F.result hi s v

theorem image_wf_latched {m : Image} (h : Image.wf m) (r : Regs) (n : Nat) : Image.wf (m.latched r n) := by
  intro y hy
  simp only [Image.latched, Vector.toList_ofFn, List.mem_ofFn] at hy
  obtain ⟨c, rfl⟩ := hy
  split
  · exact image_comp_wf h c
  · exact image_comp_wf h c

theorem image_wf_resetImage : Image.wf Image.reset := by
  intro c hc
  have : c = ImageComp.reset := by simpa [Image.reset] using hc
  subst this
  exact ⟨Cells.wf_nil, Cells.wf_nil⟩

theorem keeps_startImageBody {F : CmdFrame .startImage} : Keeps b F.toFrame startImageBody := by
  have hd : Keeps b F.toFrame (modify State.discardImage) := fun s =>
    F.trans (F.image s Image.reset fun _ => image_wf_resetImage) (F.trans (F.scan { s with image := Image.reset } Scan.reset)
      (F.ctl { s with image := Image.reset, scan := Scan.reset } Ctl.reset fun _ => Cells.wf_nil))
  have hc : ∀ r, Keeps b F.toFrame (checkImage r) := fun r =>
    keeps_bind (keeps_demand _ _) fun _ => keeps_bind (keeps_demand _ _) fun _ => keeps_demand _ _
  have hl : Keeps b F.toFrame (modify fun s : State =>
      { s with
        image := s.image.latched s.regs (cfgComponents s.regs.imgCfg)
        ctl := { s.ctl with
          mode := if cfgProg s.regs.imgCfg ∨ cfgMulti s.regs.imgCfg then .multiScan else .singlePass } }) := fun s =>
    F.trans (F.image s (s.image.latched s.regs (cfgComponents s.regs.imgCfg))
      fun h => image_wf_latched h.2.2.2.2.2.2.2 _ _) (F.ctl _ _ fun h => h.2.2.2.2.2.2.1)
  have ha : Keeps b F.toFrame allocateCoef := by
    unfold allocateCoef
    exact keeps_bind keeps_get fun s => keeps_bind (keeps_demand _ _) fun _ => keeps_modify fun s => F.allocate rfl s _
  have hs : Keeps b F.toFrame (modify State.soiReset) := fun s => F.soi rfl s
  unfold startImageBody
  dsimp only
  exact keeps_bind hd fun _ => keeps_bind keeps_get fun s => keeps_bind (hc _) fun _ => keeps_bind hl fun _ =>
    keeps_bind keeps_get fun s => keeps_ite (keeps_bind ha fun _ => hs) hs

theorem keeps_endImage {F : CmdFrame .eoi} : Keeps b F.toFrame (modify State.endImage) := fun s =>
  F.trans (F.outScan (.inl rfl) s s.endImage.regs.outScan (by
    have h := s.image.inputScanNumber.isLt
    have h2 : bits s.regs.outScan 0 16 < 2 ^ 16 := Nat.mod_lt _ (by decide)
    simp only [State.endImage, clampScan, BitVec.toNat_ofNat]
    split <;> omega)) (F.trans (F.image _ s.endImage.image fun h => h.2.2.2.2.2.2.2)
    (F.ctl _ s.endImage.ctl fun h => h.2.2.2.2.2.2.1))

theorem smoothingLoop_wf (m : Image) : ∀ cs useful l, Cells.wf 0 l → Cells.wf 0 (smoothingLoop m cs useful l).2
  | [], _, _, h => h
  | c :: cs, useful, l, h => by
    unfold smoothingLoop
    split
    · exact smoothingLoop_wf m cs _ _ (Cells.wf_writes _ h)
    · exact h

theorem smoothingOk_wf (m : Image) {l : Cells Int} (h : Cells.wf 0 l) : Cells.wf 0 (smoothingOk m l).2 := by
  unfold smoothingOk
  split
  · exact smoothingLoop_wf m _ _ _ h
  · exact h

theorem keeps_startPass {F : CmdFrame .startOutputPass} : Keeps b F.toFrame (modify State.startPass) := fun s =>
  F.trans (F.outScan (.inr rfl) s s.startPass.regs.outScan (by
    have h := s.image.inputScanNumber.isLt
    have h2 : bits s.regs.outScan 0 16 < 2 ^ 16 := Nat.mod_lt _ (by decide)
    simp only [State.startPass, BitVec.toNat_ofNat]
    split <;> omega)) (F.ctl _ s.startPass.ctl fun h => by
    have hl : Cells.wf 0 s.ctl.coefBitsLatch := h.2.2.2.2.2.2.1
    simp only [State.startPass]
    split
    · exact smoothingOk_wf _ hl
    · exact hl)

/-! ## Every command -/

/-- A command's body: the command runs it, it respects every command frame however it ends, and the result it returns
is never `SUSPENDED` (a suspension is an early end, `60_exceptions.md` R907). -/
structure BodyOf (i : Instr) (body : Proc ResultKind) : Prop where
  runs : ∀ s, exec i s = command body s
  keeps : ∀ F : CmdFrame i, Keeps true F.toFrame body
  kind : ∀ {s k t}, body s = .ok k t → k ≠ .suspended

theorem bodyOf_singleStep {i : Instr} {body : Proc Unit} (hr : ∀ s, exec i s = singleStep body s)
    (hk : ∀ F : CmdFrame i, Keeps false F.toFrame body) :
    BodyOf i (atomically (withSpace (do body; pure ResultKind.done))) where
  runs := hr
  keeps F := keeps_atomically (keeps_withSpace (keeps_bind (hk F) fun _ => keeps_pure _))
  kind := by
    intro s k t h
    have hw : ∀ {s k t}, withSpace (do body; pure ResultKind.done) s = .ok k t → k = .done := by
      intro s k t h
      unfold withSpace at h
      rw [run_get_bind, run_bind, run_bind] at h
      cases hb : body s with
      | error e u => rw [hb] at h; cases h
      | ok a u =>
        rw [hb] at h
        simp only [run_pure] at h
        rw [run_bind] at h
        cases hc : checkSpace s.outPort.length u with
        | error e v => rw [hc] at h; cases h
        | ok a v => rw [hc] at h; cases h; rfl
    rcases atomically_cases (withSpace (do body; pure ResultKind.done)) s with
      ⟨a, u, hp, ha⟩ | ⟨a, u, hp, ha⟩ | ⟨a, u, hp, ha⟩ | ⟨a, u, hp, ha⟩ <;> rw [ha] at h <;> cases h
    rw [hw hp]
    decide

theorem consumeRow_kind {s t : State} {k : ResultKind} (h : consumeRow s = .ok k t) : k ≠ .suspended := by
  unfold consumeRow at h
  rw [run_get_bind, run_bind] at h
  cases ht : times (s.ctl.mcuRowsPerImcu - s.ctl.mcuVert) consumeMcuRow s with
  | error e u => rw [ht] at h; cases h
  | ok a u =>
    rw [ht] at h
    simp only [run_modCtl_bind, run_get_bind] at h
    split at h
    · cases h; decide
    · cases h; decide

theorem consumeInputBody_kind {s t : State} {k : ResultKind} (h : consumeInputBody s = .ok k t) : k ≠ .suspended := by
  unfold consumeInputBody at h
  rw [run_get_bind, run_demand_bind] at h
  split at h
  · exact consumeRow_kind h
  · cases h

theorem produceOutputBody_kind {s t : State} {k : ResultKind} (h : produceOutputBody s = .ok k t) :
    k ≠ .suspended := by
  unfold produceOutputBody at h
  rw [run_get_bind, run_demand_bind] at h
  split at h
  · rw [run_bind] at h
    cases hp : produceInput (s.image.totalRows + 2) s with
    | error e u => rw [hp] at h; cases h
    | ok a u =>
      rw [hp] at h
      simp only at h
      rw [run_bind] at h
      cases ho : outputRow u with
      | error e v => rw [ho] at h; cases h
      | ok a v =>
        rw [ho] at h
        simp only [run_modCtl_bind, run_get_bind] at h
        split at h
        · cases h; decide
        · simp only [run_modCtl_bind] at h
          cases h; decide
  · cases h

/-- Every command but `RESET` is the run of a body. -/
theorem exec_body {i : Instr} (hi : i ≠ .reset) : ∃ body, BodyOf i body := by
  cases i with
  | nop => exact ⟨pure .done, fun s => rfl, fun F => keeps_pure _, fun h => by cases h; decide⟩
  | reset => exact absurd rfl hi
  | startImage => exact ⟨_, bodyOf_singleStep (fun s => rfl) fun F => keeps_startImageBody⟩
  | eoi =>
    refine ⟨_, bodyOf_singleStep (fun s => rfl) fun F => ?_⟩
    exact keeps_bind keeps_get fun s => keeps_bind (keeps_demand _ _) fun _ => keeps_endImage
  | htBuildDec cls slot =>
    refine ⟨_, bodyOf_singleStep (fun s => rfl) fun F => ?_⟩
    exact keeps_bind keeps_demandNoScan fun _ => keeps_buildDec cls slot
  | htBuildEnc cls slot =>
    refine ⟨_, bodyOf_singleStep (fun s => rfl) fun F => ?_⟩
    exact keeps_bind keeps_demandNoScan fun _ => keeps_buildEnc cls slot
  | htDecode cls slot =>
    refine ⟨_, bodyOf_singleStep (fun s => rfl) fun F => ?_⟩
    exact keeps_bind keeps_demandNoScan fun _ => keeps_bind keeps_get fun s =>
      keeps_bind (keeps_demand _ _) fun _ => keeps_bind (keeps_huffDecode _ _) fun x => keeps_setResult (by simp [Instr.writesResult]) _
  | htGetbits n =>
    refine ⟨_, bodyOf_singleStep (fun s => rfl) fun F => ?_⟩
    exact keeps_bind keeps_demandNoScan fun _ => keeps_bind (keeps_getBits _) fun x => keeps_setResult (by simp [Instr.writesResult]) _
  | htEncode cls slot sym =>
    refine ⟨_, bodyOf_singleStep (fun s => rfl) fun F => ?_⟩
    exact keeps_bind keeps_demandNoScan fun _ => keeps_bind keeps_get fun s =>
      keeps_bind (keeps_demand _ _) fun _ => keeps_emitSymbol _ _ _
  | htPutbits n value =>
    refine ⟨_, bodyOf_singleStep (fun s => rfl) fun F => ?_⟩
    exact keeps_bind keeps_demandNoScan fun _ => keeps_emitBits _ _
  | htFlush =>
    refine ⟨_, bodyOf_singleStep (fun s => rfl) fun F => ?_⟩
    exact keeps_bind keeps_demandNoScan fun _ => keeps_flushBits
  | htResetBits =>
    refine ⟨_, bodyOf_singleStep (fun s => rfl) fun F => ?_⟩
    exact keeps_bind keeps_demandNoScan fun _ => keeps_bind keeps_readerReset fun _ =>
      keeps_bind keeps_writerReset fun _ => keeps_modEnt fun _ => ⟨id, id, id⟩
  | arithEncInit =>
    refine ⟨_, bodyOf_singleStep (fun s => rfl) fun F => ?_⟩
    exact keeps_bind keeps_demandNoScan fun _ => keeps_bind keeps_arithEncInit fun _ => keeps_initFixedBin
  | arithEncode bin x =>
    refine ⟨_, bodyOf_singleStep (fun s => rfl) fun F => ?_⟩
    exact keeps_bind keeps_demandNoScan fun _ => keeps_arithEncode _ _
  | arithEncFlush =>
    refine ⟨_, bodyOf_singleStep (fun s => rfl) fun F => ?_⟩
    exact keeps_bind keeps_demandNoScan fun _ => keeps_bind keeps_arithEncFinish fun _ => keeps_arithEncInit
  | arithDecInit =>
    refine ⟨_, bodyOf_singleStep (fun s => rfl) fun F => ?_⟩
    exact keeps_bind keeps_demandNoScan fun _ => keeps_bind keeps_arithDecInit fun _ =>
      keeps_bind (keeps_modEnt fun _ => ⟨id, id, id⟩) fun _ => keeps_initFixedBin
  | arithDecode bin =>
    refine ⟨_, bodyOf_singleStep (fun s => rfl) fun F => ?_⟩
    exact keeps_bind keeps_demandNoScan fun _ => keeps_bind (keeps_arithDecode _) fun x => keeps_setResult (by simp [Instr.writesResult]) _
  | startScan dir => exact ⟨_, bodyOf_singleStep (fun s => rfl) fun F => keeps_startScanBody dir⟩
  | encodeMcu =>
    refine ⟨_, bodyOf_singleStep (fun s => rfl) fun F => ?_⟩
    exact keeps_bind keeps_get fun s => keeps_bind (keeps_demand _ _) fun _ => keeps_encodeMcu _
  | decodeMcu =>
    refine ⟨_, bodyOf_singleStep (fun s => rfl) fun F => ?_⟩
    exact keeps_bind keeps_get fun s => keeps_bind (keeps_demand _ _) fun _ => keeps_decodeMcu fun x hx => F.bufferBlocks hx
  | finishScan =>
    refine ⟨_, bodyOf_singleStep (fun s => rfl) fun F =>
      keeps_bind keeps_get fun s => keeps_bind (keeps_demand _ _) fun _ => ?_⟩
    cases s.scan.dir
    · exact keeps_abandonDecode
    · exact keeps_finishEncode
  | consumeInput => exact ⟨_, fun s => rfl, fun F => keeps_consumeInputBody (F.array (.inl rfl)), fun h => consumeInputBody_kind h⟩
  | startOutputPass =>
    refine ⟨_, bodyOf_singleStep (fun s => rfl) fun F => ?_⟩
    exact keeps_bind keeps_get fun s => keeps_bind (keeps_demand _ _) fun _ => keeps_startPass
  | produceOutput => exact ⟨_, fun s => rfl, fun F => keeps_produceOutputBody (F.array (.inr rfl)), fun h => produceOutputBody_kind h⟩

/-- Every command but `RESET` respects every command frame that lets its outcome be recorded. -/
theorem rel_of_exec {i : Instr} (F : CmdFrame i)
    (ends : ∀ s k c f, F.rel s { s with status := { s.status with resultKind := k, suspendCause := c, fault := f } })
    {s t : State} (hi : i ≠ .reset) (h : exec i s = .next t) : F.rel s t := by
  obtain ⟨body, hb⟩ := exec_body hi
  rw [hb.runs] at h
  rcases command_cases h with ⟨-, rfl⟩ | ⟨-, ⟨k, u, hu, rfl⟩ | ⟨c, u, hu, rfl⟩ | ⟨c, u, hu, rfl⟩⟩
  · exact F.refl t
  · exact F.trans ((hb.keeps F).ok hu) (ends u _ _ _)
  · exact F.trans ((hb.keeps F).raise hu) (ends u _ _ _)
  · exact F.trans ((hb.keeps F).suspend hu) (ends u _ _ _)

end Sys2Proof.Machine
end

