-- ==== Sys2Proof/Laws/PerInstr.lean ====
section
/-! SUPPORT. Statements about every command, one lemma per constructor. -/

namespace Sys2Proof.Laws

/-- The `OPC` field of a command's word is its opcode: no operand reaches into it (`30_encoding.md` R201, R210). -/
def OpcodeField.Statement (i : Instr) : Prop := i.wf = true → bits (encode i) 24 8 = opcode i

theorem opcode_lt (i : Instr) : opcode i < 256 := by cases i <;> simp only [opcode] <;> omega

theorem opcode_of_operands {i : Instr} (h : encodeOperands i < 2 ^ 24) : bits (encode i) 24 8 = opcode i := by
  have ho := opcode_lt i
  unfold bits encode
  rw [BitVec.toNat_ofNat]
  omega

theorem encodeH_lt {cls : TableClass} {slot sym : Nat} (h : slotOk slot = true) (hs : sym < 256) :
    encodeH cls slot sym < 2 ^ 24 := by
  unfold encodeH
  simp only [slotOk, decide_eq_true_eq] at h
  split <;> omega

theorem encodeBin_lt {bin : BinOperand} (h : bin.wf = true) : encodeBin bin + 1 < 2 ^ 24 := by
  cases bin <;> simp only [BinOperand.wf, slotOk, Bool.and_eq_true, decide_eq_true_eq] at h <;>
    simp only [encodeBin] <;> omega

theorem count_lt {n : Nat} (h : countOk n = true) : n ≤ 16 := by
  simp only [countOk, Bool.and_eq_true, decide_eq_true_eq] at h
  exact h.2

theorem OpcodeField.nop : OpcodeField.Statement .nop :=
  fun _ => opcode_of_operands (by decide)
theorem OpcodeField.reset : OpcodeField.Statement .reset :=
  fun _ => opcode_of_operands (by decide)
theorem OpcodeField.startImage : OpcodeField.Statement .startImage :=
  fun _ => opcode_of_operands (by decide)
theorem OpcodeField.eoi : OpcodeField.Statement .eoi :=
  fun _ => opcode_of_operands (by decide)
theorem OpcodeField.htBuildDec (cls : TableClass) (slot : Nat) : OpcodeField.Statement (.htBuildDec cls slot) :=
  fun h => opcode_of_operands (encodeH_lt h (by decide))
theorem OpcodeField.htBuildEnc (cls : TableClass) (slot : Nat) : OpcodeField.Statement (.htBuildEnc cls slot) :=
  fun h => opcode_of_operands (encodeH_lt h (by decide))
theorem OpcodeField.htDecode (cls : TableClass) (slot : Nat) : OpcodeField.Statement (.htDecode cls slot) :=
  fun h => opcode_of_operands (encodeH_lt h (by decide))
theorem OpcodeField.htGetbits (n : Nat) : OpcodeField.Statement (.htGetbits n) :=
  fun h => opcode_of_operands (by have := count_lt h; simp only [encodeOperands]; omega)
theorem OpcodeField.htEncode (cls : TableClass) (slot : Nat) (sym : Byte) : OpcodeField.Statement (.htEncode cls slot sym) :=
  fun h => opcode_of_operands (encodeH_lt h sym.isLt)
theorem OpcodeField.htPutbits (n : Nat) (value : BitVec 16) : OpcodeField.Statement (.htPutbits n value) :=
  fun h =>
  opcode_of_operands (by have := count_lt h; have := value.isLt; simp only [encodeOperands]; omega)
theorem OpcodeField.htFlush : OpcodeField.Statement .htFlush :=
  fun _ => opcode_of_operands (by decide)
theorem OpcodeField.htResetBits : OpcodeField.Statement .htResetBits :=
  fun _ => opcode_of_operands (by decide)
theorem OpcodeField.arithEncInit : OpcodeField.Statement .arithEncInit :=
  fun _ => opcode_of_operands (by decide)
theorem OpcodeField.arithEncode (bin : BinOperand) (x : Bool) : OpcodeField.Statement (.arithEncode bin x) :=
  fun h =>
  opcode_of_operands (by have := encodeBin_lt h; simp only [encodeOperands]; split <;> omega)
theorem OpcodeField.arithEncFlush : OpcodeField.Statement .arithEncFlush :=
  fun _ => opcode_of_operands (by decide)
theorem OpcodeField.arithDecInit : OpcodeField.Statement .arithDecInit :=
  fun _ => opcode_of_operands (by decide)
theorem OpcodeField.arithDecode (bin : BinOperand) : OpcodeField.Statement (.arithDecode bin) :=
  fun h =>
  opcode_of_operands (by have := encodeBin_lt h; simp only [encodeOperands]; omega)
theorem OpcodeField.startScan (dir : Direction) : OpcodeField.Statement (.startScan dir) :=
  fun _ =>
  opcode_of_operands (by simp only [encodeOperands]; split <;> omega)
theorem OpcodeField.encodeMcu : OpcodeField.Statement .encodeMcu :=
  fun _ => opcode_of_operands (by decide)
theorem OpcodeField.decodeMcu : OpcodeField.Statement .decodeMcu :=
  fun _ => opcode_of_operands (by decide)
theorem OpcodeField.finishScan : OpcodeField.Statement .finishScan :=
  fun _ => opcode_of_operands (by decide)
theorem OpcodeField.consumeInput : OpcodeField.Statement .consumeInput :=
  fun _ => opcode_of_operands (by decide)
theorem OpcodeField.startOutputPass : OpcodeField.Statement .startOutputPass :=
  fun _ => opcode_of_operands (by decide)
theorem OpcodeField.produceOutput : OpcodeField.Statement .produceOutput :=
  fun _ => opcode_of_operands (by decide)

end Sys2Proof.Laws
end

