-- ==== Sys2Proof/Laws/State.lean ====
section
/-! SUPPORT. One lemma per field for each named update of the state, and that the reset memories have the canonical
form. -/

namespace Sys2Proof.Machine

/-! ## `State.finish` -/

@[simp] theorem State.finish_cfg (s : State) (k : ResultKind) : (s.finish k).cfg = s.cfg := rfl
@[simp] theorem State.finish_outCapacity (s : State) (k : ResultKind) : (s.finish k).outCapacity = s.outCapacity := rfl
@[simp] theorem State.finish_host (s : State) (k : ResultKind) : (s.finish k).host = s.host := rfl
@[simp] theorem State.finish_reply (s : State) (k : ResultKind) : (s.finish k).reply = s.reply := rfl
@[simp] theorem State.finish_regs (s : State) (k : ResultKind) : (s.finish k).regs = s.regs := rfl
@[simp] theorem State.finish_image (s : State) (k : ResultKind) : (s.finish k).image = s.image := rfl
@[simp] theorem State.finish_scan (s : State) (k : ResultKind) : (s.finish k).scan = s.scan := rfl
@[simp] theorem State.finish_ent (s : State) (k : ResultKind) : (s.finish k).ent = s.ent := rfl
@[simp] theorem State.finish_ctl (s : State) (k : ResultKind) : (s.finish k).ctl = s.ctl := rfl
@[simp] theorem State.finish_hspec (s : State) (k : ResultKind) : (s.finish k).hspec = s.hspec := rfl
@[simp] theorem State.finish_dtbl (s : State) (k : ResultKind) : (s.finish k).dtbl = s.dtbl := rfl
@[simp] theorem State.finish_qtbl (s : State) (k : ResultKind) : (s.finish k).qtbl = s.qtbl := rfl
@[simp] theorem State.finish_stats (s : State) (k : ResultKind) : (s.finish k).stats = s.stats := rfl
@[simp] theorem State.finish_mcubuf (s : State) (k : ResultKind) : (s.finish k).mcubuf = s.mcubuf := rfl
@[simp] theorem State.finish_coef (s : State) (k : ResultKind) : (s.finish k).coef = s.coef := rfl
@[simp] theorem State.finish_inPort (s : State) (k : ResultKind) : (s.finish k).inPort = s.inPort := rfl
@[simp] theorem State.finish_outPort (s : State) (k : ResultKind) : (s.finish k).outPort = s.outPort := rfl
@[simp] theorem State.finish_idctPort (s : State) (k : ResultKind) : (s.finish k).idctPort = s.idctPort := rfl

@[simp] theorem State.finish_status (s : State) (k : ResultKind) :
    (s.finish k).status = { s.status with resultKind := k, suspendCause := .none } := rfl

/-! ## `State.raiseFault` -/

@[simp] theorem State.raiseFault_cfg (s : State) (c : FaultCode) : (s.raiseFault c).cfg = s.cfg := rfl
@[simp] theorem State.raiseFault_outCapacity (s : State) (c : FaultCode) : (s.raiseFault c).outCapacity = s.outCapacity := rfl
@[simp] theorem State.raiseFault_host (s : State) (c : FaultCode) : (s.raiseFault c).host = s.host := rfl
@[simp] theorem State.raiseFault_reply (s : State) (c : FaultCode) : (s.raiseFault c).reply = s.reply := rfl
@[simp] theorem State.raiseFault_regs (s : State) (c : FaultCode) : (s.raiseFault c).regs = s.regs := rfl
@[simp] theorem State.raiseFault_image (s : State) (c : FaultCode) : (s.raiseFault c).image = s.image := rfl
@[simp] theorem State.raiseFault_scan (s : State) (c : FaultCode) : (s.raiseFault c).scan = s.scan := rfl
@[simp] theorem State.raiseFault_ent (s : State) (c : FaultCode) : (s.raiseFault c).ent = s.ent := rfl
@[simp] theorem State.raiseFault_ctl (s : State) (c : FaultCode) : (s.raiseFault c).ctl = s.ctl := rfl
@[simp] theorem State.raiseFault_hspec (s : State) (c : FaultCode) : (s.raiseFault c).hspec = s.hspec := rfl
@[simp] theorem State.raiseFault_dtbl (s : State) (c : FaultCode) : (s.raiseFault c).dtbl = s.dtbl := rfl
@[simp] theorem State.raiseFault_qtbl (s : State) (c : FaultCode) : (s.raiseFault c).qtbl = s.qtbl := rfl
@[simp] theorem State.raiseFault_stats (s : State) (c : FaultCode) : (s.raiseFault c).stats = s.stats := rfl
@[simp] theorem State.raiseFault_mcubuf (s : State) (c : FaultCode) : (s.raiseFault c).mcubuf = s.mcubuf := rfl
@[simp] theorem State.raiseFault_coef (s : State) (c : FaultCode) : (s.raiseFault c).coef = s.coef := rfl
@[simp] theorem State.raiseFault_inPort (s : State) (c : FaultCode) : (s.raiseFault c).inPort = s.inPort := rfl
@[simp] theorem State.raiseFault_outPort (s : State) (c : FaultCode) : (s.raiseFault c).outPort = s.outPort := rfl
@[simp] theorem State.raiseFault_idctPort (s : State) (c : FaultCode) : (s.raiseFault c).idctPort = s.idctPort := rfl

/-- The first fault is kept (`60_exceptions.md` R902). -/
theorem State.raiseFault_first (s : State) (c : FaultCode) (h : s.status.fault = none) :
    (s.raiseFault c).status = { s.status with fault := some c, resultKind := .done, suspendCause := .none } := by
  simp [State.raiseFault, h]

/-! ## `State.suspended` -/

@[simp] theorem State.suspended_cfg (s : State) (c : SuspendCause) : (s.suspended c).cfg = s.cfg := rfl
@[simp] theorem State.suspended_outCapacity (s : State) (c : SuspendCause) : (s.suspended c).outCapacity = s.outCapacity := rfl
@[simp] theorem State.suspended_host (s : State) (c : SuspendCause) : (s.suspended c).host = s.host := rfl
@[simp] theorem State.suspended_reply (s : State) (c : SuspendCause) : (s.suspended c).reply = s.reply := rfl
@[simp] theorem State.suspended_regs (s : State) (c : SuspendCause) : (s.suspended c).regs = s.regs := rfl
@[simp] theorem State.suspended_image (s : State) (c : SuspendCause) : (s.suspended c).image = s.image := rfl
@[simp] theorem State.suspended_scan (s : State) (c : SuspendCause) : (s.suspended c).scan = s.scan := rfl
@[simp] theorem State.suspended_ent (s : State) (c : SuspendCause) : (s.suspended c).ent = s.ent := rfl
@[simp] theorem State.suspended_ctl (s : State) (c : SuspendCause) : (s.suspended c).ctl = s.ctl := rfl
@[simp] theorem State.suspended_hspec (s : State) (c : SuspendCause) : (s.suspended c).hspec = s.hspec := rfl
@[simp] theorem State.suspended_dtbl (s : State) (c : SuspendCause) : (s.suspended c).dtbl = s.dtbl := rfl
@[simp] theorem State.suspended_qtbl (s : State) (c : SuspendCause) : (s.suspended c).qtbl = s.qtbl := rfl
@[simp] theorem State.suspended_stats (s : State) (c : SuspendCause) : (s.suspended c).stats = s.stats := rfl
@[simp] theorem State.suspended_mcubuf (s : State) (c : SuspendCause) : (s.suspended c).mcubuf = s.mcubuf := rfl
@[simp] theorem State.suspended_coef (s : State) (c : SuspendCause) : (s.suspended c).coef = s.coef := rfl
@[simp] theorem State.suspended_inPort (s : State) (c : SuspendCause) : (s.suspended c).inPort = s.inPort := rfl
@[simp] theorem State.suspended_outPort (s : State) (c : SuspendCause) : (s.suspended c).outPort = s.outPort := rfl
@[simp] theorem State.suspended_idctPort (s : State) (c : SuspendCause) : (s.suspended c).idctPort = s.idctPort := rfl

@[simp] theorem State.suspended_status (s : State) (c : SuspendCause) :
    (s.suspended c).status = { s.status with resultKind := .suspended, suspendCause := c } := rfl

/-! ## `State.withBin` -/

@[simp] theorem State.withBin_cfg (s : State) (x : Bin) (v : Byte) : (s.withBin x v).cfg = s.cfg := by
  cases x <;> rfl
@[simp] theorem State.withBin_outCapacity (s : State) (x : Bin) (v : Byte) : (s.withBin x v).outCapacity = s.outCapacity := by
  cases x <;> rfl
@[simp] theorem State.withBin_host (s : State) (x : Bin) (v : Byte) : (s.withBin x v).host = s.host := by
  cases x <;> rfl
@[simp] theorem State.withBin_reply (s : State) (x : Bin) (v : Byte) : (s.withBin x v).reply = s.reply := by
  cases x <;> rfl
@[simp] theorem State.withBin_regs (s : State) (x : Bin) (v : Byte) : (s.withBin x v).regs = s.regs := by
  cases x <;> rfl
@[simp] theorem State.withBin_status (s : State) (x : Bin) (v : Byte) : (s.withBin x v).status = s.status := by
  cases x <;> rfl
@[simp] theorem State.withBin_image (s : State) (x : Bin) (v : Byte) : (s.withBin x v).image = s.image := by
  cases x <;> rfl
@[simp] theorem State.withBin_scan (s : State) (x : Bin) (v : Byte) : (s.withBin x v).scan = s.scan := by
  cases x <;> rfl
@[simp] theorem State.withBin_ctl (s : State) (x : Bin) (v : Byte) : (s.withBin x v).ctl = s.ctl := by
  cases x <;> rfl
@[simp] theorem State.withBin_hspec (s : State) (x : Bin) (v : Byte) : (s.withBin x v).hspec = s.hspec := by
  cases x <;> rfl
@[simp] theorem State.withBin_dtbl (s : State) (x : Bin) (v : Byte) : (s.withBin x v).dtbl = s.dtbl := by
  cases x <;> rfl
@[simp] theorem State.withBin_qtbl (s : State) (x : Bin) (v : Byte) : (s.withBin x v).qtbl = s.qtbl := by
  cases x <;> rfl
@[simp] theorem State.withBin_mcubuf (s : State) (x : Bin) (v : Byte) : (s.withBin x v).mcubuf = s.mcubuf := by
  cases x <;> rfl
@[simp] theorem State.withBin_coef (s : State) (x : Bin) (v : Byte) : (s.withBin x v).coef = s.coef := by
  cases x <;> rfl
@[simp] theorem State.withBin_inPort (s : State) (x : Bin) (v : Byte) : (s.withBin x v).inPort = s.inPort := by
  cases x <;> rfl
@[simp] theorem State.withBin_outPort (s : State) (x : Bin) (v : Byte) : (s.withBin x v).outPort = s.outPort := by
  cases x <;> rfl
@[simp] theorem State.withBin_idctPort (s : State) (x : Bin) (v : Byte) : (s.withBin x v).idctPort = s.idctPort := by
  cases x <;> rfl

@[simp] theorem State.withBin_stats (s : State) (a : Nat) (v : Byte) :
    (s.withBin (.stats a) v).stats = Cells.write 0 s.stats a v := rfl
@[simp] theorem State.withBin_ent (s : State) (a : Nat) (v : Byte) : (s.withBin (.stats a) v).ent = s.ent := rfl
@[simp] theorem State.withBin_fixed_stats (s : State) (v : Byte) : (s.withBin .fixed v).stats = s.stats := rfl
@[simp] theorem State.withBin_fixed_ent (s : State) (v : Byte) :
    (s.withBin .fixed v).ent = { s.ent with fixedBin := v } := rfl

/-- A bin reads as it was written. -/
theorem State.binByte_withBin (s : State) (x : Bin) (v : Byte) (h : Cells.wf 0 s.stats) :
    (s.withBin x v).binByte x = v := by
  cases x with
  | stats a => exact Cells.read_write_same v h
  | fixed => rfl

/-! ## `State.withCoef` -/

@[simp] theorem State.withCoef_cfg (s : State) (r : BlockRef) (p : Nat) (v : Coef) : (s.withCoef r p v).cfg = s.cfg := by
  cases r <;> rfl
@[simp] theorem State.withCoef_outCapacity (s : State) (r : BlockRef) (p : Nat) (v : Coef) : (s.withCoef r p v).outCapacity = s.outCapacity := by
  cases r <;> rfl
@[simp] theorem State.withCoef_host (s : State) (r : BlockRef) (p : Nat) (v : Coef) : (s.withCoef r p v).host = s.host := by
  cases r <;> rfl
@[simp] theorem State.withCoef_reply (s : State) (r : BlockRef) (p : Nat) (v : Coef) : (s.withCoef r p v).reply = s.reply := by
  cases r <;> rfl
@[simp] theorem State.withCoef_regs (s : State) (r : BlockRef) (p : Nat) (v : Coef) : (s.withCoef r p v).regs = s.regs := by
  cases r <;> rfl
@[simp] theorem State.withCoef_status (s : State) (r : BlockRef) (p : Nat) (v : Coef) : (s.withCoef r p v).status = s.status := by
  cases r <;> rfl
@[simp] theorem State.withCoef_image (s : State) (r : BlockRef) (p : Nat) (v : Coef) : (s.withCoef r p v).image = s.image := by
  cases r <;> rfl
@[simp] theorem State.withCoef_scan (s : State) (r : BlockRef) (p : Nat) (v : Coef) : (s.withCoef r p v).scan = s.scan := by
  cases r <;> rfl
@[simp] theorem State.withCoef_ent (s : State) (r : BlockRef) (p : Nat) (v : Coef) : (s.withCoef r p v).ent = s.ent := by
  cases r <;> rfl
@[simp] theorem State.withCoef_ctl (s : State) (r : BlockRef) (p : Nat) (v : Coef) : (s.withCoef r p v).ctl = s.ctl := by
  cases r <;> rfl
@[simp] theorem State.withCoef_hspec (s : State) (r : BlockRef) (p : Nat) (v : Coef) : (s.withCoef r p v).hspec = s.hspec := by
  cases r <;> rfl
@[simp] theorem State.withCoef_dtbl (s : State) (r : BlockRef) (p : Nat) (v : Coef) : (s.withCoef r p v).dtbl = s.dtbl := by
  cases r <;> rfl
@[simp] theorem State.withCoef_qtbl (s : State) (r : BlockRef) (p : Nat) (v : Coef) : (s.withCoef r p v).qtbl = s.qtbl := by
  cases r <;> rfl
@[simp] theorem State.withCoef_stats (s : State) (r : BlockRef) (p : Nat) (v : Coef) : (s.withCoef r p v).stats = s.stats := by
  cases r <;> rfl
@[simp] theorem State.withCoef_inPort (s : State) (r : BlockRef) (p : Nat) (v : Coef) : (s.withCoef r p v).inPort = s.inPort := by
  cases r <;> rfl
@[simp] theorem State.withCoef_outPort (s : State) (r : BlockRef) (p : Nat) (v : Coef) : (s.withCoef r p v).outPort = s.outPort := by
  cases r <;> rfl
@[simp] theorem State.withCoef_idctPort (s : State) (r : BlockRef) (p : Nat) (v : Coef) : (s.withCoef r p v).idctPort = s.idctPort := by
  cases r <;> rfl

@[simp] theorem State.withCoef_buffer (s : State) (n p : Nat) (v : Coef) :
    (s.withCoef (.mcubuf n) p v).mcubuf = Cells.write 0 s.mcubuf (n * dctSize2 + p) v := rfl
@[simp] theorem State.withCoef_buffer_coef (s : State) (n p : Nat) (v : Coef) :
    (s.withCoef (.mcubuf n) p v).coef = s.coef := rfl
@[simp] theorem State.withCoef_array (s : State) (n p : Nat) (v : Coef) :
    (s.withCoef (.coef n) p v).coef = Cells.write 0 s.coef (n * dctSize2 + p) v := rfl
@[simp] theorem State.withCoef_array_buffer (s : State) (n p : Nat) (v : Coef) :
    (s.withCoef (.coef n) p v).mcubuf = s.mcubuf := rfl

/-- A coefficient reads as it was written. -/
theorem State.coefAt_withCoef (s : State) (r : BlockRef) (p : Nat) (v : Coef) (hb : Cells.wf 0 s.mcubuf)
    (hc : Cells.wf 0 s.coef) : (s.withCoef r p v).coefAt r p = v := by
  cases r with
  | mcubuf n => exact Cells.read_write_same v hb
  | coef n => exact Cells.read_write_same v hc

/-! ## `State.withDerived` -/

@[simp] theorem State.withDerived_cfg (s : State) (cls : TableClass) (t : Nat) (d : DerivedTable) : (s.withDerived cls t d).cfg = s.cfg := rfl
@[simp] theorem State.withDerived_outCapacity (s : State) (cls : TableClass) (t : Nat) (d : DerivedTable) : (s.withDerived cls t d).outCapacity = s.outCapacity := rfl
@[simp] theorem State.withDerived_host (s : State) (cls : TableClass) (t : Nat) (d : DerivedTable) : (s.withDerived cls t d).host = s.host := rfl
@[simp] theorem State.withDerived_reply (s : State) (cls : TableClass) (t : Nat) (d : DerivedTable) : (s.withDerived cls t d).reply = s.reply := rfl
@[simp] theorem State.withDerived_regs (s : State) (cls : TableClass) (t : Nat) (d : DerivedTable) : (s.withDerived cls t d).regs = s.regs := rfl
@[simp] theorem State.withDerived_status (s : State) (cls : TableClass) (t : Nat) (d : DerivedTable) : (s.withDerived cls t d).status = s.status := rfl
@[simp] theorem State.withDerived_image (s : State) (cls : TableClass) (t : Nat) (d : DerivedTable) : (s.withDerived cls t d).image = s.image := rfl
@[simp] theorem State.withDerived_scan (s : State) (cls : TableClass) (t : Nat) (d : DerivedTable) : (s.withDerived cls t d).scan = s.scan := rfl
@[simp] theorem State.withDerived_ent (s : State) (cls : TableClass) (t : Nat) (d : DerivedTable) : (s.withDerived cls t d).ent = s.ent := rfl
@[simp] theorem State.withDerived_ctl (s : State) (cls : TableClass) (t : Nat) (d : DerivedTable) : (s.withDerived cls t d).ctl = s.ctl := rfl
@[simp] theorem State.withDerived_hspec (s : State) (cls : TableClass) (t : Nat) (d : DerivedTable) : (s.withDerived cls t d).hspec = s.hspec := rfl
@[simp] theorem State.withDerived_qtbl (s : State) (cls : TableClass) (t : Nat) (d : DerivedTable) : (s.withDerived cls t d).qtbl = s.qtbl := rfl
@[simp] theorem State.withDerived_stats (s : State) (cls : TableClass) (t : Nat) (d : DerivedTable) : (s.withDerived cls t d).stats = s.stats := rfl
@[simp] theorem State.withDerived_mcubuf (s : State) (cls : TableClass) (t : Nat) (d : DerivedTable) : (s.withDerived cls t d).mcubuf = s.mcubuf := rfl
@[simp] theorem State.withDerived_coef (s : State) (cls : TableClass) (t : Nat) (d : DerivedTable) : (s.withDerived cls t d).coef = s.coef := rfl
@[simp] theorem State.withDerived_inPort (s : State) (cls : TableClass) (t : Nat) (d : DerivedTable) : (s.withDerived cls t d).inPort = s.inPort := rfl
@[simp] theorem State.withDerived_outPort (s : State) (cls : TableClass) (t : Nat) (d : DerivedTable) : (s.withDerived cls t d).outPort = s.outPort := rfl
@[simp] theorem State.withDerived_idctPort (s : State) (cls : TableClass) (t : Nat) (d : DerivedTable) : (s.withDerived cls t d).idctPort = s.idctPort := rfl

/-! ## `State.startPass` -/

@[simp] theorem State.startPass_cfg (s : State)  : (s.startPass).cfg = s.cfg := rfl
@[simp] theorem State.startPass_outCapacity (s : State)  : (s.startPass).outCapacity = s.outCapacity := rfl
@[simp] theorem State.startPass_host (s : State)  : (s.startPass).host = s.host := rfl
@[simp] theorem State.startPass_reply (s : State)  : (s.startPass).reply = s.reply := rfl
@[simp] theorem State.startPass_status (s : State)  : (s.startPass).status = s.status := rfl
@[simp] theorem State.startPass_image (s : State)  : (s.startPass).image = s.image := rfl
@[simp] theorem State.startPass_scan (s : State)  : (s.startPass).scan = s.scan := rfl
@[simp] theorem State.startPass_ent (s : State)  : (s.startPass).ent = s.ent := rfl
@[simp] theorem State.startPass_hspec (s : State)  : (s.startPass).hspec = s.hspec := rfl
@[simp] theorem State.startPass_dtbl (s : State)  : (s.startPass).dtbl = s.dtbl := rfl
@[simp] theorem State.startPass_qtbl (s : State)  : (s.startPass).qtbl = s.qtbl := rfl
@[simp] theorem State.startPass_stats (s : State)  : (s.startPass).stats = s.stats := rfl
@[simp] theorem State.startPass_mcubuf (s : State)  : (s.startPass).mcubuf = s.mcubuf := rfl
@[simp] theorem State.startPass_coef (s : State)  : (s.startPass).coef = s.coef := rfl
@[simp] theorem State.startPass_inPort (s : State)  : (s.startPass).inPort = s.inPort := rfl
@[simp] theorem State.startPass_outPort (s : State)  : (s.startPass).outPort = s.outPort := rfl
@[simp] theorem State.startPass_idctPort (s : State)  : (s.startPass).idctPort = s.idctPort := rfl

/-! ## `State.endImage` -/

@[simp] theorem State.endImage_cfg (s : State)  : (s.endImage).cfg = s.cfg := rfl
@[simp] theorem State.endImage_outCapacity (s : State)  : (s.endImage).outCapacity = s.outCapacity := rfl
@[simp] theorem State.endImage_host (s : State)  : (s.endImage).host = s.host := rfl
@[simp] theorem State.endImage_reply (s : State)  : (s.endImage).reply = s.reply := rfl
@[simp] theorem State.endImage_status (s : State)  : (s.endImage).status = s.status := rfl
@[simp] theorem State.endImage_scan (s : State)  : (s.endImage).scan = s.scan := rfl
@[simp] theorem State.endImage_ent (s : State)  : (s.endImage).ent = s.ent := rfl
@[simp] theorem State.endImage_hspec (s : State)  : (s.endImage).hspec = s.hspec := rfl
@[simp] theorem State.endImage_dtbl (s : State)  : (s.endImage).dtbl = s.dtbl := rfl
@[simp] theorem State.endImage_qtbl (s : State)  : (s.endImage).qtbl = s.qtbl := rfl
@[simp] theorem State.endImage_stats (s : State)  : (s.endImage).stats = s.stats := rfl
@[simp] theorem State.endImage_mcubuf (s : State)  : (s.endImage).mcubuf = s.mcubuf := rfl
@[simp] theorem State.endImage_coef (s : State)  : (s.endImage).coef = s.coef := rfl
@[simp] theorem State.endImage_inPort (s : State)  : (s.endImage).inPort = s.inPort := rfl
@[simp] theorem State.endImage_outPort (s : State)  : (s.endImage).outPort = s.outPort := rfl
@[simp] theorem State.endImage_idctPort (s : State)  : (s.endImage).idctPort = s.idctPort := rfl

/-! ## `State.soiReset` -/

@[simp] theorem State.soiReset_cfg (s : State)  : (s.soiReset).cfg = s.cfg := rfl
@[simp] theorem State.soiReset_outCapacity (s : State)  : (s.soiReset).outCapacity = s.outCapacity := rfl
@[simp] theorem State.soiReset_host (s : State)  : (s.soiReset).host = s.host := rfl
@[simp] theorem State.soiReset_reply (s : State)  : (s.soiReset).reply = s.reply := rfl
@[simp] theorem State.soiReset_scan (s : State)  : (s.soiReset).scan = s.scan := rfl
@[simp] theorem State.soiReset_ctl (s : State)  : (s.soiReset).ctl = s.ctl := rfl
@[simp] theorem State.soiReset_hspec (s : State)  : (s.soiReset).hspec = s.hspec := rfl
@[simp] theorem State.soiReset_dtbl (s : State)  : (s.soiReset).dtbl = s.dtbl := rfl
@[simp] theorem State.soiReset_qtbl (s : State)  : (s.soiReset).qtbl = s.qtbl := rfl
@[simp] theorem State.soiReset_mcubuf (s : State)  : (s.soiReset).mcubuf = s.mcubuf := rfl
@[simp] theorem State.soiReset_coef (s : State)  : (s.soiReset).coef = s.coef := rfl
@[simp] theorem State.soiReset_inPort (s : State)  : (s.soiReset).inPort = s.inPort := rfl
@[simp] theorem State.soiReset_outPort (s : State)  : (s.soiReset).outPort = s.outPort := rfl
@[simp] theorem State.soiReset_idctPort (s : State)  : (s.soiReset).idctPort = s.idctPort := rfl

/-! ## Reset -/

@[simp] theorem State.resetCore_cfg (s : State) : s.resetCore.cfg = s.cfg := rfl
@[simp] theorem State.resetCore_outCapacity (s : State) : s.resetCore.outCapacity = s.outCapacity := rfl
@[simp] theorem State.resetCore_host (s : State) : s.resetCore.host = s.host := rfl
@[simp] theorem State.resetCore_reply (s : State) : s.resetCore.reply = s.reply := rfl
@[simp] theorem State.resetCore_fault (s : State) : s.resetCore.status.fault = none := rfl

theorem image_wf_reset : Image.wf Image.reset := by
  intro c hc
  have : c = ImageComp.reset := by simpa [Image.reset] using hc
  subst this
  exact ⟨Cells.wf_nil, Cells.wf_nil⟩

theorem memory_wf_resetWith (cfg : Config) (cap : Option Nat) (host : List HostOp) (reply : HostReply) :
    Memory.wf (State.resetWith cfg cap host reply) := by
  refine ⟨Cells.wf_nil, fun t ht => ?_, Cells.wf_nil, Cells.wf_nil, Cells.wf_nil, Cells.wf_nil, Cells.wf_nil,
    image_wf_reset⟩
  have : t = DerivedTable.reset := by
    simpa [State.resetWith] using ht
  subst this
  exact ⟨Cells.wf_nil, Cells.wf_nil, Cells.wf_nil, Cells.wf_nil, Cells.wf_nil, Cells.wf_nil, Cells.wf_nil⟩

end Sys2Proof.Machine
end

