-- ==== Sys2Proof/Laws/Terms.lean ====
section
/-! SUPPORT. One lemma per field for the updates of state that the statements speak of, and what the reset of the
arithmetic contexts does. -/

namespace Sys2Proof.Machine

/-! ## `State.warned` -/

@[simp] theorem State.warned_cfg (s : State) (w : Warning) : (s.warned w).cfg = s.cfg := rfl
@[simp] theorem State.warned_outCapacity (s : State) (w : Warning) : (s.warned w).outCapacity = s.outCapacity := rfl
@[simp] theorem State.warned_host (s : State) (w : Warning) : (s.warned w).host = s.host := rfl
@[simp] theorem State.warned_reply (s : State) (w : Warning) : (s.warned w).reply = s.reply := rfl
@[simp] theorem State.warned_regs (s : State) (w : Warning) : (s.warned w).regs = s.regs := rfl
@[simp] theorem State.warned_image (s : State) (w : Warning) : (s.warned w).image = s.image := rfl
@[simp] theorem State.warned_scan (s : State) (w : Warning) : (s.warned w).scan = s.scan := rfl
@[simp] theorem State.warned_ent (s : State) (w : Warning) : (s.warned w).ent = s.ent := rfl
@[simp] theorem State.warned_ctl (s : State) (w : Warning) : (s.warned w).ctl = s.ctl := rfl
@[simp] theorem State.warned_hspec (s : State) (w : Warning) : (s.warned w).hspec = s.hspec := rfl
@[simp] theorem State.warned_dtbl (s : State) (w : Warning) : (s.warned w).dtbl = s.dtbl := rfl
@[simp] theorem State.warned_qtbl (s : State) (w : Warning) : (s.warned w).qtbl = s.qtbl := rfl
@[simp] theorem State.warned_stats (s : State) (w : Warning) : (s.warned w).stats = s.stats := rfl
@[simp] theorem State.warned_mcubuf (s : State) (w : Warning) : (s.warned w).mcubuf = s.mcubuf := rfl
@[simp] theorem State.warned_coef (s : State) (w : Warning) : (s.warned w).coef = s.coef := rfl
@[simp] theorem State.warned_inPort (s : State) (w : Warning) : (s.warned w).inPort = s.inPort := rfl
@[simp] theorem State.warned_outPort (s : State) (w : Warning) : (s.warned w).outPort = s.outPort := rfl
@[simp] theorem State.warned_idctPort (s : State) (w : Warning) : (s.warned w).idctPort = s.idctPort := rfl

/-! ## `State.tookBits` -/

@[simp] theorem State.tookBits_cfg (s : State) (bs rest : List Byte) (n : Nat) :
    (s.tookBits bs rest n).cfg = s.cfg := rfl
@[simp] theorem State.tookBits_outCapacity (s : State) (bs rest : List Byte) (n : Nat) :
    (s.tookBits bs rest n).outCapacity = s.outCapacity := rfl
@[simp] theorem State.tookBits_host (s : State) (bs rest : List Byte) (n : Nat) :
    (s.tookBits bs rest n).host = s.host := rfl
@[simp] theorem State.tookBits_reply (s : State) (bs rest : List Byte) (n : Nat) :
    (s.tookBits bs rest n).reply = s.reply := rfl
@[simp] theorem State.tookBits_regs (s : State) (bs rest : List Byte) (n : Nat) :
    (s.tookBits bs rest n).regs = s.regs := rfl
@[simp] theorem State.tookBits_status (s : State) (bs rest : List Byte) (n : Nat) :
    (s.tookBits bs rest n).status = s.status := rfl
@[simp] theorem State.tookBits_image (s : State) (bs rest : List Byte) (n : Nat) :
    (s.tookBits bs rest n).image = s.image := rfl
@[simp] theorem State.tookBits_scan (s : State) (bs rest : List Byte) (n : Nat) :
    (s.tookBits bs rest n).scan = s.scan := rfl
@[simp] theorem State.tookBits_ctl (s : State) (bs rest : List Byte) (n : Nat) :
    (s.tookBits bs rest n).ctl = s.ctl := rfl
@[simp] theorem State.tookBits_hspec (s : State) (bs rest : List Byte) (n : Nat) :
    (s.tookBits bs rest n).hspec = s.hspec := rfl
@[simp] theorem State.tookBits_dtbl (s : State) (bs rest : List Byte) (n : Nat) :
    (s.tookBits bs rest n).dtbl = s.dtbl := rfl
@[simp] theorem State.tookBits_qtbl (s : State) (bs rest : List Byte) (n : Nat) :
    (s.tookBits bs rest n).qtbl = s.qtbl := rfl
@[simp] theorem State.tookBits_stats (s : State) (bs rest : List Byte) (n : Nat) :
    (s.tookBits bs rest n).stats = s.stats := rfl
@[simp] theorem State.tookBits_mcubuf (s : State) (bs rest : List Byte) (n : Nat) :
    (s.tookBits bs rest n).mcubuf = s.mcubuf := rfl
@[simp] theorem State.tookBits_coef (s : State) (bs rest : List Byte) (n : Nat) :
    (s.tookBits bs rest n).coef = s.coef := rfl
@[simp] theorem State.tookBits_outPort (s : State) (bs rest : List Byte) (n : Nat) :
    (s.tookBits bs rest n).outPort = s.outPort := rfl
@[simp] theorem State.tookBits_idctPort (s : State) (bs rest : List Byte) (n : Nat) :
    (s.tookBits bs rest n).idctPort = s.idctPort := rfl

@[simp] theorem State.tookBits_inPort (s : State) (bs rest : List Byte) (n : Nat) :
    (s.tookBits bs rest n).inPort = rest := rfl
@[simp] theorem State.tookBits_bitsLeft (s : State) (bs rest : List Byte) (n : Nat) :
    (s.tookBits bs rest n).ent.bitsLeft = s.bitsWith bs - n := rfl
@[simp] theorem State.tookBits_unreadMarker (s : State) (bs rest : List Byte) (n : Nat) :
    (s.tookBits bs rest n).ent.unreadMarker = s.ent.unreadMarker := rfl

/-! ## `State.ranDry` -/

@[simp] theorem State.ranDry_cfg (s : State) : (s.ranDry).cfg = s.cfg := by
  unfold State.ranDry
  split <;> rfl
@[simp] theorem State.ranDry_outCapacity (s : State) :
    (s.ranDry).outCapacity = s.outCapacity := by
  unfold State.ranDry
  split <;> rfl
@[simp] theorem State.ranDry_host (s : State) : (s.ranDry).host = s.host := by
  unfold State.ranDry
  split <;> rfl
@[simp] theorem State.ranDry_reply (s : State) : (s.ranDry).reply = s.reply := by
  unfold State.ranDry
  split <;> rfl
@[simp] theorem State.ranDry_regs (s : State) : (s.ranDry).regs = s.regs := by
  unfold State.ranDry
  split <;> rfl
@[simp] theorem State.ranDry_image (s : State) : (s.ranDry).image = s.image := by
  unfold State.ranDry
  split <;> rfl
@[simp] theorem State.ranDry_scan (s : State) : (s.ranDry).scan = s.scan := by
  unfold State.ranDry
  split <;> rfl
@[simp] theorem State.ranDry_ctl (s : State) : (s.ranDry).ctl = s.ctl := by
  unfold State.ranDry
  split <;> rfl
@[simp] theorem State.ranDry_hspec (s : State) : (s.ranDry).hspec = s.hspec := by
  unfold State.ranDry
  split <;> rfl
@[simp] theorem State.ranDry_dtbl (s : State) : (s.ranDry).dtbl = s.dtbl := by
  unfold State.ranDry
  split <;> rfl
@[simp] theorem State.ranDry_qtbl (s : State) : (s.ranDry).qtbl = s.qtbl := by
  unfold State.ranDry
  split <;> rfl
@[simp] theorem State.ranDry_stats (s : State) : (s.ranDry).stats = s.stats := by
  unfold State.ranDry
  split <;> rfl
@[simp] theorem State.ranDry_mcubuf (s : State) :
    (s.ranDry).mcubuf = s.mcubuf := by
  unfold State.ranDry
  split <;> rfl
@[simp] theorem State.ranDry_coef (s : State) : (s.ranDry).coef = s.coef := by
  unfold State.ranDry
  split <;> rfl
@[simp] theorem State.ranDry_inPort (s : State) :
    (s.ranDry).inPort = s.inPort := by
  unfold State.ranDry
  split <;> rfl
@[simp] theorem State.ranDry_outPort (s : State) :
    (s.ranDry).outPort = s.outPort := by
  unfold State.ranDry
  split <;> rfl
@[simp] theorem State.ranDry_idctPort (s : State) :
    (s.ranDry).idctPort = s.idctPort := by
  unfold State.ranDry
  split <;> rfl

/-! ## `State.foundMarker` -/

@[simp] theorem State.foundMarker_cfg (s : State) (n : Nat) (m : Byte) (rest : List Byte) :
    (s.foundMarker n m rest).cfg = s.cfg := by
  unfold State.foundMarker
  split <;> rfl
@[simp] theorem State.foundMarker_outCapacity (s : State) (n : Nat) (m : Byte) (rest : List Byte) :
    (s.foundMarker n m rest).outCapacity = s.outCapacity := by
  unfold State.foundMarker
  split <;> rfl
@[simp] theorem State.foundMarker_host (s : State) (n : Nat) (m : Byte) (rest : List Byte) :
    (s.foundMarker n m rest).host = s.host := by
  unfold State.foundMarker
  split <;> rfl
@[simp] theorem State.foundMarker_reply (s : State) (n : Nat) (m : Byte) (rest : List Byte) :
    (s.foundMarker n m rest).reply = s.reply := by
  unfold State.foundMarker
  split <;> rfl
@[simp] theorem State.foundMarker_regs (s : State) (n : Nat) (m : Byte) (rest : List Byte) :
    (s.foundMarker n m rest).regs = s.regs := by
  unfold State.foundMarker
  split <;> rfl
@[simp] theorem State.foundMarker_image (s : State) (n : Nat) (m : Byte) (rest : List Byte) :
    (s.foundMarker n m rest).image = s.image := by
  unfold State.foundMarker
  split <;> rfl
@[simp] theorem State.foundMarker_scan (s : State) (n : Nat) (m : Byte) (rest : List Byte) :
    (s.foundMarker n m rest).scan = s.scan := by
  unfold State.foundMarker
  split <;> rfl
@[simp] theorem State.foundMarker_ctl (s : State) (n : Nat) (m : Byte) (rest : List Byte) :
    (s.foundMarker n m rest).ctl = s.ctl := by
  unfold State.foundMarker
  split <;> rfl
@[simp] theorem State.foundMarker_hspec (s : State) (n : Nat) (m : Byte) (rest : List Byte) :
    (s.foundMarker n m rest).hspec = s.hspec := by
  unfold State.foundMarker
  split <;> rfl
@[simp] theorem State.foundMarker_dtbl (s : State) (n : Nat) (m : Byte) (rest : List Byte) :
    (s.foundMarker n m rest).dtbl = s.dtbl := by
  unfold State.foundMarker
  split <;> rfl
@[simp] theorem State.foundMarker_qtbl (s : State) (n : Nat) (m : Byte) (rest : List Byte) :
    (s.foundMarker n m rest).qtbl = s.qtbl := by
  unfold State.foundMarker
  split <;> rfl
@[simp] theorem State.foundMarker_stats (s : State) (n : Nat) (m : Byte) (rest : List Byte) :
    (s.foundMarker n m rest).stats = s.stats := by
  unfold State.foundMarker
  split <;> rfl
@[simp] theorem State.foundMarker_mcubuf (s : State) (n : Nat) (m : Byte) (rest : List Byte) :
    (s.foundMarker n m rest).mcubuf = s.mcubuf := by
  unfold State.foundMarker
  split <;> rfl
@[simp] theorem State.foundMarker_coef (s : State) (n : Nat) (m : Byte) (rest : List Byte) :
    (s.foundMarker n m rest).coef = s.coef := by
  unfold State.foundMarker
  split <;> rfl
@[simp] theorem State.foundMarker_outPort (s : State) (n : Nat) (m : Byte) (rest : List Byte) :
    (s.foundMarker n m rest).outPort = s.outPort := by
  unfold State.foundMarker
  split <;> rfl
@[simp] theorem State.foundMarker_idctPort (s : State) (n : Nat) (m : Byte) (rest : List Byte) :
    (s.foundMarker n m rest).idctPort = s.idctPort := by
  unfold State.foundMarker
  split <;> rfl

@[simp] theorem State.foundMarker_inPort (s : State) (n : Nat) (m : Byte) (rest : List Byte) :
    (s.foundMarker n m rest).inPort = rest := by
  unfold State.foundMarker
  split <;> rfl
@[simp] theorem State.foundMarker_ent (s : State) (n : Nat) (m : Byte) (rest : List Byte) :
    (s.foundMarker n m rest).ent = { s.ent with unreadMarker := m } := by
  unfold State.foundMarker
  split <;> rfl

/-! ## `State.huffmanRestarted` -/

@[simp] theorem State.huffmanRestarted_cfg (s : State) : (s.huffmanRestarted).cfg = s.cfg := rfl
@[simp] theorem State.huffmanRestarted_outCapacity (s : State) : (s.huffmanRestarted).outCapacity = s.outCapacity := rfl
@[simp] theorem State.huffmanRestarted_host (s : State) : (s.huffmanRestarted).host = s.host := rfl
@[simp] theorem State.huffmanRestarted_reply (s : State) : (s.huffmanRestarted).reply = s.reply := rfl
@[simp] theorem State.huffmanRestarted_regs (s : State) : (s.huffmanRestarted).regs = s.regs := rfl
@[simp] theorem State.huffmanRestarted_status (s : State) : (s.huffmanRestarted).status = s.status := rfl
@[simp] theorem State.huffmanRestarted_image (s : State) : (s.huffmanRestarted).image = s.image := rfl
@[simp] theorem State.huffmanRestarted_scan (s : State) : (s.huffmanRestarted).scan = s.scan := rfl
@[simp] theorem State.huffmanRestarted_ctl (s : State) : (s.huffmanRestarted).ctl = s.ctl := rfl
@[simp] theorem State.huffmanRestarted_hspec (s : State) : (s.huffmanRestarted).hspec = s.hspec := rfl
@[simp] theorem State.huffmanRestarted_dtbl (s : State) : (s.huffmanRestarted).dtbl = s.dtbl := rfl
@[simp] theorem State.huffmanRestarted_qtbl (s : State) : (s.huffmanRestarted).qtbl = s.qtbl := rfl
@[simp] theorem State.huffmanRestarted_stats (s : State) : (s.huffmanRestarted).stats = s.stats := rfl
@[simp] theorem State.huffmanRestarted_mcubuf (s : State) : (s.huffmanRestarted).mcubuf = s.mcubuf := rfl
@[simp] theorem State.huffmanRestarted_coef (s : State) : (s.huffmanRestarted).coef = s.coef := rfl
@[simp] theorem State.huffmanRestarted_inPort (s : State) : (s.huffmanRestarted).inPort = s.inPort := rfl
@[simp] theorem State.huffmanRestarted_outPort (s : State) : (s.huffmanRestarted).outPort = s.outPort := rfl
@[simp] theorem State.huffmanRestarted_idctPort (s : State) : (s.huffmanRestarted).idctPort = s.idctPort := rfl

/-! ## `State.freshContexts` -/

@[simp] theorem State.freshContexts_cfg (s : State) (st : Cells Byte) : (s.freshContexts st).cfg = s.cfg := rfl
@[simp] theorem State.freshContexts_outCapacity (s : State) (st : Cells Byte) :
    (s.freshContexts st).outCapacity = s.outCapacity := rfl
@[simp] theorem State.freshContexts_host (s : State) (st : Cells Byte) : (s.freshContexts st).host = s.host := rfl
@[simp] theorem State.freshContexts_reply (s : State) (st : Cells Byte) : (s.freshContexts st).reply = s.reply := rfl
@[simp] theorem State.freshContexts_regs (s : State) (st : Cells Byte) : (s.freshContexts st).regs = s.regs := rfl
@[simp] theorem State.freshContexts_status (s : State) (st : Cells Byte) : (s.freshContexts st).status = s.status := rfl
@[simp] theorem State.freshContexts_image (s : State) (st : Cells Byte) : (s.freshContexts st).image = s.image := rfl
@[simp] theorem State.freshContexts_scan (s : State) (st : Cells Byte) : (s.freshContexts st).scan = s.scan := rfl
@[simp] theorem State.freshContexts_ctl (s : State) (st : Cells Byte) : (s.freshContexts st).ctl = s.ctl := rfl
@[simp] theorem State.freshContexts_hspec (s : State) (st : Cells Byte) : (s.freshContexts st).hspec = s.hspec := rfl
@[simp] theorem State.freshContexts_dtbl (s : State) (st : Cells Byte) : (s.freshContexts st).dtbl = s.dtbl := rfl
@[simp] theorem State.freshContexts_qtbl (s : State) (st : Cells Byte) : (s.freshContexts st).qtbl = s.qtbl := rfl
@[simp] theorem State.freshContexts_mcubuf (s : State) (st : Cells Byte) : (s.freshContexts st).mcubuf = s.mcubuf := rfl
@[simp] theorem State.freshContexts_coef (s : State) (st : Cells Byte) : (s.freshContexts st).coef = s.coef := rfl
@[simp] theorem State.freshContexts_inPort (s : State) (st : Cells Byte) : (s.freshContexts st).inPort = s.inPort := rfl
@[simp] theorem State.freshContexts_outPort (s : State) (st : Cells Byte) :
    (s.freshContexts st).outPort = s.outPort := rfl
@[simp] theorem State.freshContexts_idctPort (s : State) (st : Cells Byte) :
    (s.freshContexts st).idctPort = s.idctPort := rfl

/-! ## `State.withoutScan` -/

@[simp] theorem State.withoutScan_cfg (s : State) : (s.withoutScan).cfg = s.cfg := rfl
@[simp] theorem State.withoutScan_outCapacity (s : State) : (s.withoutScan).outCapacity = s.outCapacity := rfl
@[simp] theorem State.withoutScan_host (s : State) : (s.withoutScan).host = s.host := rfl
@[simp] theorem State.withoutScan_reply (s : State) : (s.withoutScan).reply = s.reply := rfl
@[simp] theorem State.withoutScan_regs (s : State) : (s.withoutScan).regs = s.regs := rfl
@[simp] theorem State.withoutScan_status (s : State) : (s.withoutScan).status = s.status := rfl
@[simp] theorem State.withoutScan_image (s : State) : (s.withoutScan).image = s.image := rfl
@[simp] theorem State.withoutScan_ent (s : State) : (s.withoutScan).ent = s.ent := rfl
@[simp] theorem State.withoutScan_ctl (s : State) : (s.withoutScan).ctl = s.ctl := rfl
@[simp] theorem State.withoutScan_hspec (s : State) : (s.withoutScan).hspec = s.hspec := rfl
@[simp] theorem State.withoutScan_dtbl (s : State) : (s.withoutScan).dtbl = s.dtbl := rfl
@[simp] theorem State.withoutScan_qtbl (s : State) : (s.withoutScan).qtbl = s.qtbl := rfl
@[simp] theorem State.withoutScan_stats (s : State) : (s.withoutScan).stats = s.stats := rfl
@[simp] theorem State.withoutScan_mcubuf (s : State) : (s.withoutScan).mcubuf = s.mcubuf := rfl
@[simp] theorem State.withoutScan_coef (s : State) : (s.withoutScan).coef = s.coef := rfl
@[simp] theorem State.withoutScan_inPort (s : State) : (s.withoutScan).inPort = s.inPort := rfl
@[simp] theorem State.withoutScan_outPort (s : State) : (s.withoutScan).outPort = s.outPort := rfl
@[simp] theorem State.withoutScan_idctPort (s : State) : (s.withoutScan).idctPort = s.idctPort := rfl

/-! ## The reset of the arithmetic contexts (`43_arith_entropy.md` R636) -/

theorem usesDcBins_iff (s : State) : s.usesDcBins = true ↔ s.codesDc := by
  simp [State.usesDcBins, State.codesDc]

theorem usesAcBins_iff (s : State) : s.usesAcBins = true ↔ s.codesAc := by
  simp [State.usesAcBins, State.codesAc]

/-- `STATS` after the bins of scan component `i` are zeroed. -/
def State.clearBins (s : State) (st : Cells Byte) (i : Nat) : Cells Byte :=
  let st := if s.usesDcBins then Cells.clear st ((s.scan.comp i).dcTbl * 64) 64 else st
  if s.usesAcBins then Cells.clear st (0x400 + (s.scan.comp i).acTbl * 256) 256 else st

theorem run_resetComponentBins (i : Nat) (s : State) (st : Cells Byte) :
    resetComponentBins i { s with stats := st } = .ok ⟨⟩ { s with stats := s.clearBins st i } := by
  unfold resetComponentBins State.clearBins
  cases h : s.usesDcBins <;> cases h' : s.usesAcBins <;>
    · rw [run_get_bind]
      have hd : ({ s with stats := st } : State).usesDcBins = s.usesDcBins := rfl
      have ha : ({ s with stats := st } : State).usesAcBins = s.usesAcBins := rfl
      rw [hd, ha, h, h']
      rfl

theorem run_resetBins (s : State) : ∀ (l : List Nat) (st : Cells Byte),
    l.forM resetComponentBins { s with stats := st } = .ok ⟨⟩ { s with stats := l.foldl s.clearBins st }
  | [], _ => rfl
  | i :: l, st => (run_bind_ok (run_resetComponentBins i s st)).trans (run_resetBins s l _)

theorem read_clearBins (s : State) (st : Cells Byte) (i a : Nat) :
    Cells.read 0 (s.clearBins st i) a =
      if s.codesDc ∧ (s.scan.comp i).dcTbl * 64 ≤ a ∧ a < (s.scan.comp i).dcTbl * 64 + 64 ∨
        s.codesAc ∧ 0x400 + (s.scan.comp i).acTbl * 256 ≤ a ∧ a < 0x400 + (s.scan.comp i).acTbl * 256 + 256 then 0
      else Cells.read 0 st a := by
  have clear (m : Cells Byte) (lo n : Nat) : Cells.read 0 (Cells.clear m lo n) a =
      if lo ≤ a ∧ a < lo + n then 0 else Cells.read 0 m a := by
    split
    · exact Cells.read_clear_inside (by omega) (by omega)
    · exact Cells.read_clear_outside (by omega)
  unfold State.clearBins
  simp only [usesDcBins_iff, usesAcBins_iff]
  by_cases hp : (s.scan.comp i).dcTbl * 64 ≤ a ∧ a < (s.scan.comp i).dcTbl * 64 + 64 <;>
    by_cases hq : 0x400 + (s.scan.comp i).acTbl * 256 ≤ a ∧ a < 0x400 + (s.scan.comp i).acTbl * 256 + 256 <;>
      by_cases hd : s.codesDc <;> by_cases ha : s.codesAc <;>
        simp only [clear, hp, hq, hd, ha, if_true, if_false, and_true, and_false, or_true, true_or, or_self]

theorem read_foldl_clearBins (s : State) (a : Nat) : ∀ (l : List Nat) (st : Cells Byte),
    Cells.read 0 (l.foldl s.clearBins st) a =
      if ∃ i ∈ l, s.codesDc ∧ (s.scan.comp i).dcTbl * 64 ≤ a ∧ a < (s.scan.comp i).dcTbl * 64 + 64 ∨
        s.codesAc ∧ 0x400 + (s.scan.comp i).acTbl * 256 ≤ a ∧ a < 0x400 + (s.scan.comp i).acTbl * 256 + 256 then 0
      else Cells.read 0 st a
  | [], st => by simp
  | i :: l, st => by
    rw [List.foldl_cons, read_foldl_clearBins s a l, read_clearBins]
    simp only [List.mem_cons, exists_eq_or_imp]
    by_cases h : ∃ j ∈ l, s.codesDc ∧ (s.scan.comp j).dcTbl * 64 ≤ a ∧ a < (s.scan.comp j).dcTbl * 64 + 64 ∨
        s.codesAc ∧ 0x400 + (s.scan.comp j).acTbl * 256 ≤ a ∧ a < 0x400 + (s.scan.comp j).acTbl * 256 + 256
    · rw [if_pos h, if_pos (.inr h)]
    · rw [if_neg h]
      simp only [h, or_false]

theorem freshStats_clearBins (s : State) : s.freshStats ((List.range s.scan.compsInScan).foldl s.clearBins s.stats) := by
  intro a
  rw [read_foldl_clearBins]
  constructor
  · rintro ⟨i, hi, h⟩
    exact if_pos ⟨i, List.mem_range.2 hi, h⟩
  · intro h
    exact if_neg fun ⟨i, hi, h'⟩ => h ⟨i, List.mem_range.1 hi, h'⟩

/-- What `ari_reset_contexts()` does. -/
theorem run_ariResetContexts (s : State) :
    ∃ st, s.freshStats st ∧ ariResetContexts s = .ok ⟨⟩ (s.freshContexts st) := by
  refine ⟨_, freshStats_clearBins s, ?_⟩
  unfold ariResetContexts forUpTo
  rw [run_get_bind, run_bind_ok (run_resetBins s _ s.stats)]
  unfold initFixedBin State.freshContexts fixedBinAtStart
  simp only [← usesDcBins_iff]
  cases h : s.usesDcBins <;> cases h' : s.cfg.fixedBinMode <;> simp [h', setBin, State.withBin]

end Sys2Proof.Machine
end

