-- ==== Sys2Proof/Tests/Slice0.lean ====
section
/-! SUPPORT. Tests. Expected values are those of `95_test_vectors.md` and words written out from `30_encoding.md`; the
witnesses show that the hypotheses of the statements can be met. -/

set_option Elab.async false

namespace Sys2Proof.Tests

open Sys2Proof.Machine

/-! ## Helpers -/

def after (o : Host.Outcome State Fault Refusal) : State :=
  match o with
  | .next t => t
  | _ => State.reset

def isNext (o : Host.Outcome State Fault Refusal) : Bool :=
  match o with
  | .next _ => true
  | _ => false

def isRefused (o : Host.Outcome State Fault Refusal) : Bool :=
  match o with
  | .refused _ => true
  | _ => false

theorem next_of {o : Host.Outcome State Fault Refusal} (h : isNext o = true) : o = .next (after o) := by
  cases o <;> first | rfl | cases h

def run (i : Instr) (s : State) : State := after (exec i s)

def runs (is : List Instr) (s : State) : State := is.foldl (fun t i => run i t) s

/-- The command of a word, or nothing. -/
def read (w : Word) : Option Instr :=
  match decode w with
  | .ok i => some i
  | .error _ => none

/-- `LOAD_HTABLE` (`30_encoding.md` R214). -/
def withTable (cls : TableClass) (t : Nat) (counts vals : List Nat) (s : State) : State :=
  let h := match cls with | .dc => t | .ac => 4 + t
  { s with
    hspec := Cells.writes 0 s.hspec
      ((List.range counts.length).map (fun i => (h * 0x120 + i + 1, BitVec.ofNat 8 (counts.getD i 0))) ++
        (List.range vals.length).map fun p => (h * 0x120 + 0x20 + p, BitVec.ofNat 8 (vals.getD p 0)))
    regs := { s.regs with hspecValid := s.regs.hspecValid ||| BitVec.ofNat 32 (2 ^ h) } }

/-- `K3_DC` in DC slot 0. -/
def k3 : State := withTable .dc 0 [0, 1, 5, 1, 1, 1, 1, 1, 1] (List.range 12) State.reset

/-- The first `m` codes of `SYN_DC` and the first `n` codes of `SYN_AC`, in slots 0. -/
def syn (m n : Nat) (s : State) : State :=
  withTable .ac 0 [0, 0, 0, 0, 0, 0, 0, n]
    (([0, 0xF0] ++ (List.range 16).flatMap (fun r => (List.range 10).map fun x => 16 * r + x + 1)).take n)
    (withTable .dc 0 [0, 0, 0, m] (List.range m) s)

/-- A machine with one component of sampling 1 by 1 configured. -/
def gray (dim cfg scan restart : Word) : State :=
  { State.reset with
    regs := { Regs.reset with
      imgDim := dim, imgCfg := cfg, scan := scan, restart := restart, compCfg := Regs.reset.compCfg.set 0 9 } }

/-- A sequential Huffman image of one block row, and its scan about to start. -/
def seqReady : State := run .startImage (syn 6 1 (gray 0x00080010 0x41 0x00100FC0 0))
def seqScan (dir : Direction) : State := run (.startScan dir) seqReady

/-- A sequential arithmetic image and its scan. -/
def ariReady : State := run .startImage (gray 0x00080020 0x61 0x00100FC0 0)
def ariScan (dir : Direction) : State := run (.startScan dir) ariReady

/-- A progressive Huffman image of one block and its DC refinement scan. -/
def refineScan (dir : Direction) : State := runs [.startImage, .startScan dir] (gray 0x00080008 0x51 0x00101000 0)

/-- The scan with this restart interval and the countdown at 0. -/
def dueScan (s : State) (interval : Nat) : State :=
  { s with scan := { s.scan with restartInterval := interval }, ent := { s.ent with restartsToGo := 0 } }

/-- `MCUBUF` with these elements. -/
def withMcu (ws : List (Nat × Coef)) (s : State) : State := { s with mcubuf := Cells.writes 0 s.mcubuf ws }

/-- Program P3 of `95_test_vectors.md` up to step 12: one DC-first scan decoded, an output pass about to start. -/
def p3 : State :=
  let s := gray 0x00180018 0x51 0x00100000 0
  let s := { s with
    qtbl := (List.range 64).map fun p => (p, 16)
    regs := { s.regs with qtblValid := 1 } }
  let s := runs [.startImage, .startScan .decode] (syn 6 1 s)
  let s := { s with inPort := [0x4A, 0x4A, 0x4A, 0x55, 0xA5, 0x25, 0x2A, 0xD2, 0x92, 0xBF, 0xFF, 0xDA] }
  let s := runs [.consumeInput, .consumeInput, .consumeInput] s
  { s with regs := { s.regs with outScan := 1 } }

/-! ## Well-formedness: each check refuses a term (`30_encoding.md` R203 to R205) -/

theorem test_wf_slot : (Instr.htBuildDec .dc 16).wf = false ∧ (Instr.htBuildEnc .ac 16).wf = false ∧
    (Instr.htDecode .dc 16).wf = false ∧ (Instr.htEncode .dc 16 0).wf = false ∧
    (Instr.htDecode .ac 15).wf = true := by decide

theorem test_wf_count : (Instr.htGetbits 0).wf = false ∧ (Instr.htGetbits 17).wf = false ∧
    (Instr.htPutbits 0 0).wf = false ∧ (Instr.htPutbits 17 0).wf = false ∧ (Instr.htGetbits 16).wf = true := by decide

theorem test_wf_bin : (Instr.arithEncode (.dc 0 64) true).wf = false ∧ (Instr.arithEncode (.ac 0 256) true).wf = false ∧
    (Instr.arithDecode (.dc 16 0)).wf = false ∧ (Instr.arithDecode (.ac 16 0)).wf = false ∧
    (Instr.arithDecode (.ac 15 255)).wf = true ∧ (Instr.arithDecode (.dc 15 63)).wf = true := by decide

/-! ## Decoding: words written out from `30_encoding.md` R202 to R210 -/

theorem test_decode_n : read 0x00000000 = some .nop ∧ read 0x01000000 = some .reset ∧
    read 0x02000000 = some .startImage ∧ read 0x03000000 = some .eoi ∧ read 0x16000000 = some .htFlush ∧
    read 0x17000000 = some .htResetBits ∧ read 0x20000000 = some .arithEncInit ∧
    read 0x22000000 = some .arithEncFlush ∧ read 0x23000000 = some .arithDecInit := by decide

theorem test_decode_mcu_words : read 0x31000000 = some .encodeMcu ∧ read 0x32000000 = some .decodeMcu ∧
    read 0x33000000 = some .finishScan ∧ read 0x41000000 = some .consumeInput ∧
    read 0x42000000 = some .startOutputPass ∧ read 0x43000000 = some .produceOutput := by decide

/-- CLS 23, SLOT 19..16, SYM 15..8. -/
theorem test_decode_h : read 0x10810000 = some (.htBuildDec .ac 1) ∧ read 0x11030000 = some (.htBuildEnc .dc 3) ∧
    read 0x128F0000 = some (.htDecode .ac 15) ∧ read 0x1402A500 = some (.htEncode .dc 2 0xA5) := by decide

/-- N 20..16, VALUE 15..0. -/
theorem test_decode_b : read 0x130C0000 = some (.htGetbits 12) ∧ read 0x15101234 = some (.htPutbits 16 0x1234) := by
  decide

/-- BANK 23..22, SLOT 19..16, BIN 15..8, BIT 0. -/
theorem test_decode_a : read 0x21430C01 = some (.arithEncode (.ac 3 12) true) ∧
    read 0x21053F00 = some (.arithEncode (.dc 5 63) false) ∧ read 0x21800001 = some (.arithEncode .fixed true) ∧
    read 0x24010100 = some (.arithDecode (.dc 1 1)) ∧ read 0x244FFF00 = some (.arithDecode (.ac 15 255)) ∧
    read 0x24800000 = some (.arithDecode .fixed) := by decide

/-- DIR 23. -/
theorem test_decode_s : read 0x30000000 = some (.startScan .decode) ∧ read 0x30800000 = some (.startScan .encode) := by
  decide

/-- Illegal words of `95_test_vectors.md` §2.4 and §4. -/
theorem test_decode_illegal : ([0x00000001, 0x04000000, 0x10400000, 0x13000000, 0x13110000, 0x13010001, 0x14000001,
    0x30000001, 0x01000001, 0x21C00000, 0x21007F00, 0x24000001, 0x22800000] : List Word).all
      (fun w => (read w).isNone) = true := by decide

theorem test_encode : encode (.arithEncode (.ac 3 12) true) = 0x21430C01 ∧ encode (.htPutbits 4 0xF) = 0x1504000F ∧
    encode (.htEncode .dc 0 11) = 0x14000B00 ∧ encode (.startScan .encode) = 0x30800000 := by decide

/-! ## The host and the CSRs -/

/-- A step issues the word in `CMD`; a read answers (program P5 step 10). -/
theorem test_step_csr : (after (step { State.reset with host := [.csrRead 0x011] })).reply = .word 0x40 ∧
    (after (step (State.reset.withFetchWord 32 0x02000000))).status.fault = some .badDimension := by decide +kernel

/-! ## Images and scans -/

/-- P5 steps 9 to 12. -/
theorem test_reset_clears_fault : (runs [.startImage, .reset] (gray 0 0 0 0)).status.fault = none ∧
    (runs [.startImage, .reset] (gray 0 0 0 0)).regs.imgCfg = 0x40 := by decide +kernel

/-- The components of `95_test_vectors.md` §8.1: 40 by 24, sampling (2,2), (1,1), (1,1). -/
def color : State :=
  let r := Regs.reset
  run .startImage (syn 6 1 { State.reset with
    regs := { r with
      imgDim := 0x00180028, imgCfg := 0xC3, scan := 0x00300FC0, scanComps := 0x210
      compCfg := ((r.compCfg.set 0 0x12).set 1 0x9).set 2 0x9 } })

theorem test_start_image_geometry : (color.image.comp 0).widthInBlocks = 5 ∧ (color.image.comp 0).heightInBlocks = 3 ∧
    (color.image.comp 2).widthInBlocks = 3 ∧ (color.image.comp 2).heightInBlocks = 2 ∧ color.image.totalRows = 2 := by
  decide +kernel

theorem test_start_image_memory : (run .startImage (gray 0x0008FFDC 0xC1 0 0)).status.fault = some .outOfMemory := by
  decide +kernel

theorem test_start_scan_geometry :
    let t := run (.startScan .decode) color
    t.scan.mcusPerRow = 3 ∧ t.scan.mcuRowsInScan = 2 ∧ t.scan.blocksInMcu = 6 ∧ (t.scan.comp 0).mcuWidth = 2 ∧
      (t.scan.comp 0).lastColWidth = 1 ∧ (t.scan.comp 0).lastRowHeight = 1 := by decide +kernel

/-- A decode scan is the input scan; an encode scan started after it is not (log 26). -/
theorem test_input_scan :
    let s := runs [.startImage, .startScan .decode, .finishScan] (gray 0x00080008 0x71 0x00100041 0)
    s.ctl.inputSs = 1 ∧
      (run (.startScan .encode) { s with regs := { s.regs with scan := 0x00100000 } }).ctl.inputSs = 1 ∧
      (run (.startScan .encode) { s with regs := { s.regs with scan := 0x00100000 } }).scan.ss = 0 := by decide +kernel

/-- An arithmetic scan that codes DC zeroes all four contexts and predictors (`10_state.md` R74, R75). -/
theorem test_start_scan_contexts :
    let t := run (.startScan .decode) { ariReady with
      ent := { ariReady.ent with
        dcContext := Vector.replicate 4 16, lastDc := Vector.replicate 4 5 } }
    t.ent.dcContext = Vector.replicate 4 0 ∧ t.ent.lastDc = Vector.replicate 4 0 := by decide +kernel

/-- P5 step 4. -/
theorem test_start_scan_missing_table :
    let t := runs [.startImage, .startScan .decode] (gray 0x00080008 0x51 0x00100041 0)
    t.status.fault = some .noHuffTable ∧ t.readCsr 0x001 = some 0x3444 := by decide +kernel

theorem test_eoi_clamps :
    let s := { State.reset with image := { Image.reset with active := true, inputScanNumber := 2 } }
    (run .eoi { s with regs := { s.regs with outScan := 7 } }).regs.outScan = 2 ∧ (run .eoi s).image.eoiReached = true := by
  decide +kernel

theorem test_nop : (run .nop { State.reset with status := { Status.reset with suspendCause := .outputFull } }).status =
    Status.reset := by decide +kernel

/-! ## Huffman tables and bits (`95_test_vectors.md` §3) -/

/-- Keys that are not listed hold 0. -/
theorem test_build_dec : ((run (.htBuildDec .dc 0) k3).derived .dc 0).maxcode =
    [(1, -1), (3, 6), (4, 14), (5, 30), (6, 62), (7, 126), (8, 254), (9, 510), (10, -1), (11, -1), (12, -1), (13, -1),
      (14, -1), (15, -1), (16, -1), (17, 0xFFFFF)] := by decide +kernel

/-- By hand from `41_huffman_tables.md` R401 and R403: codes 000000, 0000010 and 00000110. -/
theorem test_build_dec_lookahead :
    let d := (run (.htBuildDec .ac 0) (withTable .ac 0 [0, 0, 0, 0, 0, 1, 1, 1] [9, 8, 7] State.reset)).derived .ac 0
    d.lookNbits = [(0, 6), (1, 6), (2, 6), (3, 6), (4, 7), (5, 7), (6, 8)] ∧
      d.lookSym = [(0, 9), (1, 9), (2, 9), (3, 9), (4, 8), (5, 8), (6, 7)] := by decide +kernel

theorem test_build_enc : Cells.read 0 ((run (.htBuildEnc .dc 0) k3).derived .dc 0).ehufco 11 = 0x1FE ∧
    Cells.read 0 ((run (.htBuildEnc .dc 0) k3).derived .dc 0).ehufsi 11 = 9 ∧
    Cells.read 0 ((run (.htBuildEnc .dc 0) k3).derived .dc 0).ehufsi 12 = 0 := by decide +kernel

theorem test_build_duplicate : (run (.htBuildDec .ac 0) (withTable .ac 0 [0, 2] [5, 5] State.reset)).status.fault = none ∧
    (run (.htBuildEnc .ac 0) (withTable .ac 0 [0, 2] [5, 5] State.reset)).status.fault = some .badHuffTable := by
  decide +kernel

theorem test_ht_decode :
    let s := runs [.htBuildDec .dc 0, .htDecode .dc 0] { k3 with inPort := [0x5B, 0xFF, 0x00, 0x80] }
    (s.status.result, s.ent.bitsLeft) = (1, 5) := by decide +kernel

/-- By hand from `41_huffman_tables.md` R422: the one code, of 9 zeros, is found on the slow path; nine other bits end in
`HUFF_BAD_CODE` after 17 bits. -/
theorem test_ht_decode_slow :
    let s := run (.htBuildDec .ac 0) (withTable .ac 0 [0, 0, 0, 0, 0, 0, 0, 0, 1] [0x77] State.reset)
    let t := run (.htDecode .ac 0) { s with inPort := [0x00, 0x7F] }
    let u := run (.htDecode .ac 0) { s with inPort := [0x01, 0x7F, 0x00] }
    (t.status.result, t.ent.bitsLeft) = (0x77, 7) ∧ (u.status.result, u.ent.bitsLeft) = (0, 7) ∧
      u.status.warnLast = some .huffBadCode := by decide +kernel

theorem test_ht_getbits :
    let s := runs [.htGetbits 4, .htGetbits 8] { State.reset with inPort := [0xFF, 0x00, 0xA5] }
    s.status.result = 250 ∧ s.ent.bitsLeft = 4 ∧ (run (.htGetbits 12) s).status.suspendCause = .inputEmpty ∧
      (run (.htGetbits 12) s).status.result = 250 := by decide +kernel

theorem test_ht_getbits_marker :
    let s := runs [.htGetbits 4, .htGetbits 8] { State.reset with inPort := [0xA5, 0xFF, 0xFF, 0xD3, 0x11] }
    s.status.result = 80 ∧ s.ent.unreadMarker = 0xD3 ∧ s.inPort = [0x11] ∧ s.status.warnCount = 1 := by decide +kernel

theorem test_ht_encode : (runs [.htBuildEnc .dc 0, .htEncode .dc 0 11, .htFlush] k3).outPort = [0xFF, 0x00, 0x7F] ∧
    (runs [.htBuildEnc .dc 0, .htEncode .dc 0 12] k3).status.fault = some .huffMissingCode := by decide +kernel

theorem test_ht_putbits : (runs [.htPutbits 4 0xF, .htPutbits 8 0xFF] State.reset).outPort = [0xFF, 0x00] ∧
    (runs [.htPutbits 4 0xF, .htPutbits 8 0xFF] State.reset).ent.putBits = 4 ∧
    (run (.htPutbits 16 0x1234) { State.reset with outCapacity := some 1 }).status.suspendCause = .outputFull := by
  decide +kernel

theorem test_ht_flush : (runs [.htPutbits 4 0xFFF5, .htFlush] State.reset).outPort = [0x5F] := by decide +kernel

theorem test_ht_reset_bits : (runs [.htGetbits 8, .htResetBits]
    { State.reset with inPort := [0xFF, 0xD0] }).ent.unreadMarker = 0 := by decide +kernel

/-! ## QM coder (`95_test_vectors.md` §2) -/

theorem test_arith_encode :
    let s := runs [.arithEncInit, .arithEncode (.dc 0 0) true] State.reset
    s.ent.c = 0x14BC6 ∧ s.ent.a = 0xB43A ∧ s.ent.ct = 10 ∧ Cells.read 0 s.stats 0 = 0x81 := by decide +kernel

theorem test_arith_encode_fixed : (runs (.arithEncInit :: [true, false, true, true].map (Instr.arithEncode .fixed))
      State.reset).ent.fixedBin = 0x81 ∧
    (runs (.arithEncInit :: [true, false, true, true].map (Instr.arithEncode .fixed))
      { State.reset with cfg := { Config.default with fixedBinMode := .persistentZero } }).ent.fixedBin = 0x90 := by
  decide +kernel

theorem test_arith_flush :
    let s := runs [.arithEncInit, .arithEncode (.dc 0 0) true, .arithEncode (.dc 0 1) true, .arithEncode (.dc 0 0) false,
      .arithEncode (.dc 0 1) false, .arithEncode (.dc 0 0) true] State.reset
    s.ent.c = 0x7F4B02 ∧ s.ent.a = 0xB4FE ∧ (run .arithEncFlush s).outPort = [0xFF, 0x00] := by decide +kernel

theorem test_arith_dec_init : (run .arithDecInit State.reset).ent.ct = -16 ∧
    (run .arithDecInit State.reset).ent.a = 0 := by decide +kernel

theorem test_arith_decode :
    let s := run .arithDecInit { State.reset with inPort := [0xFF, 0xD0, 0x12] }
    let s₁ := run (.arithDecode (.dc 0 0)) s
    let s₆ := runs (List.replicate 5 (.arithDecode (.dc 0 0))) s₁
    s₁.status.result = 0 ∧ s₆.status.result = 1 ∧ s₆.ent.ct = 6 ∧ s₆.ent.unreadMarker = 0xD0 ∧ s₆.inPort = [0x12] ∧
      Cells.read 0 s₆.stats 0 = 0x82 := by decide +kernel

/-! ## MCU commands -/

/-- `95_test_vectors.md` §5, row "sequential", by hand. -/
theorem test_encode_mcu :
    let s := runs [.startImage, .startScan .encode] (syn 3 33 (gray 0x00080008 0x41 0x00100FC0 0))
    (runs [.encodeMcu, .finishScan] (withMcu [(0, -3), (1, 5), (2, -1)] s)).outPort = [0x20, 0x12, 0x90, 0x00, 0x3F] :=
  by decide +kernel

/-- The DC values of program P1, restart interval 2; `45_scan_interface.md` R814 pads the end. -/
theorem test_finish_scan_restart :
    let s := runs [.startImage, .startScan .encode] (syn 6 1 (gray 0x00100010 0x41 0x00100FC0 2))
    let s := ([10, 20, 30, 40] : List Coef).foldl (fun t v => run .encodeMcu (withMcu [(0, v)] t)) s
    (run .finishScan s).outPort = [0x4A, 0x00, 0x4A, 0x00, 0xFF, 0xD0, 0x5F, 0x00, 0x25, 0x00, 0x7F] := by
  decide +kernel

theorem test_decode_mcu :
    let s := runs [.startImage, .startScan .decode] (syn 3 33 (gray 0x00080008 0x41 0x00100FC0 0))
    let t := run .decodeMcu { s with inPort := [0x20, 0x12, 0x90, 0x00, 0x3F, 0xFF, 0xD9] }
    t.mcubuf = [(0, -3), (1, 5), (2, -1)] ∧ t.ent.dc 0 = -3 := by decide +kernel

/-- Program P2: the suspension, then the rest. -/
theorem test_consume_input :
    let s := run .consumeInput { ariScan .decode with inPort := [0xCD, 0xB5] }
    let t := run .consumeInput { s with inPort := s.inPort ++ [0xC0, 0xFF, 0xD9] }
    s.status.suspendCause = .inputEmpty ∧ s.ctl.inputRow = 0 ∧ t.status.resultKind = .scanCompleted ∧
      t.idctPort.map (fun r => r.coefs.getD 0 0) = [5, 2, 2, 4] ∧ t.ent.unreadMarker = 0xD9 ∧
      t.readCsr 0x04B = some 5 := by decide +kernel

/-- Program P3, steps 12 to 16. -/
theorem test_start_output_pass : (run .startOutputPass p3).readCsr 0x001 = some 0x5C0 := by decide +kernel

theorem test_produce_output :
    let t := runs [.produceOutput, .produceOutput] (run .startOutputPass p3)
    t.idctPort.map (fun r => (r.row, r.col, r.coefs.getD 0 0, r.coefs.getD 1 0)) =
        [(0, 0, 10, -1), (0, 1, 20, -3), (0, 2, 30, -1), (1, 0, 10, -1), (1, 1, 20, -3), (1, 2, 30, -1)] ∧
      (run .produceOutput t).status.suspendCause = .scanNeeded := by decide +kernel

/-! ## Witnesses: the hypotheses of each statement hold together, for each clause at a boundary of its range -/

theorem canBuild_of {s : State} {dir : Direction} {cls : TableClass} {t : Nat}
    (hs : t ≤ 3 ∧ s.regs.hspecValid.getLsbD (match cls with | .dc => t | .ac => 4 + t) = true)
    (hc : s.symbolCount cls t ≤ 256) (hk : ∀ l < 17, 1 ≤ l → s.codesUsed cls t l < 2 ^ l)
    (hd : ∀ p < s.symbolCount cls t, cls = .dc → (s.symbolOf cls t p).toNat ≤ 15)
    (hu : ∀ p < s.symbolCount cls t, ∀ q < p, s.symbolOf cls t p ≠ s.symbolOf cls t q) : s.canBuild dir cls t :=
  ⟨hs, ⟨hc, fun l h1 h2 => hk l (by omega) h1⟩, fun h p hp => hd p hp h, fun _ => hu⟩

theorem below_of {l : List Word} {n : Nat} (h : l.all (fun x => decide (x.toNat < n)) = true) : ∀ x ∈ l, x.toNat < n := by
  simpa using h

theorem rangesOk_of {s : State}
    (h : s.ent.writerOk ∧ s.ent.bitsLeft ≤ 23 ∧ s.ent.nextRestart < 8 ∧ s.status.warnCount ≤ 0xFFFFFFFF)
    (hr : s.regs.imgCfg.toNat < 2 ^ 8 ∧ s.regs.restart.toNat < 2 ^ 16 ∧ s.regs.scan.toNat < 2 ^ 23 ∧
      s.regs.scanComps.toNat < 2 ^ 16 ∧ s.regs.outScan.toNat < 2 ^ 16 ∧ s.regs.hspecValid.toNat < 2 ^ 8 ∧
      s.regs.qtblValid.toNat < 2 ^ 4)
    (hc : s.regs.compCfg.toList.all (fun x => decide (x.toNat < 2 ^ 16)) = true)
    (ha : s.regs.arithCond.toList.all (fun x => decide (x.toNat < 2 ^ 16)) = true)
    (hd : ∀ t ∈ s.dtbl.toList, DerivedTable.sizesOk t) : s.rangesOk :=
  ⟨h.1, h.2.1, h.2.2.1, h.2.2.2, ⟨hr.1, hr.2.1, hr.2.2.1, hr.2.2.2.1, hr.2.2.2.2.1, hr.2.2.2.2.2.1, hr.2.2.2.2.2.2,
    below_of hc, below_of ha⟩, hd⟩

theorem witness_DecodeEncodeInverse : (Instr.arithEncode (.ac 15 255) true).wf = true ∧
    read 0x214FFF01 = some (.arithEncode (.ac 15 255) true) := by decide

theorem witness_IllegalWords : ¬LegalWord 0x21C00000 ∧ State.reset.status.fault = none := by
  unfold LegalWord
  decide

theorem witness_StepRunsCommand :
    (State.reset.withFetchWord 32 0x10810000).host = .csrWrite 0x008 0x10810000 :: [] ∧
      read 0x10810000 = some (.htBuildDec .ac 1) ∧ decodeTableWord 32 0x10810000 = some (.htBuildDec .ac 1) ∧
      State.reset.host = [] := by decide +kernel

theorem witness_OutcomeShape :
    (∃ t, State.reset.status.fault = none ∧ exec .nop State.reset = .next t) ∧
      ∃ t, exec .encodeMcu State.reset = .next t ∧ t.status.fault = some .badState :=
  ⟨⟨_, rfl, next_of (by decide +kernel)⟩, _, next_of (by decide +kernel), by decide +kernel⟩

/-- A faulted state, a word that is not `RESET`, and host accesses with and without a step. -/
theorem witness_StickyFault :
    let s := run .encodeMcu State.reset
    s.status.fault.isSome = true ∧ (0x01000001 : Word) ≠ 0x01000000 ∧ isNext (hostAct (.csrRead 0x002) s) = true ∧
      isRefused (hostAct (.csrRead 0x009) s) = true := by decide +kernel

theorem witness_BadState : State.reset.status.fault = none ∧ ¬Admits State.reset .encodeMcu ∧
    ¬Admits (ariScan .decode) .arithEncInit := by
  unfold Admits
  decide +kernel

theorem witness_SuspendedUndone :
    ∃ t, exec (.htGetbits 1) State.reset = .next t ∧ t.status.resultKind = .suspended ∧
      State.reset.status.fault = none :=
  ⟨_, next_of (by decide +kernel), by decide +kernel, rfl⟩

theorem witness_CommandFrame : ∃ t, exec .htFlush State.reset = .next t := ⟨_, next_of (by decide +kernel)⟩

theorem witness_CoefWriters : ¬Instr.writesCoef .decodeMcu ∧ ∃ t, exec .decodeMcu State.reset = .next t :=
  ⟨by simp [Instr.writesCoef], _, next_of (by decide +kernel)⟩

theorem k3_canBuild (dir : Direction) : k3.canBuild dir .dc 0 :=
  canBuild_of (by decide +kernel) (by decide +kernel) (by decide +kernel) (by decide +kernel) (by decide +kernel)

/-- Lengths with and without codes, and the first and the last length. -/
theorem witness_BuildDecoder : k3.idle ∧ k3.canBuild .decode .dc 0 ∧ k3.countOf .dc 0 1 = 0 ∧ 0 < k3.countOf .dc 0 2 ∧
    k3.countOf .dc 0 16 = 0 ∧ 0 < k3.countOf .dc 0 9 :=
  ⟨by decide +kernel, k3_canBuild _, by decide +kernel, by decide +kernel, by decide +kernel, by decide +kernel⟩

/-- Patterns with and without a code of at most 8 bits. -/
theorem witness_LookaheadExact :
    (∃ u, k3.idle ∧ exec (.htBuildDec .dc 0) k3 = .next u ∧ u.status.fault = none) ∧ k3.codeSize .dc 0 10 = 8 ∧
      0xFE = k3.codeOf .dc 0 10 ∧
      ∀ p < k3.symbolCount .dc 0, k3.codeSize .dc 0 p ≤ 8 → 0xFF / 2 ^ (8 - k3.codeSize .dc 0 p) ≠ k3.codeOf .dc 0 p :=
  ⟨⟨_, by decide +kernel, next_of (by decide +kernel), by decide +kernel⟩, by decide +kernel, by decide +kernel,
    by decide +kernel⟩

/-- The last symbol, and symbols 12 and 255 that have no code. -/
theorem witness_BuildEncoder : k3.idle ∧ k3.canBuild .encode .dc 0 ∧ 11 < k3.symbolCount .dc 0 ∧
    (∀ p < k3.symbolCount .dc 0, (k3.symbolOf .dc 0 p).toNat ≠ 12) ∧
    ∀ p < k3.symbolCount .dc 0, (k3.symbolOf .dc 0 p).toNat ≠ 255 :=
  ⟨by decide +kernel, k3_canBuild _, by decide +kernel, by decide +kernel, by decide +kernel⟩

/-- Two codes of one bit; symbols 5, 5. -/
def twoOnes : State := withTable .dc 0 [2] [0, 1] State.reset
def duplicate : State := withTable .ac 3 [0, 2] [5, 5] State.reset

theorem witness_TableFaults_malformed : twoOnes.idle ∧ twoOnes.hasSpec .dc 0 ∧ ¬twoOnes.canBuild .decode .dc 0 := by
  refine ⟨by decide +kernel, ⟨by decide, by decide +kernel⟩, fun h => ?_⟩
  have h1 : twoOnes.codesUsed .dc 0 1 < 2 ^ 1 := h.2.1.2 1 (by decide) (by decide)
  exact absurd h1 (by decide +kernel)

theorem witness_TableFaults_duplicate : duplicate.idle ∧ duplicate.hasSpec .ac 3 ∧ ¬duplicate.canBuild .encode .ac 3 := by
  refine ⟨by decide +kernel, ⟨by decide, by decide +kernel⟩, fun h => ?_⟩
  have h1 : duplicate.symbolOf .ac 3 1 ≠ duplicate.symbolOf .ac 3 0 :=
    h.2.2.2 rfl 1 (by decide +kernel) 0 (by decide)
  exact absurd h1 (by decide +kernel)

/-- An absent table, slot 4, and a slot that was never built. -/
theorem witness_TableFaults_absent : ¬State.reset.hasSpec .dc 0 ∧ ¬State.reset.hasSpec .ac 4 ∧
    (k3.derived .dc 0).dvalid = false ∧ (k3.derived .dc 0).evalid = false := by
  unfold State.hasSpec
  decide +kernel

/-- Codes 0 and 100000000, of symbols 7 and 9, and the decoder table of them. -/
def tiny : State := withTable .ac 0 [1, 0, 0, 0, 0, 0, 0, 0, 1] [7, 9] State.reset
def tinyBuilt : State := run (.htBuildDec .ac 0) tiny

theorem tiny_codes : tiny.symbolCount .ac 0 = 2 ∧ tiny.codeSize .ac 0 0 = 1 ∧ tiny.codeSize .ac 0 1 = 9 ∧
    tiny.codeOf .ac 0 0 = 0 ∧ tiny.codeOf .ac 0 1 = 0x100 := by decide +kernel

theorem tiny_lookahead : ∀ w < 256,
    if w < 128 then
      (Cells.read 0 (tinyBuilt.derived .ac 0).lookNbits w).toNat = 1 ∧
        Cells.read 0 (tinyBuilt.derived .ac 0).lookSym w = tiny.symbolOf .ac 0 0
    else Cells.read 0 (tinyBuilt.derived .ac 0).lookNbits w = 0 := by decide +kernel

theorem tiny_maxcode : (∀ l < 17, 1 ≤ l → tiny.codesUsed .ac 0 l < 2 ^ l) ∧
    (∀ l < 17, 1 ≤ l → tiny.countOf .ac 0 l = 0 → Cells.read 0 (tinyBuilt.derived .ac 0).maxcode l = -1) ∧
    ∀ l < 17, 1 ≤ l → 0 < tiny.countOf .ac 0 l →
      Cells.read 0 (tinyBuilt.derived .ac 0).maxcode l =
          BitVec.ofNat 32 (tiny.codeOf .ac 0 (tiny.symbolsUpTo .ac 0 l - 1)) ∧
        Cells.read 0 (tinyBuilt.derived .ac 0).valoffset l = BitVec.ofInt 32 ((tiny.symbolsUpTo .ac 0 (l - 1) : Int) -
          (tiny.codeOf .ac 0 (tiny.symbolsUpTo .ac 0 (l - 1)) : Int)) := by decide +kernel

/-- The codes of `tiny`, by its two symbols. -/
theorem tiny_cases {p : Nat} (h : p < tiny.symbolCount .ac 0) : p = 0 ∨ p = 1 := by
  rw [tiny_codes.1] at h
  omega

theorem tiny_decodes : (tinyBuilt.derived .ac 0).decodes tiny .ac 0 := by
  obtain ⟨_, h2, h3, h4, _⟩ := tiny_codes
  refine ⟨⟨by decide +kernel, fun l h1 hl => tiny_maxcode.1 l (by omega) h1⟩, by decide +kernel,
    fun l h1 hl => tiny_maxcode.2.1 l (by omega) h1, fun l h1 hl => tiny_maxcode.2.2 l (by omega) h1,
    by decide +kernel, by decide +kernel, fun w hw => ⟨fun p hp hs hc => ?_, fun hc => ?_⟩⟩
  · obtain rfl | rfl := tiny_cases hp
    · rw [h2, h4] at hc
      rw [h2]
      have := tiny_lookahead w hw
      rw [if_pos (by omega)] at this
      exact this
    · rw [h3] at hs
      omega
  · have h := hc 0 (by decide +kernel) (by rw [h2]; decide)
    rw [h2, h4] at h
    have := tiny_lookahead w hw
    rwa [if_neg (by omega)] at this

/-- `tinyBuilt` with these bits in the queue, these bytes in the port and this marker met. -/
def tinyBits (v : Word) (n : Nat) (bs : List Byte) (m : Byte) : State :=
  { tinyBuilt with
    inPort := bs, ent := { tinyBuilt.ent with getBuffer := v, bitsLeft := n, unreadMarker := m } }

/-- The short code in a queue of 8 bits; the long one in two bytes of the port, in a bit and zeros past a marker, and in
a byte before a marker. -/
theorem witness_DecodeSymbol :
    (tiny.idle ∧ exec (.htBuildDec .ac 0) tiny = .next tinyBuilt ∧ tinyBuilt.status.fault = none) ∧
      (∀ v n bs m, (tinyBits v n bs m).idle ∧ ((tinyBits v n bs m).derived .ac 0).decodes tiny .ac 0) ∧
      (∃ u, GivesBits (max 8 1) 1 (tinyBits 0x7F 8 [] 0) 0 u) ∧
      (∃ u, GivesBits (max 8 9) 9 (tinyBits 0 0 [0x80, 0x7F] 0) 0x100 u) ∧
      (∃ u, GivesBits (max 8 9) 9 (tinyBits 1 1 [] 0xD0) 0x100 u) ∧
      ∃ u, GivesBits (max 8 9) 9 (tinyBits 0 0 [0x80, 0xFF, 0xD0] 0) 0x100 u :=
  ⟨⟨by decide +kernel, next_of (by decide +kernel), by decide +kernel⟩,
    fun _ _ _ _ => ⟨⟨rfl, rfl⟩, tiny_decodes⟩,
    ⟨_, .data (raw := []) (bs := []) rfl .nil (by decide) (fun h => absurd rfl h)⟩,
    ⟨_, .data (raw := [0x80, 0x7F]) (bs := [0x80, 0x7F]) (rest := []) rfl
      (.byte (by decide) (.byte (by decide) .nil)) (by decide) (fun _ => ⟨rfl, by decide⟩)⟩,
    ⟨_, .zeros (s := tinyBits 1 1 [] 0xD0) (by decide) (by decide)⟩,
    ⟨_, .marker (s := tinyBits 0 0 [0x80, 0xFF, 0xD0] 0) (raw := [0x80]) (bs := [0x80]) (k := 0) (m := 0xD0) (rest := [])
      rfl rfl (.byte (by decide) .nil) (by decide) (by decide) (by decide) (.zeros (by decide) (by decide))⟩⟩

/-- Seventeen ones; an empty port; and 8 bits that hold the long code but for its last bit. -/
theorem witness_DecodeSymbol_bad :
    (∃ u, GivesBits 17 17 (tinyBits 0x1FFFF 17 [] 0) 0x1FFFF u) ∧
      (∀ p < tiny.symbolCount .ac 0, 0x1FFFF / 2 ^ (17 - tiny.codeSize .ac 0 p) ≠ tiny.codeOf .ac 0 p) ∧
      (tinyBits 0 0 [] 0).runsOut [] ∧ (tinyBits 0 0 [0x80, 0xFF] 0).runsOut [0x80] ∧
      (tinyBits 0 0 [0x80, 0xFF] 0).bitsWith [0x80] = 8 ∧
      ∀ p < tiny.symbolCount .ac 0, tiny.codeSize .ac 0 p ≤ 8 →
        (tinyBits 0 0 [0x80, 0xFF] 0).firstBits [0x80] (tiny.codeSize .ac 0 p) ≠ tiny.codeOf .ac 0 p :=
  ⟨⟨_, .data (raw := []) (bs := []) rfl .nil (by decide) (fun h => absurd rfl h)⟩, by decide +kernel,
    ⟨rfl, [], 0, rfl, .nil⟩, ⟨rfl, [0x80], 1, rfl, .byte (by decide) .nil⟩, rfl, by decide +kernel⟩

/-- Two bytes for 16 bits, one of them stuffed; and no byte where the queue has the bits. -/
theorem witness_GetbitsReads :
    (let s := { State.reset with inPort := [0xFF, 0x00, 0xA5, 0x77] }
     s.idle ∧ s.inPort = stuffed [0xFF, 0xA5] ++ [0x77] ∧ 16 ≤ s.ent.bitsLeft + 8 * 2 ∧
       s.ent.unreadMarker = 0 ∧ s.ent.bitsLeft + 8 * 2 < 16 + 8) ∧
      (let s := { State.reset with ent := { Entropy.reset with bitsLeft := 1, getBuffer := 1 } }
       s.idle ∧ s.inPort = stuffed [] ++ [] ∧ 1 ≤ s.ent.bitsLeft + 8 * 0) := by decide +kernel

/-- A marker met before, and one in the port behind a fill byte. -/
theorem witness_GetbitsAtMarker :
    (let s := { State.reset with ent := { Entropy.reset with unreadMarker := 0xD0 } }
     s.idle ∧ s.ent.bitsLeft < 1 ∧ s.ent.unreadMarker ≠ 0) ∧
      (let s := { State.reset with inPort := [0xFF, 0xFF, 0xD3, 0x11] }
       s.idle ∧ s.ent.bitsLeft < 16 ∧ s.ent.unreadMarker = 0 ∧
         s.inPort = 0xFF :: (List.replicate 1 0xFF ++ 0xD3 :: [0x11])) := by decide +kernel

theorem witness_GetbitsSuspends :
    let s := { State.reset with inPort := [0xA5, 0xFF] }
    s.idle ∧ s.ent.unreadMarker = 0 ∧ s.inPort = stuffed [0xA5] ++ List.replicate 1 0xFF ∧
      s.ent.bitsLeft + 8 * 1 < 9 := by decide +kernel

/-- With and without room for two bytes. -/
theorem witness_PutbitsAppends : State.reset.idle ∧ State.reset.ent.writerOk ∧
    State.reset.roomFor (State.reset.bytesOut (msbFirst 16 0x1234)).length ∧
    ¬{ State.reset with outCapacity := some 1 }.roomFor (State.reset.bytesOut (msbFirst 16 0x1234)).length := by
  decide +kernel

/-- `k3` with its encoder table built. -/
def k3Enc : State := run (.htBuildEnc .dc 0) k3

theorem witness_EncodeAppends : k3Enc.idle ∧ k3Enc.rangesOk ∧ (k3Enc.derived .dc 0).evalid = true ∧
    Cells.read 0 (k3Enc.derived .dc 0).ehufsi 12 = 0 ∧ Cells.read 0 (k3Enc.derived .dc 0).ehufsi 11 ≠ 0 :=
  ⟨by decide +kernel,
    rangesOk_of (by decide +kernel) (by decide +kernel) (by decide +kernel) (by decide +kernel) (by decide +kernel),
    by decide +kernel, by decide +kernel, by decide +kernel⟩

/-- Nothing held, and 7 bits held. -/
theorem witness_FlushPads : State.reset.idle ∧ State.reset.ent.writerOk ∧
    (run (.htPutbits 7 0x55) State.reset).idle ∧ (run (.htPutbits 7 0x55) State.reset).ent.writerOk ∧
    (run (.htPutbits 7 0x55) State.reset).ent.putBits = 7 := by decide +kernel

/-- What `NopEffect`, `ResetBits`, `CoderInit` and `EncoderFlush` ask. -/
theorem witness_idle : State.reset.idle ∧ State.reset.outCapacity = none := by decide +kernel

/-- The MPS with an interval of 0x8000 left, and with less; the LPS. -/
theorem witness_EncodeDecision :
    State.reset.idle ∧ State.reset.ent.encoderOk ∧ State.reset.ent.countersLow ∧
      qeEntry .zeroEachUse ((State.reset.byteIn (.ac 15 255)).toNat % 128) = some ⟨0x5A1D, 1, 1, true⟩ ∧
      0x8000 ≤ State.reset.ent.a.toNat - 0x5A1D ∧
      (let s := run (.arithEncode .fixed false) State.reset
       s.idle ∧ s.ent.encoderOk ∧ s.ent.a.toNat - 0x5A1D < 0x8000) ∧
      (true != decide (128 ≤ (State.reset.byteIn .fixed).toNat)) = true := by decide +kernel

/-- By hand from `40_qm_coder.md` R312: a carry into a held byte with a stacked 0xFF behind it, and none. -/
theorem test_byte_moved :
    let e := { Entropy.reset with zc := 1, buffer := 0x12, sc := 1 }
    ({ e with c := 0x08000000 }.byteMoved = ([0x00, 0x13], { e with c := 0, sc := 0, zc := 1, buffer := 0 })) ∧
      { e with c := 0x01A00000 }.byteMoved = ([0x00, 0x12, 0xFF, 0x00], { e with c := 0, sc := 0, zc := 0, buffer := 0x34 }) := by
  decide +kernel

/-- `95_test_vectors.md` §2.1, row 11001, and the segment right after an init. -/
theorem test_last_bytes :
    (runs [.arithEncInit, .arithEncode (.dc 0 0) true, .arithEncode (.dc 0 1) true, .arithEncode (.dc 0 0) false,
      .arithEncode (.dc 0 1) false, .arithEncode (.dc 0 0) true] State.reset).ent.lastBytes = [0xFF, 0x00] ∧
      State.reset.ent.lastBytes = [] := by decide +kernel

/-- Two doublings in place; the byte moves at the eleventh. -/
theorem witness_EncodeDecision_doubles :
    (∃ e, Doubles 2 { Entropy.reset with c := 0x10000 } [] e) ∧ ∃ e, Doubles 11 { Entropy.reset with c := 0x10000 } [] e :=
  ⟨⟨_, .within (by decide)⟩, _, .byte (now := []) (later := []) (by decide) (Prod.ext (by decide +kernel) rfl)
    (.within (by decide +kernel))⟩

theorem witness_EncoderRegisters :
    (∃ t, State.reset.ent.encoderOk ∧ exec (.arithEncode .fixed true) State.reset = .next t ∧ t.status.fault = none) ∧
      ∃ t, State.reset.idle ∧ exec .arithEncFlush State.reset = .next t ∧ t.status.fault = none ∧
        t.status.resultKind = .done :=
  ⟨⟨_, by decide +kernel, next_of (by decide +kernel), by decide +kernel⟩,
    _, by decide +kernel, next_of (by decide +kernel), by decide +kernel, by decide +kernel⟩

/-- A flush that appends 0xFF (`95_test_vectors.md` §2.1, row 11001); an arithmetic scan, and its restart. -/
theorem witness_EncoderStuffing :
    (let s := runs [.arithEncInit, .arithEncode (.dc 0 0) true, .arithEncode (.dc 0 1) true, .arithEncode (.dc 0 0) false,
        .arithEncode (.dc 0 1) false, .arithEncode (.dc 0 0) true] State.reset
     ∃ t, s.ent.encoderOk ∧ exec .arithEncFlush s = .next t ∧ s.outPort.length ≤ 0 ∧ t.outPort[0]? = some 0xFF) ∧
      ∀ interval < 2, ∃ t u,
        (let s := dueScan (ariScan .encode) interval
         s.scan.dir = .encode ∧ s.scan.mode.isArith ∧ s.ent.encoderOk ∧ s.ent.nextRestart < 8 ∧
           exec .encodeMcu s = .next t ∧ exec .finishScan s = .next u ∧ (0 < interval → s.restartDue)) := by
  refine ⟨⟨_, by decide +kernel, next_of (by decide +kernel), by decide +kernel, by decide +kernel⟩, fun interval h => ?_⟩
  obtain rfl | rfl : interval = 0 ∨ interval = 1 := by omega
  · exact ⟨_, _, by decide +kernel, by decide +kernel, by decide +kernel, by decide +kernel, next_of (by decide +kernel),
      next_of (by decide +kernel), by decide +kernel⟩
  · exact ⟨_, _, by decide +kernel, by decide +kernel, by decide +kernel, by decide +kernel, next_of (by decide +kernel),
      next_of (by decide +kernel), by decide +kernel⟩

/-- `ct` = 7 and an interval of 0x10000; `ct` = 0 and one of 0x8000. -/
theorem witness_DecodeDecision :
    (let s := { State.reset with ent := { Entropy.reset with ct := 7 } }
     s.idle ∧ s.ent.a.toNat = 0x10000 ∧ s.ent.ct.toNat ≤ 7 ∧
       qeEntry s.cfg.fixedBinMode ((s.byteIn (.dc 0 0)).toNat % 128) = some ⟨0x5A1D, 1, 1, true⟩) ∧
      (let s := { State.reset with ent := { Entropy.reset with a := 0x8000, ct := 0 } }
       s.idle ∧ s.ent.a.toNat = 0x8000 ∧ s.ent.ct.toNat ≤ 7) := by decide +kernel

/-- A decoder just initialized, with these bytes in the port. -/
def fresh (bs : List Byte) : State := { State.reset with inPort := bs, ent := { Entropy.reset with a := 0, ct := -16 } }

/-- Each way to read a byte, and a port without one. -/
theorem witness_DecodeStarts (rest : List Byte) :
    (fresh rest).idle ∧ (fresh rest).ent.a = 0 ∧ (fresh rest).ent.ct = -16 ∧
      (∃ t u, ReadsByte (fresh (0x12 :: 0xFF :: 0x00 :: rest)) 0x12 t ∧ ReadsByte t 0xFF u) ∧
      (∃ t u, ReadsByte (fresh (0xFF :: 0xFF :: 0xD0 :: rest)) 0 t ∧ ReadsByte t 0 u) ∧ NoByte (fresh []) ∧
      NoByte (fresh [0xFF]) ∧ ∃ t, ReadsByte (fresh [0x12]) 0x12 t ∧ NoByte t :=
  ⟨⟨rfl, rfl⟩, rfl, rfl,
    ⟨fresh (0xFF :: 0x00 :: rest), fresh rest, .data (x := 0x12) rfl rfl (by decide), .stuffing (k := 0) rfl rfl⟩,
    ⟨_, _, .marker (s := fresh (0xFF :: 0xFF :: 0xD0 :: rest)) (k := 1) (m := 0xD0) (rest := rest) rfl rfl (by decide)
      (by decide), .pastMarker (show (0xD0 : Byte) ≠ 0 by decide)⟩,
    ⟨rfl, 0, rfl⟩, ⟨rfl, 1, rfl⟩, fresh [], .data (x := 0x12) rfl rfl (by decide), rfl, 0, rfl⟩

/-- An interval of `a` and a count of `ct`. -/
def narrow (a ct : Word) (bs : List Byte) : State :=
  { State.reset with inPort := bs, ent := { Entropy.reset with a := a, ct := ct } }

/-- The smallest and the largest interval below 0x8000; `ct` = 1 and `ct` = 0. -/
theorem witness_DecodeRenormalizes :
    (∃ t, (narrow 0x7FFF 1 []).idle ∧ t.status.resultKind ≠ .suspended ∧
        exec (.arithDecode .fixed) (narrow (0x7FFF * 2) (1 - 1) []) = .next t) ∧
      (∃ t, (narrow 0x4000 0 [0x12]).idle ∧ ReadsByte (narrow 0x4000 0 [0x12]) 0x12 (narrow 0x4000 0 []) ∧
          t.status.resultKind ≠ .suspended ∧
          exec (.arithDecode .fixed)
            { narrow 0x4000 0 [] with ent := { (narrow 0x4000 0 []).ent with a := 0x8000, ct := 7, c := 0x12 } } =
              .next t) ∧
      (narrow 1 0 []).idle ∧ NoByte (narrow 1 0 []) :=
  ⟨⟨_, ⟨rfl, rfl⟩, by decide +kernel, next_of (by decide +kernel)⟩,
    ⟨_, ⟨rfl, rfl⟩, .data (x := 0x12) rfl rfl (by decide), by decide +kernel, next_of (by decide +kernel)⟩, ⟨rfl, rfl⟩, rfl, 0, rfl⟩

/-- The first index outside the table, in a bin and in the fixed bin. -/
theorem witness_ProbabilityStates :
    let s := { State.reset with stats := [(0x13FF, 0xF1)], ent := { Entropy.reset with fixedBin := 113 } }
    s.idle ∧ qeEntry s.cfg.fixedBinMode ((s.byteIn (.ac 15 255)).toNat % 128) = none ∧ 0x8000 ≤ s.ent.a.toNat ∧
      qeEntry .persistentZero
        (({ s with cfg := { Config.default with fixedBinMode := .persistentZero } }.byteIn .fixed).toNat % 128) = none := by
  decide +kernel

/-! ### Images and scans -/

/-- An image that needs no buffer, and one that needs exactly the blocks there are. -/
theorem witness_StartImageLatches :
    (let s := gray 0x00080010 0x41 0x00100FC0 0
     s.status.fault = none ∧ s.regs.dimensionOk ∧ s.regs.componentsOk ∧ s.regs.samplingOk ∧ s.regs.multi = false) ∧
      (let s := gray 0x02000200 0xC1 0x00100FC0 0
       s.status.fault = none ∧ s.regs.dimensionOk ∧ s.regs.componentsOk ∧ s.regs.samplingOk ∧ s.regs.multi = true ∧
         s.regs.imageBlocks = s.cfg.coefMemBlocks) := by
  unfold Regs.dimensionOk Regs.componentsOk Regs.samplingOk
  decide +kernel

/-- Width 65501; no component and 11 components; sampling 5; too many blocks. -/
theorem witness_StartImageChecks :
    ¬(gray 0x0008FFDD 0x41 0 0).regs.dimensionOk ∧
      ((gray 0x00080008 0x40 0 0).regs.dimensionOk ∧ ¬(gray 0x00080008 0x40 0 0).regs.componentsOk ∧
        ¬(gray 0x00080008 0x4B 0 0).regs.componentsOk) ∧
      (let s := gray 0x00080008 0x42 0 0
       s.regs.dimensionOk ∧ s.regs.componentsOk ∧ ¬s.regs.samplingOk) ∧
      (let s := gray 0x0008FFDC 0xC1 0 0
       s.regs.dimensionOk ∧ s.regs.componentsOk ∧ s.regs.samplingOk ∧ s.regs.multi = true ∧
         s.cfg.coefMemBlocks < s.regs.imageBlocks) := by
  unfold Regs.dimensionOk Regs.componentsOk Regs.samplingOk
  decide +kernel

theorem witness_EoiEffect :
    seqReady.status.fault = none ∧ seqReady.image.active = true ∧ seqReady.scan.active = false := by decide +kernel

theorem seqReady_canBuild_dc (dir : Direction) : seqReady.canBuild dir .dc 0 :=
  canBuild_of (by decide +kernel) (by decide +kernel) (by decide +kernel) (by decide +kernel) (by decide +kernel)

theorem seqReady_canBuild_ac (dir : Direction) : seqReady.canBuild dir .ac 0 :=
  canBuild_of (by decide +kernel) (by decide +kernel) (by decide +kernel) (by decide +kernel) (by decide +kernel)

theorem seqReady_admits : seqReady.image.active = true ∧ seqReady.scan.active = false ∧ seqReady.image.eoiReached = false := by
  decide +kernel

/-- What `StartScanLatches`, `ScanGeometry` and `ScanEntropyStart` ask of a Huffman scan of one component. -/
theorem witness_scanOk_huffman (dir : Direction) : seqReady.scanOk dir := by
  have h1 : scanCount seqReady.regs.scan = 1 := by decide +kernel
  have h2 : compDc (seqReady.regs.comp (seqReady.regs.scanned 0)) = 0 := by decide +kernel
  have h3 : compAc (seqReady.regs.comp (seqReady.regs.scanned 0)) = 0 := by decide +kernel
  refine ⟨by decide +kernel, seqReady_admits, ?_, fun h => absurd h (by decide +kernel), by decide +kernel, fun _ i hi => ?_⟩
  · unfold State.scanComponentsOk
    cases dir <;> decide +kernel
  · obtain rfl : i = 0 := by omega
    rw [h2, h3]
    exact ⟨fun _ => seqReady_canBuild_dc dir, fun _ => seqReady_canBuild_ac dir⟩

theorem ariReady_admits : ariReady.image.active = true ∧ ariReady.scan.active = false ∧ ariReady.image.eoiReached = false := by
  decide +kernel

/-- The same for an arithmetic scan, and for a scan of three components. -/
theorem witness_scanOk_arith (dir : Direction) : ariReady.scanOk dir := by
  refine ⟨by decide +kernel, ariReady_admits, ?_, fun h => absurd h (by decide +kernel), by decide +kernel,
    fun h => absurd h (by decide +kernel)⟩
  unfold State.scanComponentsOk
  cases dir <;> decide +kernel

/-- `color` with arithmetic coding. -/
def colorArith : State := run .startImage { color with regs := { color.regs with imgCfg := 0xE3 } }

theorem witness_scanOk_three : colorArith.scanOk .decode ∧ 2 ≤ scanCount colorArith.regs.scan := by
  refine ⟨⟨by decide +kernel, ?_, ?_, fun h => absurd h (by decide +kernel), by decide +kernel,
    fun h => absurd h (by decide +kernel)⟩, by decide +kernel⟩
  · unfold Admits
    decide +kernel
  · unfold State.scanComponentsOk
    decide +kernel

/-- A progressive image about to start a DC refinement scan, Huffman or arithmetic, with its quantization table valid. -/
def refineReady (cfg : Word) : State :=
  let s := gray 0x00080008 cfg 0x00101000 0
  run .startImage { s with regs := { s.regs with qtblValid := 1 } }

theorem refineReady_scanOk (cfg : Word) (h : cfg = 0x51 ∨ cfg = 0x71) (dir : Direction) : (refineReady cfg).scanOk dir := by
  have h1 : ¬((refineReady cfg).image.prog = false ∨
      scanSs (refineReady cfg).regs.scan = 0 ∧ scanAh (refineReady cfg).regs.scan = 0) ∧
      ¬((refineReady cfg).image.prog = false ∨ 0 < scanSs (refineReady cfg).regs.scan) := by
    obtain rfl | rfl := h <;> decide +kernel
  refine ⟨?_, ?_, ?_, fun _ => ?_, ?_, fun _ _ _ => ⟨fun h => absurd h h1.1, fun h => absurd h h1.2⟩⟩
  · obtain rfl | rfl := h <;> decide +kernel
  · unfold Admits
    cases dir <;> obtain rfl | rfl := h <;> decide +kernel
  · unfold State.scanComponentsOk
    cases dir <;> obtain rfl | rfl := h <;> decide +kernel
  · unfold Regs.progressionOk
    obtain rfl | rfl := h <;> decide +kernel
  · obtain rfl | rfl := h <;> decide +kernel

/-- Component 0 is latched and its DC coefficient's `coef_bits` moves; component 1 is not in the scan; an arithmetic DC
refinement scan keeps the predictors. -/
theorem witness_StartScanLatches : (refineReady 0x51).scanOk .decode ∧ (refineReady 0x51).latchesQuant 0 ∧
    ¬(refineReady 0x51).latchesQuant 1 ∧ (refineReady 0x51).image.prog = true ∧ (refineReady 0x51).inScan 0 ∧
    ¬(refineReady 0x51).inScan 1 ∧ scanSs (refineReady 0x51).regs.scan = 0 ∧ scanSe (refineReady 0x51).regs.scan = 0 := by
  refine ⟨refineReady_scanOk _ (.inl rfl) _, ?_⟩
  unfold State.latchesQuant
  decide +kernel

/-- A table the scan uses and one it does not use; `45_scan_interface.md` R806 (2) and R807, by hand. -/
theorem witness_StartScanLatches_tables : seqReady.scanOk .decode ∧ seqReady.usesTable .ac 0 ∧ ¬seqReady.usesTable .ac 1 ∧
    seqReady.scanWarnings .encode = 0 ∧
    { seqReady with regs := { seqReady.regs with scan := 0x00100000 } }.scanWarnings .encode = 1 ∧
    (refineReady 0x51).scanWarnings .decode = 1 ∧ (refineReady 0x51).scanWarnings .encode = 0 := by
  refine ⟨witness_scanOk_huffman _, ⟨by decide +kernel, 0, by decide +kernel, .inl (by decide +kernel), by decide +kernel⟩,
    ?_, by decide +kernel⟩
  rintro ⟨-, i, hi, -, h⟩
  have h1 : ∀ i < scanCount seqReady.regs.scan, 1 ≠ compAc (seqReady.regs.comp (seqReady.regs.scanned i)) := by
    decide +kernel
  exact h1 i hi h

theorem witness_ScanEntropyStart : (refineReady 0x71).scanOk .decode ∧ (refineReady 0x71).image.arith = true ∧
    (refineReady 0x71).image.prog = true ∧ scanAh (refineReady 0x71).regs.scan ≠ 0 ∧
    ∃ t, exec (.startScan .decode) (refineReady 0x71) = .next t :=
  ⟨refineReady_scanOk _ (.inr rfl) _, by decide +kernel, by decide +kernel, by decide +kernel, _,
    next_of (by decide +kernel)⟩

/-- The bytes next to the bins of a sequential arithmetic scan that uses slots 0: DC bins 0..63, AC bins 0x400..0x4FF. -/
theorem witness_ScanEntropyStart_kept : ariReady.image.arith = true ∧ scanCount ariReady.regs.scan = 1 ∧
    [64, 0x3FF, 0x500].all (fun a => a / 64 ≠ compDc (ariReady.regs.comp (ariReady.regs.scanned 0)) ∧
      a / 256 ≠ 4 + compAc (ariReady.regs.comp (ariReady.regs.scanned 0))) = true ∧
    [63, 0x400, 0x4FF].all (fun a => a / 64 = compDc (ariReady.regs.comp (ariReady.regs.scanned 0)) ∨
      a / 256 = 4 + compAc (ariReady.regs.comp (ariReady.regs.scanned 0))) = true := by decide +kernel

theorem witness_ScanGeometry : ∃ t, exec (.startScan .decode) seqReady = .next t := ⟨_, next_of (by decide +kernel)⟩

/-- No component; a component the image lacks; and an AC scan of two components. -/
theorem witness_StartScanChecks :
    (let s := run .startImage (gray 0x00080008 0x41 0x00000FC0 0)
     s.status.fault = none ∧ Admits s (.startScan .decode) ∧ ¬1 ≤ scanCount s.regs.scan) ∧
      (let s := { ariReady with regs := { ariReady.regs with scanComps := 1 } }
       Admits s (.startScan .encode) ∧ ¬∀ i < scanCount s.regs.scan, s.regs.scanned i < s.image.components) ∧
      (let s := { colorArith with
        image := { colorArith.image with cfg := 0xF3 }
        regs := { colorArith.regs with scan := 0x00200041 } }
       Admits s (.startScan .decode) ∧ s.scanComponentsOk .decode ∧ s.image.prog = true ∧ ¬s.regs.progressionOk) := by
  unfold Admits State.scanComponentsOk Regs.progressionOk
  decide +kernel

/-- A second decode scan of a single-pass image; one of two components out of three. -/
theorem witness_StartScanChecks_single :
    (let s := { ariReady with image := { ariReady.image with inputScanNumber := 1 } }
     s.status.fault = none ∧ Admits s (.startScan .decode) ∧ s.ctl.mode = .singlePass ∧
       scanCount s.regs.scan = s.image.components) ∧
      (let s := { colorArith with
        ctl := { colorArith.ctl with mode := .singlePass }, regs := { colorArith.regs with scan := 0x00200FC0 } }
       Admits s (.startScan .decode) ∧ s.image.inputScanNumber = 0 ∧ scanCount s.regs.scan ≠ s.image.components ∧
         (∀ i < scanCount s.regs.scan, s.regs.scanned i < s.image.components) ∧
         ∀ i < scanCount s.regs.scan, ∀ j < i, s.regs.scanned i ≠ s.regs.scanned j) := by
  unfold Admits
  decide +kernel

/-- Eleven blocks in an MCU. -/
theorem witness_StartScanChecks_size :
    let s := { colorArith with image := colorArith.image.withComp 1 { colorArith.image.comp 1 with hSamp := 3, vSamp := 2 } }
    s.status.fault = none ∧ Admits s (.startScan .encode) ∧ s.scanComponentsOk .encode ∧ s.image.prog = false ∧
      s.scanBlocks = 11 := by
  unfold Admits State.scanComponentsOk
  decide +kernel

/-- A sequential Huffman scan without its tables, and one whose DC table is malformed and whose AC table is good. -/
def absentReady : State := run .startImage (gray 0x00080008 0x41 0x00100FC0 0)
def malformedReady : State := run .startImage (withTable .dc 0 [2] [0, 1] (syn 6 1 (gray 0x00080008 0x41 0x00100FC0 0)))

theorem absentReady_uses : absentReady.usesTable .dc 0 := by
  unfold State.usesTable
  decide +kernel

theorem malformedReady_uses {cls : TableClass} {t : Nat} (h : malformedReady.usesTable cls t) :
    t = 0 := by
  obtain ⟨_, i, hi, h⟩ := h
  have h1 : scanCount malformedReady.regs.scan = 1 := by decide +kernel
  have h2 : compDc (malformedReady.regs.comp (malformedReady.regs.scanned 0)) = 0 ∧
    compAc (malformedReady.regs.comp (malformedReady.regs.scanned 0)) = 0 := by decide +kernel
  obtain rfl : i = 0 := by omega
  cases cls
  · exact h.2.trans h2.1
  · exact h.2.trans h2.2

theorem witness_StartScanChecks_tables :
    (absentReady.scanComponentsOk .decode ∧ absentReady.scanBlocks ≤ 10 ∧ ¬absentReady.scanTablesOk .decode ∧
        ∀ cls t, absentReady.usesTable cls t → absentReady.hasSpec cls t → absentReady.canBuild .decode cls t) ∧
      malformedReady.scanComponentsOk .decode ∧ malformedReady.scanBlocks ≤ 10 ∧
        ¬malformedReady.scanTablesOk .decode ∧
        ∀ cls t, malformedReady.usesTable cls t → malformedReady.hasSpec cls t := by
  have h0 : ∀ cls t, ¬absentReady.hasSpec cls t := fun cls t h => by
    have h1 : absentReady.regs.hspecValid = 0 := by decide +kernel
    have h2 := h.2
    rw [h1] at h2
    simp at h2
  have h3 : ¬absentReady.scanTablesOk .decode := fun h =>
    h0 _ _ (((h (by decide +kernel)) 0 (by decide +kernel)).1 (.inl (by decide +kernel))).1
  have h4 : ¬malformedReady.scanTablesOk .decode := fun h => by
    have h5 := (((h (by decide +kernel)) 0 (by decide +kernel)).1 (.inl (by decide +kernel))).2.1.2 1 (by decide) (by decide)
    exact absurd h5 (by decide +kernel)
  refine ⟨⟨?_, by decide +kernel, h3, fun cls t _ h => absurd h (h0 cls t)⟩, ?_, by decide +kernel, h4,
    fun cls t h => ?_⟩
  · unfold State.scanComponentsOk
    decide +kernel
  · unfold State.scanComponentsOk
    decide +kernel
  · obtain rfl := malformedReady_uses h
    cases cls <;> exact ⟨by decide, by decide +kernel⟩

/-! ### MCU commands and the controller -/

/-- With and without a restart interval. -/
theorem witness_EncodeDcRefine :
    let s := refineScan .encode
    s.status.fault = none ∧ (s.scan.active = true ∧ s.scan.dir = .encode) ∧ s.scan.mode = .hufDcRefine ∧
      s.noRestartDue ∧ s.scan.blocksInMcu = 1 ∧ s.ent.writerOk ∧
      { s with
        scan := { s.scan with restartInterval := 2 }
        ent := { s.ent with restartsToGo := 1 } }.noRestartDue := by decide +kernel

/-- The block of `95_test_vectors.md` §5, row "sequential", about to be encoded, and decoded from its stream. -/
def seqMcu (dir : Direction) : State :=
  runs [.startImage, .startScan dir] (syn 3 33 (gray 0x00080008 0x41 0x00100FC0 0))
def seqEncodes : State := withMcu [(0, -3), (1, 5), (2, -1)] (seqMcu .encode)
def seqDecodes : State := { seqMcu .decode with inPort := [0x20, 0x12, 0x90, 0x00, 0x3F, 0xFF, 0xD9] }

/-- The block of §5, row "AC refine", in its second scan; what the first scan left of it, and its stream. -/
def refineMcu (dir : Direction) : State :=
  runs [.startImage, .startScan dir] (syn 3 33 (gray 0x00080008 0x51 0x00101FC1 0))
def refineEncodes : State := withMcu [(1, 3), (16, -1), (9, 2)] (refineMcu .encode)
def refineDecodes : State :=
  { withMcu [(1, 2), (9, 2)] (refineMcu .decode) with inPort := [0x0C, 0x40, 0x1F, 0xFF, 0xD9] }

/-- By hand in §5: codes and extra bits of the row "sequential", EOB at the end. -/
theorem test_items_sequential : seqEncodes.mcuItems.1 =
    [.check true .badDctCoef, .symbol .dc 0 2, .bits 2 0, .check true .badDctCoef, .symbol .ac 0 0x03, .bits 3 5,
      .check true .badDctCoef, .symbol .ac 0 0x31, .bits 1 0, .symbol .ac 0 0] := by decide +kernel

/-- §5, note on the row "AC refine": k1 is corrected and k3 newly nonzero; the bit of k4 waits in the run. -/
theorem test_items_refine : refineEncodes.mcuItems.1 = [.symbol .ac 0 0x11, .bits 1 0, .bits 1 1] ∧
    refineEncodes.mcuItems.2.eobrun = 1 ∧ refineEncodes.mcuItems.2.bitBuffer = [false] := by decide +kernel

/-- A block that is coded; a value out of range; a symbol without a code. -/
theorem witness_EncodeDcRefine_huffman :
    (let s := seqEncodes
     s.status.fault = none ∧ (s.scan.active = true ∧ s.scan.dir = .encode) ∧ s.scan.mode.isHuffman ∧ s.noRestartDue ∧
       s.scan.blocksInMcu ≤ 10 ∧ s.mcuItems.1.findSome? s.itemFault = none) ∧ seqEncodes.rangesOk ∧
      (refineEncodes.scan.mode = .hufAcRefine ∧ refineEncodes.scan.blocksInMcu = 1) ∧
      (let s := withMcu [(63, -1024)] (seqMcu .encode)
       s.mcuItems.1.findSome? s.itemFault = some .badDctCoef) ∧
      let s := withMcu [(0, 8)] (seqMcu .encode)
      s.mcuItems.1.findSome? s.itemFault = some .huffMissingCode := by
  refine ⟨by decide +kernel,
    rangesOk_of (by decide +kernel) (by decide +kernel) (by decide +kernel) (by decide +kernel) (by decide +kernel),
    by decide +kernel, by decide +kernel, by decide +kernel⟩

theorem freshStats_nil {s : State} (h : s.stats = []) : s.freshStats [] := fun _ => ⟨fun _ => rfl, fun _ => by rw [h]⟩

/-- A restart that is due, in a Huffman scan and in an arithmetic scan. -/
theorem witness_EncodeDcRefine_restart :
    (let s := dueScan (refineScan .encode) 1
     s.restartDue ∧ s.ent.nextRestart < 8 ∧ s.outCapacity = none ∧ s.scan.mode.isHuffman ∧ s.ent.writerOk ∧
       s.runCodable ∧ ∃ t, exec .encodeMcu s.huffmanRestartSent = .next t ∧ t.status.fault = none) ∧
      (let s := dueScan (ariScan .encode) 1
       s.status.fault = none ∧ (s.scan.active = true ∧ s.scan.dir = .encode) ∧ s.restartDue ∧ s.ent.nextRestart < 8 ∧
         s.outCapacity = none ∧ s.scan.mode.isArith ∧ ∃ t, exec .encodeMcu (s.arithRestartSent [] []) = .next t ∧
           t.status.fault = none) := by
  refine ⟨⟨by decide +kernel, by decide +kernel, by decide +kernel, by decide +kernel, by decide +kernel,
    .inr (.inl (by decide +kernel)), _, next_of (by decide +kernel), by decide +kernel⟩, ?_⟩
  exact ⟨by decide +kernel, by decide +kernel, by decide +kernel, by decide +kernel, by decide +kernel, by decide +kernel,
    _, next_of (by decide +kernel), by decide +kernel⟩

/-- The state after `ARITH_ENCODE` of the decisions, and that each of them ends without a fault. -/
def codeAll (s : State) : List (BinOperand × Bool) → State
  | [] => s
  | d :: ds => codeAll (run (.arithEncode d.1 d.2) (s.freshSign d.1)) ds

def codesOk (s : State) : List (BinOperand × Bool) → Bool
  | [] => true
  | d :: ds => isNext (exec (.arithEncode d.1 d.2) (s.freshSign d.1)) &&
      decide ((run (.arithEncode d.1 d.2) (s.freshSign d.1)).status.fault = none) &&
      codesOk (run (.arithEncode d.1 d.2) (s.freshSign d.1)) ds

theorem codes_of {ds : List (BinOperand × Bool)} : ∀ {s : State}, codesOk s ds = true → Codes s ds (codeAll s ds) := by
  induction ds with
  | nil => exact fun _ => .nil
  | cons d ds ih =>
    intro s h
    simp only [codesOk, Bool.and_eq_true, decide_eq_true_eq] at h
    exact .cons (next_of h.1.1) h.1.2 (ih h.2)

theorem witness_EncodeReadsOnly : ∃ t, exec .encodeMcu (refineScan .encode) = .next t ∧ t.status.resultKind = .done :=
  ⟨_, next_of (by decide +kernel), by decide +kernel⟩

/-- A block with a DC difference of -3 and an AC coefficient of 5. -/
def ariBlock : State := withMcu [(0, -3), (1, 5)] (ariScan .encode)

/-- By hand from `43_arith_entropy.md` R611, R615 and R617. -/
theorem test_decisions : ariBlock.mcuDecisions.1 =
    [(.dc 0 0, true), (.dc 0 1, true), (.dc 0 3, true), (.dc 0 20, true), (.dc 0 21, false), (.dc 0 35, false),
      (.ac 0 0, false), (.ac 0 1, true), (.ac 0 245, false), (.ac 0 2, true), (.ac 0 2, true), (.ac 0 189, true),
      (.ac 0 190, false), (.ac 0 204, false), (.ac 0 204, false), (.ac 0 3, true)] := by decide +kernel

theorem witness_EncodeReadsOnly_codes :
    (ariBlock.status.fault = none ∧ (ariBlock.scan.active = true ∧ ariBlock.scan.dir = .encode) ∧
      ariBlock.scan.mode.isArith ∧ ariBlock.noRestartDue ∧ ariBlock.scan.blocksInMcu ≤ 10 ∧ ariBlock.scan.se ≤ 63 ∧
      ariBlock.outCapacity = none ∧ ¬ariBlock.scan.mode ∈ [.ariAcFirst, .ariAcRefine]) ∧
      ∃ u, Codes ariBlock.withoutScan ariBlock.mcuDecisions.1 u :=
  ⟨by decide +kernel, _, codes_of (by decide +kernel)⟩

/-- A DC refinement scan with these bytes in the port. -/
def refining (bs : List Byte) : State := { refineScan .decode with inPort := bs }

/-- One bit from a byte of the port; a port without bytes. -/
theorem witness_DecodeDcRefine :
    (∀ bs, (refining bs).status.fault = none ∧
      ((refining bs).scan.active = true ∧ (refining bs).scan.dir = .decode) ∧ (refining bs).scan.mode = .hufDcRefine ∧
      (refining bs).noRestartDue ∧ (refining bs).scan.blocksInMcu = 1 ∧ Memory.wf (refining bs)) ∧
      (∃ u, GivesBits 1 1 (refining [0x80]) 1 u) ∧ (refining []).runsOut [] ∧ (refining []).bitsWith [] < 1 := by
  have h : (refineScan .decode).status.fault = none ∧
      ((refineScan .decode).scan.active = true ∧ (refineScan .decode).scan.dir = .decode) ∧
      (refineScan .decode).scan.mode = .hufDcRefine ∧ (refineScan .decode).noRestartDue ∧
      (refineScan .decode).scan.blocksInMcu = 1 ∧ Memory.wf (refineScan .decode) := by decide +kernel
  have h1 : (refineScan .decode).ent.bitsLeft = 0 ∧ (refineScan .decode).ent.unreadMarker = 0 ∧
      (refineScan .decode).ent.getBuffer = 0 := by decide +kernel
  refine ⟨fun _ => h, ⟨(refining [0x80]).tookBits [0x80] [] 1, ?_⟩, ⟨h1.2.1, [], 0, rfl, .nil⟩, by decide +kernel⟩
  have h2 : (refining [0x80]).firstBits [0x80] 1 = 1 := by decide +kernel
  exact h2 ▸ .data (raw := [0x80]) (bs := [0x80]) (rest := []) rfl (.byte (by decide) .nil) (by decide +kernel)
    (fun _ => ⟨h1.2.1, by decide +kernel⟩)

/-- An arithmetic DC refinement scan with these bytes in the port. -/
def ariRefining (bs : List Byte) : State :=
  { runs [.startImage, .startScan .decode] (gray 0x00080008 0x71 0x00101000 0) with inPort := bs }

theorem witness_DecodeDcRefine_arith :
    (let s := ariRefining [0, 0, 0]
     s.status.fault = none ∧ (s.scan.active = true ∧ s.scan.dir = .decode) ∧ s.scan.mode = .ariDcRefine ∧
       s.noRestartDue ∧ s.ent.ct ≠ -1 ∧ s.scan.blocksInMcu = 1 ∧ ∃ u, Decides s.withoutScan [false] u) ∧
      (let s := (ariRefining []).withoutScan
       Decides s [] s ∧ exec (.arithDecode .fixed) s = .next (s.ended .suspended .inputEmpty)) := by
  refine ⟨⟨by decide +kernel, by decide +kernel, by decide +kernel, by decide +kernel, by decide +kernel, by decide +kernel,
    _, .cons (next_of (by decide +kernel)) (by decide +kernel) (by decide +kernel) (by decide +kernel) .nil⟩,
    .nil, ?_⟩
  exact (next_of (by decide +kernel)).trans (congrArg _ (by decide +kernel))

/-- The state after an item is read, where it is the one returned. -/
def readItem (s : State) (item : HuffItem) : Option State :=
  match item with
  | .symbol cls slot sym =>
    let t := run (.htDecode cls slot) s
    if isNext (exec (.htDecode cls slot) s) ∧ t.status.fault = none ∧ t.status.resultKind = .done ∧ sym < 2 ^ 32 ∧
      t.status.result = BitVec.ofNat 32 sym then some t else none
  | .bits n v =>
    let t := run (.htGetbits n) s
    if isNext (exec (.htGetbits n) s) ∧ t.status.fault = none ∧ t.status.resultKind = .done ∧ v < 2 ^ 32 ∧
      t.status.result = BitVec.ofNat 32 v then some t else none
  | .check _ _ => none
  | .warning w => some (s.warned w)

theorem reads_of {is : List HuffItem} : ∀ {s : State}, (is.foldlM readItem s).isSome = true → ∃ u, Reads s is u := by
  induction is with
  | nil => exact fun _ => ⟨_, .nil⟩
  | cons i is ih =>
    intro s h
    cases hr : readItem s i with
    | none => simp [hr] at h
    | some t =>
      obtain ⟨u, hu⟩ := ih (s := t) (by simpa [hr] using h)
      refine ⟨u, ?_⟩
      cases i <;> simp only [readItem, Option.ite_none_right_eq_some, Option.some.injEq, reduceCtorEq] at hr
      · obtain ⟨⟨h1, h2, h3, h4, h5⟩, rfl⟩ := hr
        exact .symbol (next_of h1) h2 h3 h4 h5 hu
      · obtain ⟨⟨h1, h2, h3, h4, h5⟩, rfl⟩ := hr
        exact .bits (next_of h1) h2 h3 h4 h5 hu
      · subst hr
        exact .warning hu

/-- The blocks of §5, rows "sequential" and "AC refine"; a port that ends in the first symbol. -/
theorem witness_DecodeDcRefine_huffman :
    (let s := seqDecodes
     (s.status.fault = none ∧ (s.scan.active = true ∧ s.scan.dir = .decode) ∧ s.scan.mode.isHuffman ∧
       s.ent.insufficient = false ∧ s.noRestartDue ∧ s.scan.blocksInMcu ≤ 10 ∧ s.scan.se ≤ 63) ∧
       ∃ is ws e, BlockChain s.HuffBlock (List.range s.scan.blocksInMcu) s.ent is ws e ∧
         ∃ u, Reads s.withoutScan is u) ∧
      (let s := refineDecodes
       s.scan.blocksInMcu = 1 ∧ ∃ is ws e, BlockChain s.HuffBlock (List.range s.scan.blocksInMcu) s.ent is ws e ∧
         (∃ u, Reads s.withoutScan is u) ∧ Cells.writes 0 s.mcubuf ws = [(1, 3), (9, 2), (16, -1)]) ∧
      let s := (seqMcu .decode).withoutScan
      exec (.htDecode .dc 0) s = .next (s.ended .suspended .inputEmpty) := by
  have h1 : List.range seqDecodes.scan.blocksInMcu = [0] := by decide +kernel
  have h2 : List.range refineDecodes.scan.blocksInMcu = [0] := by decide +kernel
  refine ⟨⟨by decide +kernel, ?_⟩, ⟨by decide +kernel, ?_⟩, (next_of (by decide +kernel)).trans (congrArg _ (by decide +kernel))⟩
  · rw [h1]
    exact ⟨_, _, _, .cons (.sequential (n := 2) (x := 0) (by decide +kernel) rfl
        (.value (r := 0) (n := 3) (x := 5) (by decide) (by decide) (by decide) (by decide)
          (.value (r := 3) (n := 1) (x := 0) (by decide) (by decide) (by decide) (by decide)
            (.stop (r := 0) (x := 0) (by decide) (by decide))))) .nil, reads_of (by decide +kernel)⟩
  · rw [h2]
    exact ⟨_, _, _, .cons (.acRefine (bit := fun k => k == 1) (by decide +kernel) (by decide +kernel)
        (.value (r := 1) (n := 1) (z := 3) (pos := false) (by decide +kernel) (by decide) (by decide) (by decide)
          (by decide +kernel) (.stop (r := 0) (x := 0) (by decide +kernel) (by decide)))) .nil,
      reads_of (by decide +kernel), by decide +kernel⟩

/-- The state after `ARITH_DECODE` of the decisions, where each is the one returned. -/
def returnAll (s : State) : List (BinOperand × Bool) → Option State
  | [] => some s
  | d :: ds =>
    let t := run (.arithDecode d.1) (s.freshSign d.1)
    if isNext (exec (.arithDecode d.1) (s.freshSign d.1)) ∧ t.status.fault = none ∧ t.status.resultKind = .done ∧
      t.status.result = (if d.2 then 1 else 0) then returnAll t ds else none

theorem returns_of {ds : List (BinOperand × Bool)} : ∀ {s : State}, (returnAll s ds).isSome = true → ∃ u, Returns s ds u := by
  induction ds with
  | nil => exact fun _ => ⟨_, .nil⟩
  | cons d ds ih =>
    intro s h
    rw [returnAll] at h
    by_cases hc : isNext (exec (.arithDecode d.1) (s.freshSign d.1)) ∧
      (run (.arithDecode d.1) (s.freshSign d.1)).status.fault = none ∧
      (run (.arithDecode d.1) (s.freshSign d.1)).status.resultKind = .done ∧
      (run (.arithDecode d.1) (s.freshSign d.1)).status.result = if d.2 then 1 else 0
    · obtain ⟨u, hu⟩ := ih (by simpa only [if_pos hc] using h)
      exact ⟨u, .cons (next_of hc.1) hc.2.1 hc.2.2.1 hc.2.2.2 hu⟩
    · rw [if_neg hc] at h
      cases h

/-- The block of `95_test_vectors.md` §6, row "sequential", and its values. -/
def ariDecodes (bs : List Byte) : State := { ariScan .decode with inPort := bs }
def ariValues (k : Nat) : Int := ([-3, 5, 0, 0, 0, -1] : List Int).getD k 0

theorem witness_DecodeDcRefine_decisions :
    (let s := ariDecodes [0xF5, 0x9F, 0xB0, 0xFF, 0xD9]
     (s.status.fault = none ∧ (s.scan.active = true ∧ s.scan.dir = .decode) ∧ s.scan.mode.isArith ∧ s.ent.ct ≠ -1 ∧
       s.noRestartDue ∧ s.scan.blocksInMcu ≤ 10 ∧ s.scan.se ≤ 63) ∧
       ∃ ds ws e, BlockChain s.ArithBlock (List.range s.scan.blocksInMcu) s.ent ds ws e ∧
         (∃ u, Returns s.withoutScan ds u) ∧ Cells.writes 0 s.mcubuf ws = [(0, -3), (1, 5), (2, -1)]) ∧
      (let s := (ariDecodes []).withoutScan
       exec (.arithDecode (.dc 0 0)) s = .next (s.ended .suspended .inputEmpty)) ∧
      let s := { (ariDecodes [0xF5, 0x9F]).withoutScan with stats := [(0, 0x7F)] }
      ∃ t, exec (.arithDecode (.dc 0 0)) s = .next t ∧ t.status.fault = some .badProbState := by
  have h1 : List.range (ariDecodes [0xF5, 0x9F, 0xB0, 0xFF, 0xD9]).scan.blocksInMcu = [0] := by decide +kernel
  refine ⟨⟨by decide +kernel, ?_⟩, (next_of (by decide +kernel)).trans (congrArg _ (by decide +kernel)),
    _, next_of (by decide +kernel), by decide +kernel⟩
  rw [h1]
  exact ⟨_, _, _, .cons (.sequential (val := ariValues) (by decide +kernel) (by decide +kernel)) .nil,
    returns_of (by decide +kernel), by decide +kernel⟩

/-- The first eighteen decisions of a DC difference too large for its categories; zeros up to Se without an end. -/
theorem witness_DecodeDcRefine_overflow :
    (let s := ariDecodes [0xD2, 0xF1, 0x60, 0xFF, 0xD9]
     0 < s.scan.blocksInMcu ∧ ∃ ds ws e u, BlockChain s.ArithBlock (List.range 0) s.ent [] [] s.ent ∧
       s.ArithOverflow 0 s.ent ds ws e ∧ Returns s.withoutScan ([] ++ ds) u) ∧
      let s := ariDecodes [0x4B, 0xC6, 0xFF, 0xD9]
      ∃ ds ws e u, s.ArithOverflow 0 s.ent ds ws e ∧ Returns s.withoutScan ([] ++ ds) u := by
  refine ⟨⟨by decide +kernel, ?_⟩, ?_⟩
  · let s := ariDecodes [0xD2, 0xF1, 0x60, 0xFF, 0xD9]
    obtain ⟨u, hu⟩ := returns_of (s := s.withoutScan) (ds := [] ++ (s.dcDecisionsOf s.ent 0 0x8001).take 18)
      (by decide +kernel)
    exact ⟨_, _, _, u, .nil, .difference (d := 0x8001) (.inl (by decide +kernel)) (by decide), hu⟩
  · let s := ariDecodes [0x4B, 0xC6, 0xFF, 0xD9]
    obtain ⟨u, hu⟩ := returns_of (s := s.withoutScan) (ds := [] ++ (s.dcDecisionsOf s.ent 0 0 ++
      (indexes 1 63).flatMap (s.acIndexOf 0 1 fun _ => 0))) (by decide +kernel)
    exact ⟨_, _, _, u, .run (val := fun _ => 0) (.sequential (by decide +kernel) (by decide)) (by decide)
      (fun _ _ => by decide) rfl, hu⟩

/-- The marker desired behind a data byte; one that makes the decoder scan on to one it leaves; a port without one. -/
theorem witness_DecodeSkips_restart :
    (let s := dueScan (refining [0x12, 0xFF, 0xD0, 0x34]) 1
     s.status.fault = none ∧ (s.scan.active = true ∧ s.scan.dir = .decode) ∧ s.restartDue ∧ s.scan.mode.isHuffman ∧
       s.scan.blocksInMcu ≤ 10 ∧ ∃ t, TakesRestart s t) ∧
      (∃ t, TakesRestart (dueScan (ariRefining [0xFF, 0xD7, 0xFF, 0x00, 0xFF, 0xD9]) 1) t) ∧
      ∀ t, ¬TakesRestart (dueScan (refining []) 1) t := by
  have h0 : (refineScan .decode).ent.unreadMarker = 0 ∧ (refineScan .decode).ent.nextRestart = 0 := by decide +kernel
  have h1 : (ariRefining []).ent.unreadMarker = 0 ∧ (ariRefining []).ent.nextRestart = 0 := by decide +kernel
  refine ⟨⟨by decide +kernel, by decide +kernel, by decide +kernel, by decide +kernel, by decide +kernel, _, _, _,
    .inr ⟨h0.1, 1, 0xD0, [0x34], .skip (by decide) (.here (k := 0) (by decide) (by decide)), rfl⟩,
    .inl ⟨by decide +kernel, rfl⟩, rfl⟩, ⟨_, _, _,
    .inr ⟨h1.1, 0, 0xD7, [0xFF, 0x00, 0xFF, 0xD9], .here (k := 0) (by decide) (by decide), rfl⟩,
    .inr ⟨by decide +kernel, .scan (n := 2) (m := 0xD9) (rest := []) (.inr (by decide +kernel))
      (.stuffing (k := 0) (.here (k := 0) (by decide) (by decide))) (.leave (.inl (by decide +kernel)))⟩, rfl⟩, ?_⟩
  rintro t ⟨u, v, ⟨h, -⟩ | ⟨-, n, m, rest, h, -⟩, -⟩
  · exact h h0.1
  · exact nomatch h

theorem witness_DecodeSkips :
    (let s := seqScan .decode
     s.status.fault = none ∧ (s.scan.active = true ∧ s.scan.dir = .decode) ∧ s.noRestartDue ∧
       s.scan.blocksInMcu ≤ 10 ∧ s.scan.mode = .hufSeq) ∧
      (let s := ariScan .decode
       s.status.fault = none ∧ (s.scan.active = true ∧ s.scan.dir = .decode) ∧ s.noRestartDue ∧
         s.scan.blocksInMcu ≤ 10 ∧ s.scan.mode = .ariSeq) := by decide +kernel

theorem witness_FinishScanEnds :
    (let s := seqScan .decode
     s.status.fault = none ∧ s.scan.active = true ∧ s.scan.dir = .decode) ∧
      (let s := seqScan .encode
       s.status.fault = none ∧ s.scan.active = true ∧ s.scan.dir = .encode ∧ s.scan.mode = .hufSeq ∧ s.ent.writerOk) ∧
      (let s := refineScan .encode
       s.scan.active = true ∧ s.scan.dir = .encode ∧ s.scan.mode = .hufDcRefine ∧ s.ent.eobrun = 0) ∧
      (let s := ariScan .encode
       s.status.fault = none ∧ s.scan.active = true ∧ s.scan.dir = .encode ∧ s.scan.mode = .ariSeq ∧
         s.outCapacity = none ∧ s.ent.encoderOk ∧ s.ent.countersLow) := by decide +kernel

/-- A pending run of one block, whose symbol 0x00 has a code, and of two, whose symbol 0x10 has none. -/
theorem witness_FinishScanEnds_run :
    let pending := fun n => { refineMcu .encode with ent := { (refineMcu .encode).ent with eobrun := n, bitBuffer := [true] } }
    (pending 1).ent.writerOk ∧ (pending 1).scan.mode.isHuffman ∧ (pending 1).runCodable ∧ (pending 2).rangesOk ∧
      ¬(pending 2).runCodable := by
  refine ⟨by decide +kernel, by decide +kernel, by unfold State.runCodable; decide +kernel,
    rangesOk_of (by decide +kernel) (by decide +kernel) (by decide +kernel) (by decide +kernel) (by decide +kernel),
    by unfold State.runCodable; decide +kernel⟩

/-- The last row of the image; with a second row below it, the first. -/
theorem witness_ConsumeZeroRow :
    let s := seqScan .decode
    let s := { s with ent := { s.ent with insufficient := true } }
    s.status.fault = none ∧ (s.image.active = true ∧ s.scan.active = true ∧ s.scan.dir = .decode) ∧ s.scanShape ∧
      s.ctl.mode = .singlePass ∧ s.scan.mode = .hufSeq ∧ s.ent.insufficient = true ∧ s.scan.restartInterval = 0 ∧
      s.image.totalRows ≤ s.ctl.inputRow + 1 ∧
      s.ctl.inputRow + 1 < { s.image with totalRows := 2 }.totalRows := by decide +kernel

/-- A DC refinement scan of a progressive image with a byte in the port. -/
theorem witness_ConsumeZeroRow_multi :
    (let s := refining [0x80]
     s.status.fault = none ∧ (s.image.active = true ∧ s.scan.active = true ∧ s.scan.dir = .decode) ∧ s.scanShape ∧
       s.ctl.mode = .multiScan ∧ s.scan.mode = .hufDcRefine) ∧
      (let s := refining [0x80]
       s.noRestartDue ∧ s.scan.blocksInMcu = 1 ∧ s.ctl.mcuVert < s.ctl.mcuRowsPerImcu ∧
         s.ctl.mcuCtr < s.scan.mcusPerRow ∧ s.mcuBlocks = [0] ∧ 0 < s.cfg.coefMemBlocks) ∧
      Memory.wf (refining [0x80]) ∧ ∃ u, GivesBits 1 1 (refining [0x80]) 1 u :=
  ⟨by decide +kernel, by decide +kernel, (witness_DecodeDcRefine.1 _).2.2.2.2.2, witness_DecodeDcRefine.2.1⟩

/-- The block of §5, row "sequential", in a single-pass image, and its record; a DC refinement MCU in `COEF`. -/
theorem witness_ConsumeZeroRow_mcu :
    (let s := seqDecodes
     (s.ctl.mode = .singlePass ∧ s.ctl.mcuVert < s.ctl.mcuRowsPerImcu ∧ s.ctl.mcuCtr < s.scan.mcusPerRow) ∧
       (run .decodeMcu s.scratchCleared).status.fault = none ∧
       (run .decodeMcu s.scratchCleared).status.resultKind = .done ∧
       ∃ u, exec .decodeMcu s.scratchCleared = .next u) ∧
      (let s := refining [0x80]
       (run .decodeMcu s.blocksLoaded).status.fault = none ∧ (run .decodeMcu s.blocksLoaded).status.resultKind = .done ∧
         ∃ u, exec .decodeMcu s.blocksLoaded = .next u) ∧
      (run .consumeInput seqDecodes).idctPort = [⟨0, 0, 0, [-3, 5, -1] ++ List.replicate 61 0⟩] :=
  ⟨⟨by decide +kernel, by decide +kernel, by decide +kernel, _, next_of (by decide +kernel)⟩,
    ⟨by decide +kernel, by decide +kernel, _, next_of (by decide +kernel)⟩, by decide +kernel⟩

/-- A sequential arithmetic scan of a multi-scan image, its first DC bin at an index that R302 does not have. -/
def badBin (multi : Bool) : State :=
  let s := runs [.startImage, .startScan .decode, .startOutputPass]
    { gray 0x00080020 (if multi then 0xE1 else 0x61) 0x00100FC0 0 with inPort := [0xF5, 0x9F] }
  { s with stats := [(0, 0x7F)], status := Status.reset }

/-- `DECODE_MCU` of the MCU's blocks suspends, or faults, in both modes of the controller. -/
theorem witness_ConsumeSuspends_mcu :
    ((seqScan .decode).ctl.mode = .singlePass ∧
      (run .decodeMcu (seqScan .decode).scratchCleared).status.resultKind = .suspended ∧
      (refining []).ctl.mode = .multiScan ∧
      (run .decodeMcu (refining []).blocksLoaded).status.resultKind = .suspended) ∧
      ((badBin false).ctl.mode = .singlePass ∧
        (run .decodeMcu (badBin false).scratchCleared).status.fault = some .badProbState ∧
        (badBin true).ctl.mode = .multiScan ∧ (badBin true).scanShape ∧ (badBin true).mcuBlocks = [0] ∧
        (run .decodeMcu (badBin true).blocksLoaded).status.fault = some .badProbState) := by decide +kernel

theorem witness_ConsumeSuspends :
    let s := seqScan .decode
    (s.status.fault = none ∧ (s.image.active = true ∧ s.scan.active = true ∧ s.scan.dir = .decode) ∧ s.scanShape ∧
      s.ctl.mode = .singlePass ∧ s.scan.mode = .hufSeq ∧ s.ent.insufficient = false ∧ s.noRestartDue ∧
      1 ≤ s.scan.blocksInMcu ∧ s.ctl.mcuVert < s.ctl.mcuRowsPerImcu ∧ s.ctl.mcuCtr < s.scan.mcusPerRow ∧
      s.ent.bitsLeft = 0) ∧ NoByte s :=
  ⟨by decide +kernel, by decide +kernel, 0, by decide +kernel⟩

/-- A progressive image of 3 by 3 blocks with its quantization table, and one DC-first scan over. -/
def passReady : State :=
  let s := gray 0x00180018 0x71 0x00100000 0
  let s := { s with
    qtbl := (List.range 64).map fun p => (p, 16)
    regs := { s.regs with qtblValid := 1, outScan := 1 } }
  runs [.startImage, .startScan .decode, .finishScan] s

/-- The same without smoothing. -/
def plainReady : State := { passReady with regs := { passReady.regs with imgCfg := 0x31 } }

theorem passReady_smoothes : passReady.image.smoothes 0 :=
  ⟨by decide +kernel, by decide +kernel, by decide +kernel⟩

theorem witness_OutputPassStarts :
    (passReady.status.fault = none ∧ Admits passReady .startOutputPass ∧ Memory.wf passReady) ∧ passReady.passSmoothes ∧
      passReady.passLatches 0 ∧ Admits plainReady .startOutputPass ∧ ¬plainReady.passSmoothes ∧
      ¬plainReady.passLatches 0 := by
  unfold Admits
  refine ⟨by decide +kernel,
    ⟨by decide +kernel, by decide +kernel, fun c hc => ?_, 0, by decide +kernel, 1, by decide +kernel⟩,
    ⟨by decide +kernel, by decide +kernel, by decide +kernel, fun d hd => ?_⟩, by decide +kernel,
    fun h => absurd h.1 (by decide +kernel), fun h => absurd h.1 (by decide +kernel)⟩
  · have h1 : passReady.image.components = 1 := by decide +kernel
    obtain rfl : c = 0 := by omega
    exact passReady_smoothes
  · obtain rfl : d = 0 := by omega
    exact passReady_smoothes

/-- A pass that smooths, and the last row of one that does not. -/
def smoothPass : State := run .startOutputPass passReady
def plainPass : State :=
  let s := run .startOutputPass plainReady
  { s with ctl := { s.ctl with outputRow := 2 } }

theorem witness_OutputRowProduced : smoothPass.canProduce ∧ smoothPass.ctl.smoothing = true ∧ plainPass.canProduce ∧
    plainPass.ctl.smoothing = false := by
  refine ⟨⟨by decide +kernel, ?_, ?_, by decide +kernel⟩, by decide +kernel,
    ⟨by decide +kernel, ?_, ?_, by decide +kernel⟩, by decide +kernel⟩
  · unfold Admits
    decide +kernel
  · unfold State.rowReady
    decide +kernel
  · unfold Admits
    decide +kernel
  · unfold State.rowReady
    decide +kernel

/-- Program P3 of `95_test_vectors.md`: the estimates at position 1. -/
theorem test_smoothed : [0, 1, 2].map (fun x => (run .startOutputPass p3).smoothedCoef (0, 0, x) 1) = [-1, -3, -1] := by
  decide +kernel

theorem witness_SmoothingKeeps : ∃ t, exec .produceOutput smoothPass = .next t ∧ t.idctPort.length = 3 :=
  ⟨_, next_of (by decide +kernel), by decide +kernel⟩

/-- A pass that shows the scan being decoded: its row comes in, the port is empty, or a decision faults. -/
def showing (bs : List Byte) : State :=
  let s := gray 0x00080008 0x51 0x00101000 0
  { runs [.startImage, .startScan .decode, .startOutputPass] { s with regs := { s.regs with outScan := 1 } } with
    inPort := bs }

theorem witness_OutputRowProduced_input :
    (let s := showing [0x80]
     s.status.fault = none ∧ (s.image.active = true ∧ s.ctl.mode = .multiScan ∧ s.ctl.outputPass = true) ∧
       s.scan.active = true ∧ s.scan.dir = .decode ∧ (run .consumeInput s).status.fault = none ∧
       (run .consumeInput s).status.resultKind = .scanCompleted) ∧ ¬(showing [0x80]).rowReady ∧
      (run .consumeInput (showing [])).status.resultKind = .suspended ∧ ¬(showing []).rowReady ∧
      ((badBin true).status.fault = none ∧ (badBin true).ctl.outputPass = true ∧
        (run .consumeInput (badBin true)).status.fault = some .badProbState) ∧ ¬(badBin true).rowReady := by
  unfold State.rowReady
  decide +kernel

/-- No scan started, and an encode scan active; the last row of a pass that smooths, as in step 15 of program P3. -/
theorem witness_OutputNeedsScan :
    (let s := run .startOutputPass (run .startImage (gray 0x00080008 0xC1 0x00100FC0 0))
     (s.status.fault = none ∧ (s.image.active = true ∧ s.ctl.mode = .multiScan ∧ s.ctl.outputPass = true) ∧
       s.scan.active = false) ∧ ¬s.rowReady ∧ { s.scan with active := true, dir := .encode }.dir = .encode) ∧
      let s := { smoothPass with ctl := { smoothPass.ctl with outputRow := 2 } }
      (s.status.fault = none ∧ s.scan.active = false ∧ s.image.inputScanNumber = s.ctl.outputScan) ∧ ¬s.rowReady := by
  unfold State.rowReady
  decide +kernel

/-! ### The host -/

/-- The first and the last address of each range, and the neighbours that are not in it. -/
theorem witness_ConfigWrites : [0x010, 0x017, 0x020, 0x029, 0x030, 0x03F].all (fun a => (configMask a).isSome) = true ∧
    [0x00F, 0x018, 0x01F, 0x02A, 0x02F, 0x040].all (fun a => (configMask a).isNone) = true := by decide

/-- The last element of each memory the host writes, with the widest value. -/
theorem witness_MemoryReadsBack : [Space.hspec, .qtbl, .stats, .mcubuf, .coef].all
    (fun sp => decide (sp ≠ .dtbl ∧ sp.size Config.default - 1 < sp.size State.reset.cfg ∧
      (BitVec.ofNat 32 (2 ^ sp.width - 1)).toNat < 2 ^ sp.width)) = true ∧ Memory.wf State.reset := by decide +kernel

/-- Addresses that are not defined, read-only ones, and that no address is both writable and read-only. -/
theorem witness_HostRefusals :
    (∀ a ∈ [0x009, 0x00F, 0x018, 0x02A, 0x05A, 0x06D], configMask a = none ∧ ¬readOnlyCsr a ∧ a ≠ 0x008) ∧
      (∀ a ∈ [0x000, 0x007, 0x040, 0x059, 0x060, 0x06C], readOnlyCsr a) ∧
      (∀ a < 0x080, readOnlyCsr a → configMask a = none ∧ a ≠ 0x008) ∧
      Space.size Config.default .coef ≤ 0x40000 ∧ 0x3FFF < Space.size Config.default .dtbl := by
  unfold readOnlyCsr
  decide +kernel

theorem witness_PortOperations : 2 ≤ { State.reset with inPort := [0xFF, 0xD9] }.inPort.length := by decide

/-- A state with a scan active that is about to decode. -/
def consuming : State := (ariScan .decode).withFetchWord 32 0x41000000

theorem witness_invariants : Memory.wf consuming ∧ consuming.rangesOk ∧ consuming.scanShape ∧
    consuming.scan.active = true ∧ ∃ t, step consuming = .next t :=
  ⟨by decide +kernel,
    rangesOk_of (by decide +kernel) (by decide +kernel) (by decide +kernel) (by decide +kernel) (by decide +kernel),
    by decide +kernel, by decide +kernel, _, next_of (by decide +kernel)⟩

end Sys2Proof.Tests
end

section
/-! # The state's invariants and what the host sees of it (`10_state.md`)

What one step can do, and from it the ranges of running state (O58), the shape of an active scan (O59), the frame of
the commands (O9), the configuration registers (O52) and the registers the host reads (O53). -/

namespace Sys2Proof.Machine

/-! ## What one step can do -/

/-- A host operation that issues no command: a configuration register is written, an element of a memory is written,
or only what belongs to the host and the ports changes. -/
inductive HostAccess (s : State) : State → Prop
  | config {a : Nat} {v : Word} {r : Regs} (h : s.regs.write a v = some r) : HostAccess s { s with regs := r }
  | memory (sp : Space) (a : Nat) (v : Word) : HostAccess s (s.writeElement sp a v)
  | outside (cap : Option Nat) (host : List HostOp) (reply : HostReply) (inp out : List Byte) (idct : List IdctRecord) :
      HostAccess s { s with
        outCapacity := cap, host := host, reply := reply, inPort := inp, outPort := out, idctPort := idct }

theorem hostCsrWrite_cases {a : Nat} {v : Word} {s t : State} (h : hostCsrWrite a v s = .next t) :
    issue v s = .next t ∨ HostAccess s t := by
  unfold hostCsrWrite at h
  split at h
  · exact .inl h
  · split at h
    · next r hr => cases h; exact .inr (.config hr)
    · cases h

theorem hostCsrRead_access {a : Nat} {s t : State} (h : hostCsrRead a s = .next t) : HostAccess s t := by
  unfold hostCsrRead at h
  split at h
  · cases h; exact .outside _ _ _ _ _ _
  · cases h

theorem hostMemWrite_access {sp : Space} {a : Nat} {v : Word} {s t : State} (h : hostMemWrite sp a v s = .next t) :
    HostAccess s t := by
  unfold hostMemWrite at h
  split at h
  · cases h
  · split at h
    · cases h
    · split at h
      · cases h
      · cases h; exact .memory sp a v

theorem hostMemRead_access {sp : Space} {a : Nat} {s t : State} (h : hostMemRead sp a s = .next t) :
    HostAccess s t := by
  unfold hostMemRead at h
  split at h
  · cases h
  · cases h; exact .outside _ _ _ _ _ _

theorem hostInTake_access {n : Nat} {s t : State} (h : hostInTake n s = .next t) : HostAccess s t := by
  unfold hostInTake at h
  split at h
  · cases h
  · cases h; exact .outside _ _ _ _ _ _

/-- A host operation issues a command word or is an access. -/
theorem hostAct_cases {op : HostOp} {s t : State} (h : hostAct op s = .next t) :
    (∃ w, issue w s = .next t) ∨ HostAccess s t := by
  cases op with
  | csrWrite a v => exact (hostCsrWrite_cases h).imp_left fun h => ⟨v, h⟩
  | csrRead a => exact .inr (hostCsrRead_access h)
  | memWrite sp a v => exact .inr (hostMemWrite_access h)
  | memRead sp a => exact .inr (hostMemRead_access h)
  | inTake n => exact .inr (hostInTake_access h)
  | inPush bs => cases h; exact .inr (.outside _ _ _ _ _ _)
  | outPop => cases h; exact .inr (.outside _ _ _ _ _ _)
  | idctPop => cases h; exact .inr (.outside _ _ _ _ _ _)
  | offerSpace cap => cases h; exact .inr (.outside _ _ _ _ _ _)

/-- A word written to `CMD` runs the command it stands for; an illegal word changes nothing or records a fault. -/
theorem issue_cases {w : Word} {s t : State} (h : issue w s = .next t) :
    (∃ i, exec i s = .next t) ∨ t = s ∨ t = s.raiseFault .illegalCommand := by
  unfold issue at h
  split at h
  · next i _ => exact .inl ⟨i, h⟩
  · rcases command_cases h with ⟨-, rfl⟩ | ⟨-, ⟨k, u, hu, rfl⟩ | ⟨c, u, hu, rfl⟩ | ⟨c, u, hu, rfl⟩⟩
    · exact .inr (.inl rfl)
    · cases hu
    · cases hu; exact .inr (.inr rfl)
    · cases hu

/-- What every command, every recorded fault and every host access keeps, every step keeps. -/
theorem step_keeps {P : State → Prop} (hcommand : ∀ {i s t}, P s → exec i s = .next t → P t)
    (hfault : ∀ {s c}, P s → P (s.raiseFault c)) (haccess : ∀ {s t}, P s → HostAccess s t → P t)
    {s t : State} (hs : P s) (h : step s = .next t) : P t := by
  unfold step at h
  split at h
  · cases h; exact hs
  · next op rest _ =>
    have hp : P { s with host := rest } :=
      haccess hs (.outside s.outCapacity rest s.reply s.inPort s.outPort s.idctPort)
    rcases hostAct_cases h with ⟨w, hw⟩ | ha
    · rcases issue_cases hw with ⟨i, hi⟩ | rfl | rfl
      · exact hcommand hp hi
      · exact hp
      · exact hfault hp
    · exact haccess hp ha

/-! ## The ranges of running state (O58) -/

theorem and_toNat_lt {v m : Word} {n : Nat} (h : m.toNat < 2 ^ n) : (v &&& m).toNat < 2 ^ n := by
  rw [BitVec.toNat_and]
  exact Nat.and_lt_two_pow _ h

theorem forall_mem_setIfInBounds {α : Type} {n : Nat} {P : α → Prop} {xs : Vector α n} {i : Nat} {x : α}
    (h : ∀ y ∈ xs.toList, P y) (hx : P x) : ∀ y ∈ (xs.setIfInBounds i x).toList, P y := by
  intro y hy
  rw [Vector.toList_setIfInBounds] at hy
  rcases List.mem_or_eq_of_mem_set hy with hy | rfl
  · exact h y hy
  · exact hx

theorem reservedZero_write {r r' : Regs} {a : Nat} {v : Word} (h : r.reservedZero) (hw : r.write a v = some r') :
    r'.reservedZero := by
  obtain ⟨hcfg, hrst, hscan, hcomps, hout, hspec, hqtbl, hcomp, hcond⟩ := h
  unfold Regs.write at hw
  repeat' split at hw
  all_goals cases hw
  · exact ⟨hcfg, hrst, hscan, hcomps, hout, hspec, hqtbl, hcomp, hcond⟩
  · exact ⟨and_toNat_lt (by decide), hrst, hscan, hcomps, hout, hspec, hqtbl, hcomp, hcond⟩
  · exact ⟨hcfg, and_toNat_lt (by decide), hscan, hcomps, hout, hspec, hqtbl, hcomp, hcond⟩
  · exact ⟨hcfg, hrst, and_toNat_lt (by decide), hcomps, hout, hspec, hqtbl, hcomp, hcond⟩
  · exact ⟨hcfg, hrst, hscan, and_toNat_lt (by decide), hout, hspec, hqtbl, hcomp, hcond⟩
  · exact ⟨hcfg, hrst, hscan, hcomps, and_toNat_lt (by decide), hspec, hqtbl, hcomp, hcond⟩
  · exact ⟨hcfg, hrst, hscan, hcomps, hout, and_toNat_lt (by decide), hqtbl, hcomp, hcond⟩
  · exact ⟨hcfg, hrst, hscan, hcomps, hout, hspec, and_toNat_lt (by decide), hcomp, hcond⟩
  · exact ⟨hcfg, hrst, hscan, hcomps, hout, hspec, hqtbl, forall_mem_setIfInBounds hcomp (and_toNat_lt (by decide)),
      hcond⟩
  · exact ⟨hcfg, hrst, hscan, hcomps, hout, hspec, hqtbl, hcomp,
      forall_mem_setIfInBounds hcond (and_toNat_lt (by decide))⟩

theorem eq_of_mem_toList_replicate {α : Type} {n : Nat} {x y : α} (h : y ∈ (Vector.replicate n x).toList) : y = x := by
  rw [Vector.toList_replicate] at h
  exact List.eq_of_mem_replicate h

theorem reservedZero_defaultConditioning {r : Regs} (h : r.reservedZero) :
    Regs.reservedZero { r with arithCond := Vector.replicate 16 0x510 } := by
  obtain ⟨hcfg, hrst, hscan, hcomps, hout, hspec, hqtbl, hcomp, -⟩ := h
  refine ⟨hcfg, hrst, hscan, hcomps, hout, hspec, hqtbl, hcomp, fun x hx => ?_⟩
  rw [eq_of_mem_toList_replicate hx]
  decide

theorem reservedZero_outScan {r : Regs} {v : Word} (h : r.reservedZero) (hv : v.toNat < 2 ^ 16) :
    Regs.reservedZero { r with outScan := v } := by
  obtain ⟨hcfg, hrst, hscan, hcomps, -, hspec, hqtbl, hcomp, hcond⟩ := h
  exact ⟨hcfg, hrst, hscan, hcomps, hv, hspec, hqtbl, hcomp, hcond⟩

theorem reservedZero_reset : Regs.reset.reservedZero := by
  refine ⟨by decide, by decide, by decide, by decide, by decide, by decide, by decide, fun x hx => ?_, fun x hx => ?_⟩
  all_goals
    rw [eq_of_mem_toList_replicate hx]
    decide

theorem sizesOk_reset : DerivedTable.sizesOk DerivedTable.reset := fun c hc => by cases hc

/-- The record of a slot is one of the eight, or the reset record where the slot names none. -/
theorem derived_mem_or_reset (s : State) (cls : TableClass) (t : Nat) :
    s.derived cls t ∈ s.dtbl.toList ∨ s.derived cls t = DerivedTable.reset := by
  unfold State.derived
  by_cases hi : tableSlot cls t < 8
  · exact .inl (by simp [Vector.getD, hi])
  · exact .inr (by simp [Vector.getD, hi])

theorem sizesOk_derived {s : State} (h : ∀ t ∈ s.dtbl.toList, DerivedTable.sizesOk t) (cls : TableClass) (t : Nat) :
    DerivedTable.sizesOk (s.derived cls t) := by
  rcases derived_mem_or_reset s cls t with hm | hr
  · exact h _ hm
  · rw [hr]
    exact sizesOk_reset

theorem writerOk_reset : Entropy.reset.writerOk := by decide

/-- The frame of the ranges: where they hold, they hold after. -/
def rangesFrame (i : Instr) : CmdFrame i where
  rel s t := s.rangesOk → t.rangesOk
  writes _ := True
  refl _ := id
  trans hst htu h := htu (hst h)
  ent := by
    intro s e ⟨hwriter, hreader, hrestart⟩ ⟨hw, hr, hn, hwarn, hregs, hd⟩
    exact ⟨hwriter hw, hreader hr, hrestart hn, hwarn, hregs, hd⟩
  status := by
    intro s t ⟨_, _, _, _, hcount⟩ ⟨hw, hr, hn, hwarn, hregs, hd⟩
    exact ⟨hw, hr, hn, hcount hwarn, hregs, hd⟩
  statsWrite _ _ _ := id
  statsClear _ _ _ := id
  takes _ _ _ := id
  emits _ _ := id
  sends _ _ := id
  coef s ref p v _ := by cases ref <;> exact id
  ctl _ _ _ := id
  scan _ _ := id
  image _ _ _ := id
  clearBuf _ _ := id
  buffer _ := trivial
  built := by
    intro s cls t d _ hsize ⟨hw, hr, hn, hwarn, hregs, hd⟩
    exact ⟨hw, hr, hn, hwarn, hregs, forall_mem_setIfInBounds hd (hsize (sizesOk_derived hd cls t))⟩
  array _ _ := trivial
  result _ _ _ := id
  soi := by
    intro _ s ⟨hw, hr, hn, hwarn, hregs, hd⟩
    exact ⟨writerOk_reset, Nat.zero_le _, (by decide : (0 : Nat) < 8), Nat.zero_le _,
      reservedZero_defaultConditioning hregs, hd⟩
  allocate _ _ _ := id
  outScan := by
    intro _ s v hv ⟨hw, hr, hn, hwarn, hregs, hd⟩
    exact ⟨hw, hr, hn, hwarn, reservedZero_outScan hregs hv, hd⟩

theorem rangesOk_resetCore (s : State) : s.resetCore.rangesOk := by
  refine ⟨writerOk_reset, Nat.zero_le _, (by decide : (0 : Nat) < 8), Nat.zero_le _, reservedZero_reset, fun t ht => ?_⟩
  rw [eq_of_mem_toList_replicate ht]
  exact sizesOk_reset

theorem rangesOk_exec {i : Instr} {s t : State} (hs : s.rangesOk) (h : exec i s = .next t) : t.rangesOk := by
  by_cases hi : i = .reset
  · subst hi
    cases h
    exact rangesOk_resetCore s
  · exact rel_of_exec (rangesFrame i) (fun _ _ _ _ => id) hi h hs

theorem rangesOk_access {s t : State} (hs : s.rangesOk) (h : HostAccess s t) : t.rangesOk := by
  cases h with
  | config hr =>
    obtain ⟨hw, hb, hn, hwarn, hregs, hd⟩ := hs
    exact ⟨hw, hb, hn, hwarn, reservedZero_write hregs hr, hd⟩
  | memory sp a v => cases sp <;> exact hs
  | outside => exact hs

/-- Settles O58: the ranges are an invariant of every command (the frame `rangesFrame`; `RESET` by its values) and of
every host access. -/
theorem rangesKept : Obligations.RangesKept := by
  intro s t hs h
  exact step_keeps rangesOk_exec id rangesOk_access hs h

/-! ## The shape of an active scan (O59)

No command but `START_SCAN` starts a scan: every other one leaves the scan state as it is or ends the scan. -/

/-- A relation between scan states, as what a procedure may do to the scan state while it writes anything else. -/
structure ScanRel where
  rel : Scan → Scan → Prop
  refl : ∀ n, rel n n
  trans : ∀ {n m k}, rel n m → rel m k → rel n k

/-- The frame of a relation between scan states. -/
def ScanRel.frame (R : ScanRel) : Frame where
  rel s t := R.rel s.scan t.scan
  writes _ := True
  refl s := R.refl s.scan
  trans := R.trans
  ent _ _ _ := R.refl _
  status _ _ _ := R.refl _
  statsWrite _ _ _ := R.refl _
  statsClear _ _ _ := R.refl _
  takes _ _ _ := R.refl _
  emits _ _ := R.refl _
  sends _ _ := R.refl _
  coef s x p v _ := by rw [State.withCoef_scan]; exact R.refl _

/-- The scan state stays as it is. -/
def scanKept : ScanRel := ⟨fun n m => m = n, fun _ => rfl, fun h g => g.trans h⟩

/-- The scan state stays as it is, or no scan is active after. -/
def noScanStarted : ScanRel where
  rel n m := m = n ∨ m.active = false
  refl _ := .inl rfl
  trans := by
    rintro n m k h (rfl | g)
    · exact h
    · exact .inr g

section
variable {b : Bool} {R : ScanRel}

/-- A write of anything but the scan state. -/
theorem ScanRel.keeps_modify {f : State → State} (h : ∀ s, (f s).scan = s.scan) :
    Keeps b R.frame (modify f : Proc PUnit) := fun s => by
  show R.rel s.scan (f s).scan
  rw [h]
  exact R.refl _

theorem ScanRel.keeps_modCtl (f : Ctl → Ctl) : Keeps b R.frame (modCtl f) := fun s => R.refl s.scan
theorem ScanRel.keeps_modImage (f : Image → Image) : Keeps b R.frame (modImage f) := fun s => R.refl s.scan
theorem ScanRel.keeps_modStatus (f : Status → Status) : Keeps b R.frame (modStatus f) := fun s => R.refl s.scan
theorem ScanRel.keeps_modEnt (f : Entropy → Entropy) : Keeps b R.frame (modEnt f) := fun s => R.refl s.scan
theorem ScanRel.keeps_startImcuRow : Keeps b R.frame startImcuRow := keeps_modify fun _ => rfl

theorem ScanRel.keeps_decodeMcu (blks : List McuBlock) : Keeps false R.frame (decodeMcu blks) :=
  Machine.keeps_decodeMcu fun _ _ => trivial

/-! ### Table builds and the decode side of `START_SCAN` -/

theorem ScanRel.keeps_buildDec (cls : TableClass) (t : Nat) : Keeps b R.frame (buildDec cls t) := by
  unfold buildDec
  exact keeps_bind (keeps_demandSpec _ _) fun _ => keeps_bind (keeps_genCodes _ _) fun codes =>
    keeps_bind (keeps_demand _ _) fun _ => keeps_modify fun _ => rfl

theorem ScanRel.keeps_buildEnc (cls : TableClass) (t : Nat) : Keeps b R.frame (buildEnc cls t) := by
  unfold buildEnc
  exact keeps_bind (keeps_demandSpec _ _) fun _ => keeps_bind (keeps_genCodes _ _) fun codes =>
    keeps_bind (keeps_demand _ _) fun _ => keeps_modify fun _ => rfl

theorem ScanRel.keeps_buildTable (dir : Direction) (cls : TableClass) (t : Nat) :
    Keeps b R.frame (buildTable dir cls t) := by
  cases dir
  · exact keeps_buildDec cls t
  · exact keeps_buildEnc cls t

theorem ScanRel.keeps_buildScanTables : Keeps b R.frame buildScanTables := by
  unfold buildScanTables
  refine keeps_bind keeps_get fun s => keeps_forUpTo fun i => ?_
  unfold buildComponentTables
  refine keeps_bind keeps_get fun s => keeps_ite (keeps_bind (keeps_buildTable _ _ _) fun _ => ?_) ?_
  all_goals exact keeps_ite (keeps_buildTable _ _ _) (keeps_pure _)

theorem ScanRel.keeps_updateCoefBits (c k : Nat) : Keeps b R.frame (updateCoefBits c k) := by
  unfold updateCoefBits
  exact keeps_bind keeps_get fun s => keeps_ite (keeps_bind (keeps_warn _) fun _ => keeps_modImage _) (keeps_modImage _)

theorem ScanRel.keeps_updateProgression (i : Nat) : Keeps b R.frame (updateProgression i) := by
  unfold updateProgression
  refine keeps_bind keeps_get fun s => keeps_ite (keeps_bind (keeps_warn _) fun _ => ?_) ?_
  all_goals exact keeps_forM fun k _ => keeps_updateCoefBits _ k

theorem ScanRel.keeps_latchQuant (i : Nat) : Keeps b R.frame (latchQuant i) := by
  unfold latchQuant
  exact keeps_bind keeps_get fun s => keeps_ite (keeps_modImage _) (keeps_pure _)

theorem ScanRel.keeps_startDecode : Keeps b R.frame startDecode := by
  unfold startDecode
  refine keeps_bind keeps_get fun s => keeps_ite (keeps_ite (keeps_bind
    (keeps_forUpTo keeps_updateProgression) fun _ => ?_) ?_) (keeps_pure _)
  all_goals exact keeps_forUpTo keeps_latchQuant

theorem ScanRel.keeps_startInput : Keeps b R.frame startInput := by
  unfold startInput
  exact keeps_bind keeps_get fun s => keeps_ite (keeps_bind (keeps_modImage _) fun _ =>
    keeps_bind (keeps_modCtl _) fun _ => keeps_startImcuRow) (keeps_pure _)

/-! ### The controller -/

theorem ScanRel.keeps_onepassMcu : Keeps false R.frame onepassMcu := by
  unfold onepassMcu
  refine keeps_bind keeps_get fun s => keeps_bind (keeps_modify fun _ => rfl) fun _ =>
    keeps_bind (keeps_decodeMcu _) fun _ => keeps_bind keeps_get fun s => keeps_forM fun p _ => ?_
  exact keeps_ite (keeps_idctOut _) (keeps_pure _)

theorem ScanRel.keeps_consumeMcu : Keeps b R.frame consumeMcu := by
  have accumulate : Keeps false R.frame accumulateMcu := keeps_bind keeps_get fun s => keeps_decodeMcu _
  unfold consumeMcu
  exact keeps_bind keeps_get fun s => keeps_bind (keeps_atomically (keeps_ite keeps_onepassMcu accumulate)) fun _ =>
    keeps_modCtl _

theorem ScanRel.keeps_times {p : Proc Unit} (h : Keeps b R.frame p) : ∀ n, Keeps b R.frame (times n p)
  | 0 => keeps_pure _
  | n + 1 => keeps_bind h fun _ => keeps_times h n

theorem ScanRel.keeps_consumeMcuRow : Keeps b R.frame consumeMcuRow := by
  unfold consumeMcuRow
  exact keeps_bind keeps_get fun s => keeps_bind (keeps_times keeps_consumeMcu _) fun _ => keeps_modCtl _

end

/-! ### Every command but `START_SCAN` -/

section
variable {b : Bool}

theorem endScan_startsNone : Keeps b noScanStarted.frame (modScan fun n => { n with active := false, mode := .none }) :=
  fun _ => .inr rfl

theorem endDecodeScan_startsNone : Keeps b noScanStarted.frame endDecodeScan := by
  unfold endDecodeScan
  exact keeps_bind keeps_readerReset fun _ => endScan_startsNone

theorem consumeRow_startsNone : Keeps b noScanStarted.frame consumeRow := by
  unfold consumeRow
  exact keeps_bind keeps_get fun s => keeps_bind (ScanRel.keeps_times ScanRel.keeps_consumeMcuRow _) fun _ =>
    keeps_bind (ScanRel.keeps_modCtl _) fun _ => keeps_bind keeps_get fun s => keeps_ite
      (keeps_bind ScanRel.keeps_startImcuRow fun _ => keeps_pure _)
      (keeps_bind endDecodeScan_startsNone fun _ => keeps_pure _)

theorem consumeInputBody_startsNone : Keeps b noScanStarted.frame consumeInputBody := by
  unfold consumeInputBody
  exact keeps_bind keeps_get fun s => keeps_bind (keeps_demand _ _) fun _ => consumeRow_startsNone

theorem produceInput_startsNone : ∀ n, Keeps b noScanStarted.frame (produceInput n)
  | 0 => keeps_stop _
  | n + 1 => by
    unfold produceInput
    exact keeps_bind keeps_get fun s => keeps_ite (keeps_ite (keeps_bind consumeRow_startsNone fun _ =>
      produceInput_startsNone n) (keeps_ite (keeps_raise _) (keeps_suspend _))) (keeps_pure _)

theorem produceOutputBody_startsNone : Keeps b noScanStarted.frame produceOutputBody := by
  unfold produceOutputBody
  exact keeps_bind keeps_get fun s => keeps_bind (keeps_demand _ _) fun _ => keeps_bind (produceInput_startsNone _) fun _ =>
    keeps_bind keeps_outputRow fun _ => keeps_bind (ScanRel.keeps_modCtl _) fun _ => keeps_bind keeps_get fun s =>
      keeps_ite (keeps_pure _) (keeps_bind (ScanRel.keeps_modCtl _) fun _ => keeps_pure _)

theorem finishEncode_startsNone : Keeps b noScanStarted.frame finishEncode := by
  have finish : ∀ p : Proc Unit, Keeps b noScanStarted.frame p → Keeps b noScanStarted.frame
      (p >>= fun _ => modScan fun n => { n with active := false, mode := .none }) := fun p hp =>
    keeps_bind hp fun _ => endScan_startsNone
  unfold finishEncode
  refine keeps_bind keeps_get fun s => ?_
  split
  · exact finish _ (keeps_stop _)
  · exact keeps_ite (finish _ keeps_hufFinishEncode) (finish _ keeps_ariFinishEncode)

theorem abandonDecode_startsNone : Keeps b noScanStarted.frame abandonDecode := by
  unfold abandonDecode
  exact keeps_bind (ScanRel.keeps_modify fun _ => rfl) fun _ => endDecodeScan_startsNone

theorem startImageBody_startsNone : Keeps b noScanStarted.frame startImageBody := by
  have discard : Keeps b noScanStarted.frame (modify State.discardImage) := fun _ => .inr rfl
  have soi : Keeps b noScanStarted.frame (modify State.soiReset) := ScanRel.keeps_modify fun _ => rfl
  have check : ∀ r, Keeps b noScanStarted.frame (checkImage r) := fun r =>
    keeps_bind (keeps_demand _ _) fun _ => keeps_bind (keeps_demand _ _) fun _ => keeps_demand _ _
  have allocate : Keeps b noScanStarted.frame allocateCoef :=
    keeps_bind keeps_get fun s => keeps_bind (keeps_demand _ _) fun _ => ScanRel.keeps_modify fun _ => rfl
  unfold startImageBody
  exact keeps_bind discard fun _ => keeps_bind keeps_get fun s => keeps_bind (check _) fun _ =>
    keeps_bind (ScanRel.keeps_modify fun _ => rfl) fun _ => keeps_bind keeps_get fun s =>
      keeps_ite (keeps_bind allocate fun _ => soi) soi

end

/-- A command whose body starts no scan starts none. -/
theorem command_startsNone {body : Proc ResultKind} (hb : Keeps true noScanStarted.frame body) {s t : State}
    (h : command body s = .next t) : noScanStarted.rel s.scan t.scan := by
  rcases command_cases h with ⟨-, rfl⟩ | ⟨-, ⟨k, u, hu, rfl⟩ | ⟨c, u, hu, rfl⟩ | ⟨c, u, hu, rfl⟩⟩
  · exact .inl rfl
  · exact (hb.ok hu : noScanStarted.rel s.scan u.scan)
  · exact (hb.raise hu : noScanStarted.rel s.scan u.scan)
  · exact (hb.suspend hu : noScanStarted.rel s.scan u.scan)

theorem singleStep_startsNone {body : Proc Unit} (hb : Keeps false noScanStarted.frame body) {s t : State}
    (h : singleStep body s = .next t) : noScanStarted.rel s.scan t.scan :=
  command_startsNone (keeps_atomically (keeps_withSpace (keeps_bind hb fun _ => keeps_pure _))) h

/-- An engine, table or bit command: its body follows the check that no scan is active. -/
theorem engine_startsNone {p : Proc Unit} (hp : Keeps false noScanStarted.frame p) {s t : State}
    (h : singleStep (do demandNoScan; p) s = .next t) : noScanStarted.rel s.scan t.scan :=
  singleStep_startsNone (keeps_bind keeps_demandNoScan fun _ => hp) h

theorem exec_startsNone {i : Instr} (hi : ∀ dir, i ≠ .startScan dir) {s t : State} (h : exec i s = .next t) :
    noScanStarted.rel s.scan t.scan := by
  cases i with
  | nop => exact command_startsNone (keeps_pure _) h
  | reset => cases h; exact .inr rfl
  | startImage => exact singleStep_startsNone startImageBody_startsNone h
  | eoi =>
    refine singleStep_startsNone (keeps_bind keeps_get fun _ => keeps_bind (keeps_demand _ _) fun _ => ?_) h
    exact ScanRel.keeps_modify fun _ => rfl
  | htBuildDec cls slot => exact engine_startsNone (ScanRel.keeps_buildDec cls slot) h
  | htBuildEnc cls slot => exact engine_startsNone (ScanRel.keeps_buildEnc cls slot) h
  | htDecode cls slot =>
    exact engine_startsNone (keeps_bind keeps_get fun _ => keeps_bind (keeps_demand _ _) fun _ =>
      keeps_bind (keeps_huffDecode _ _) fun _ => ScanRel.keeps_modStatus _) h
  | htGetbits n => exact engine_startsNone (keeps_bind (keeps_getBits n) fun _ => ScanRel.keeps_modStatus _) h
  | htEncode cls slot sym =>
    exact engine_startsNone (keeps_bind keeps_get fun _ => keeps_bind (keeps_demand _ _) fun _ =>
      keeps_emitSymbol _ _ _) h
  | htPutbits n value => exact engine_startsNone (keeps_emitBits _ _) h
  | htFlush => exact engine_startsNone keeps_flushBits h
  | htResetBits =>
    exact engine_startsNone (keeps_bind keeps_readerReset fun _ => keeps_bind keeps_writerReset fun _ =>
      ScanRel.keeps_modEnt _) h
  | arithEncInit => exact engine_startsNone (keeps_bind keeps_arithEncInit fun _ => keeps_initFixedBin) h
  | arithEncode bin x => exact engine_startsNone (keeps_arithEncode _ _) h
  | arithEncFlush => exact engine_startsNone (keeps_bind keeps_arithEncFinish fun _ => keeps_arithEncInit) h
  | arithDecInit =>
    exact engine_startsNone (keeps_bind keeps_arithDecInit fun _ => keeps_bind (ScanRel.keeps_modEnt _) fun _ =>
      keeps_initFixedBin) h
  | arithDecode bin =>
    exact engine_startsNone (keeps_bind (keeps_arithDecode _) fun _ => ScanRel.keeps_modStatus _) h
  | startScan dir => exact absurd rfl (hi dir)
  | encodeMcu =>
    refine singleStep_startsNone (keeps_bind keeps_get fun _ => keeps_bind (keeps_demand _ _) fun _ => ?_) h
    exact keeps_encodeMcu _
  | decodeMcu =>
    refine singleStep_startsNone (keeps_bind keeps_get fun _ => keeps_bind (keeps_demand _ _) fun _ => ?_) h
    exact ScanRel.keeps_decodeMcu _
  | finishScan =>
    refine singleStep_startsNone (keeps_bind keeps_get fun s => keeps_bind (keeps_demand _ _) fun _ => ?_) h
    cases s.scan.dir
    · exact abandonDecode_startsNone
    · exact finishEncode_startsNone
  | consumeInput => exact command_startsNone consumeInputBody_startsNone h
  | startOutputPass =>
    refine singleStep_startsNone (keeps_bind keeps_get fun _ => keeps_bind (keeps_demand _ _) fun _ => ?_) h
    exact ScanRel.keeps_modify fun _ => rfl
  | produceOutput => exact command_startsNone produceOutputBody_startsNone h

/-! ### The scan geometry (`44_coef_controller.md` R702, R703) -/

/-- What `scanShape` asks of the scan state of an active scan. -/
def Scan.Shaped (n : Scan) : Prop :=
  n.mode ≠ .none ∧ n.blocksInMcu ≤ 10 ∧ n.places.length = n.blocksInMcu ∧
    n.places.map McuPlace.ci = (List.range n.blocksInMcu).map fun b => n.membership.getD b 0

theorem Scan.foldl_preserves {β : Type} (g : Scan → β) {f : Scan → Nat → Scan} (h : ∀ n i, g (f n i) = g n) :
    ∀ (l : List Nat) (n : Scan), g (l.foldl f n) = g n
  | [], _ => rfl
  | i :: l, n => (Scan.foldl_preserves g h l (f n i)).trans (h n i)

theorem Scan.comp_withComp (n : Scan) (i j : Nat) (x : ScanComp) :
    (n.withComp i x).comp j = if i = j ∧ i < 4 then x else n.comp j := by
  unfold Scan.withComp Scan.comp
  by_cases hj : j < 4 <;> by_cases hij : i = j <;> simp [Vector.getD, hj, hij]

theorem Scan.comp_beyond (n : Scan) {i : Nat} (h : 4 ≤ i) : n.comp i = ScanComp.reset := by
  simp [Scan.comp, Vector.getD, Nat.not_lt.2 h]

/-- The blocks of the component in an MCU fill its rectangle, and there is one where the scan is not interleaved. -/
def ScanComp.Sized (interleaved : Bool) (x : ScanComp) : Prop :=
  x.mcuBlocks = x.mcuHeight * x.mcuWidth ∧ (interleaved = false → x.mcuBlocks ≤ 1)

theorem sized_scanCompGeometry (m : Image) (interleaved : Bool) (x : ScanComp) :
    ScanComp.Sized interleaved (scanCompGeometry m interleaved x) := by
  cases interleaved
  · exact ⟨rfl, fun _ => Nat.le_refl 1⟩
  · exact ⟨Nat.mul_comm _ _, fun h => by cases h⟩

theorem sized_reset (interleaved : Bool) : ScanComp.Sized interleaved ScanComp.reset := ⟨rfl, fun _ => Nat.zero_le 1⟩

/-- After the fold over the scan components every one of them is sized. -/
theorem sized_foldl (m : Image) (interleaved : Bool) (i : Nat) : ∀ (l : List Nat) (n : Scan),
    i ∈ l ∨ ScanComp.Sized interleaved (n.comp i) →
    ScanComp.Sized interleaved
      ((l.foldl (fun n j => n.withComp j (scanCompGeometry m interleaved (n.comp j))) n).comp i)
  | [], _, h => h.resolve_left (by simp)
  | j :: l, n, h => by
    refine sized_foldl m interleaved i l _ ?_
    rw [Scan.comp_withComp]
    split
    · exact .inr (sized_scanCompGeometry m interleaved _)
    · next hj =>
      by_cases hi : 4 ≤ i
      · rw [Scan.comp_beyond n hi]
        exact .inr (sized_reset interleaved)
      · exact h.imp_left fun hm => (List.mem_cons.1 hm).resolve_left (by omega)

theorem sized_withGeometry (n : Scan) (m : Image) {i : Nat} (hi : i < n.compsInScan) :
    ScanComp.Sized (decide (2 ≤ n.compsInScan)) ((n.withGeometry m).comp i) :=
  sized_foldl m _ i n.scanComps n (.inl (List.mem_range.2 hi))

/-- The geometry leaves what no component holds as it is. -/
theorem withGeometry_preserves {β : Type} (g : Scan → β) (hw : ∀ n i x, g (Scan.withComp n i x) = g n)
    (hg : ∀ (n : Scan) a b c, g { n with mcusPerRow := a, mcuRowsInScan := b, blocksInMcu := c } = g n)
    (n : Scan) (m : Image) : g (n.withGeometry m) = g n :=
  (hg _ _ _ _).trans (Scan.foldl_preserves g (fun n _ => hw n _ _) n.scanComps n)

theorem withGeometry_active (n : Scan) (m : Image) : (n.withGeometry m).active = n.active :=
  withGeometry_preserves Scan.active (fun _ _ _ => rfl) (fun _ _ _ _ => rfl) n m

theorem withGeometry_mode (n : Scan) (m : Image) : (n.withGeometry m).mode = n.mode :=
  withGeometry_preserves Scan.mode (fun _ _ _ => rfl) (fun _ _ _ _ => rfl) n m

theorem withGeometry_compsInScan (n : Scan) (m : Image) : (n.withGeometry m).compsInScan = n.compsInScan :=
  withGeometry_preserves Scan.compsInScan (fun _ _ _ => rfl) (fun _ _ _ _ => rfl) n m

theorem blocksInMcu_withGeometry (n : Scan) (m : Image) : (n.withGeometry m).blocksInMcu =
    ((n.withGeometry m).scanComps.map fun i => ((n.withGeometry m).comp i).mcuBlocks).sum := by
  rw [List.sum_eq_foldl, List.foldl_map]
  rfl

theorem length_places (n : Scan) :
    n.places.length = (n.scanComps.map fun i => (n.comp i).mcuHeight * (n.comp i).mcuWidth).sum := by
  simp only [Scan.places, List.length_flatMap, List.length_map, List.length_range, List.map_const',
    List.sum_replicate_nat]

theorem length_places_withGeometry (n : Scan) (m : Image) :
    (n.withGeometry m).places.length = (n.withGeometry m).blocksInMcu := by
  rw [length_places, blocksInMcu_withGeometry]
  refine congrArg List.sum (List.map_congr_left fun i hi => ?_)
  rw [Scan.scanComps, withGeometry_compsInScan, List.mem_range] at hi
  exact (sized_withGeometry n m hi).1.symm

theorem blocksInMcu_single (n : Scan) (m : Image) (h : n.compsInScan < 2) : (n.withGeometry m).blocksInMcu ≤ 1 := by
  rw [blocksInMcu_withGeometry, Scan.scanComps, withGeometry_compsInScan]
  have one : ∀ i < n.compsInScan, ((n.withGeometry m).comp i).mcuBlocks ≤ 1 := fun i hi =>
    (sized_withGeometry n m hi).2 (by simpa using h)
  match n.compsInScan, h, one with
  | 0, _, _ => exact Nat.zero_le 1
  | 1, _, one => exact one 0 (by decide)

theorem withMembership_getD {n : Scan} {b : Nat} (hb : b < n.places.length) (h10 : b < 10) :
    n.withMembership.membership.getD b 0 = n.places[b].ci := by
  rw [show n.withMembership.membership.getD b 0 = n.withMembership.membership[b] by simp [Vector.getD, h10],
    Scan.withMembership, Vector.getElem_ofFn, List.getElem?_eq_getElem hb]

theorem map_ci_withMembership {n : Scan} (h : n.places.length = n.blocksInMcu) (h10 : n.blocksInMcu ≤ 10) :
    n.withMembership.places.map McuPlace.ci =
      (List.range n.withMembership.blocksInMcu).map fun b => n.withMembership.membership.getD b 0 := by
  refine List.ext_getElem ?_ fun b hb _ => ?_
  · rw [List.length_map, List.length_map, List.length_range]
    exact h
  · have hp : b < n.places.length := by rwa [List.length_map] at hb
    rw [List.getElem_map, List.getElem_map, List.getElem_range, withMembership_getD hp (by omega)]
    rfl

/-- A scan with the geometry of R702, at most ten blocks in an MCU and a mode is shaped once `MCU_membership` is written. -/
theorem shaped_withMembership {n : Scan} {m : Image} (hm : n.mode ≠ .none) (h10 : (n.withGeometry m).blocksInMcu ≤ 10) :
    (n.withGeometry m).withMembership.Shaped :=
  ⟨by rw [show (n.withGeometry m).withMembership.mode = _ from withGeometry_mode n m]; exact hm, h10,
    length_places_withGeometry n m, map_ci_withMembership (length_places_withGeometry n m) h10⟩

/-! ### `START_SCAN` -/

/-- A step of `START_SCAN` from a scan state with `P`: where it goes on, the scan state has `Q`; where it raises a fault,
no scan is active. -/
def Reaches (P Q : Scan → Prop) (p : Proc Unit) : Prop :=
  ∀ s : State, P s.scan →
    (∀ t, p s = .ok ⟨⟩ t → Q t.scan) ∧ ∀ c t, p s = .error (.raise c) t → t.scan.active = false

section
variable {P Q R : Scan → Prop} {p q : Proc Unit}

theorem reaches_bind (hp : Reaches P Q p) (hq : Reaches Q R q) : Reaches P R (p >>= fun _ => q) := by
  intro s hs
  obtain ⟨hok, hraise⟩ := hp s hs
  rw [run_bind]
  cases e : p s with
  | ok a t => exact hq t (hok t e)
  | error x t =>
    refine ⟨fun u hu => (by cases hu), fun c u hu => ?_⟩
    cases hu
    exact hraise c t e

theorem reaches_kept (hP : ∀ n, P n → n.active = false) (hp : Keeps false scanKept.frame p) : Reaches P P p := by
  intro s hs
  refine ⟨fun t ht => ?_, fun c t ht => ?_⟩
  · rw [show t.scan = s.scan from hp.ok ht]; exact hs
  · rw [show t.scan = s.scan from hp.raise ht]; exact hP _ hs

theorem reaches_modScan {f : Scan → Scan} (h : ∀ n, P n → Q (f n)) : Reaches P Q (modScan f) :=
  fun s hs => ⟨fun t ht => by cases ht; exact h _ hs, fun c t ht => by cases ht⟩

end

/-- No scan is active, and the scan state has a mode. -/
def Scan.Chosen (n : Scan) : Prop := n.active = false ∧ n.mode ≠ .none

/-- No scan is active, and the scan state has the shape of one. -/
def Scan.Ready (n : Scan) : Prop := n.active = false ∧ n.Shaped

theorem latchDescriptor_active (n : Scan) (dir : Direction) (r : Regs) :
    (n.latchDescriptor dir r).active = n.active :=
  Scan.foldl_preserves Scan.active (f := Scan.latchComp r.scanComps) (fun _ _ => rfl) _ _

theorem latchSelectors_active (n : Scan) (r : Regs) : (n.latchSelectors r).active = n.active :=
  Scan.foldl_preserves Scan.active (f := Scan.latchSelector r) (fun _ _ => rfl) _ _

theorem modeOf_ne_none (prog arith : Bool) (ss ah : Nat) : modeOf prog arith ss ah ≠ .none := by
  unfold modeOf
  split <;> decide

theorem reaches_chooseMode : Reaches (fun n => n.active = false) Scan.Chosen chooseMode := by
  intro s hs
  unfold chooseMode
  rw [run_modify_bind, run_get_bind]
  split
  · exact ⟨fun t ht => by cases ht; exact ⟨hs, modeOf_ne_none _ _ _ _⟩, fun c t ht => by cases ht⟩
  · exact ⟨fun t ht => by cases ht; exact ⟨hs, modeOf_ne_none _ _ _ _⟩, fun c t ht => by cases ht⟩

theorem reaches_computeScanGeometry : Reaches Scan.Chosen Scan.Ready computeScanGeometry := by
  intro s ⟨hactive, hmode⟩
  unfold computeScanGeometry
  rw [run_modify_bind, run_get_bind, run_demand_bind]
  have hoff : (s.scan.withGeometry s.image).active = false := (withGeometry_active _ _).trans hactive
  split
  · next hd =>
    refine ⟨fun t ht => ?_, fun c t ht => by cases ht⟩
    cases ht
    have h10 : (s.scan.withGeometry s.image).blocksInMcu ≤ 10 := by
      simp only [Bool.or_eq_true, decide_eq_true_eq, withGeometry_compsInScan] at hd
      rcases hd with hd | hd
      · exact Nat.le_trans (blocksInMcu_single s.scan s.image hd) (by decide)
      · exact hd
    exact ⟨hoff, shaped_withMembership hmode h10⟩
  · exact ⟨fun t ht => (by cases ht), fun c t ht => by cases ht; exact hoff⟩

theorem Reaches.ends {P : Scan → Prop} {p : Proc Unit} (h : Reaches P Scan.Shaped p) {s : State} (hs : P s.scan) :
    Ends false State.scanShape (p s) := by
  obtain ⟨hok, hraise⟩ := h s hs
  cases e : p s with
  | ok a t => exact fun _ => hok t e
  | error x t =>
    cases x with
    | raise c => exact fun hactive => absurd hactive (by simp [hraise c t e])
    | suspend c => exact fun hb => nomatch hb
    | stop f => trivial

/-- `START_SCAN` in its order (R804): it starts no scan before its last step, and the scan it starts has its shape. -/
theorem ends_startScanBody (dir : Direction) {s : State} (hs : s.scanShape) :
    Ends false State.scanShape (startScanBody dir s) := by
  unfold startScanBody
  rw [run_get_bind, run_demand_bind]
  split
  · next hd =>
    have hoff : s.scan.active = false := by
      simp only [Bool.and_eq_true, Bool.not_eq_true'] at hd
      exact hd.1.2
    have kept : ∀ {p}, Keeps false scanKept.frame p → Reaches Scan.Ready Scan.Ready p := reaches_kept fun _ h => h.1
    refine Reaches.ends (P := fun n => n.active = false) ?_ hoff
    exact reaches_bind (reaches_modScan fun n hn => (latchDescriptor_active n dir s.regs).trans hn) <|
      reaches_bind (reaches_kept (fun _ => id) keeps_checkComponents) <|
      reaches_bind (reaches_modScan fun n hn => (latchSelectors_active n s.regs).trans hn) <|
      reaches_bind reaches_chooseMode <|
      reaches_bind (reaches_kept (fun _ h => h.1) keeps_checkProgression) <|
      reaches_bind reaches_computeScanGeometry <|
      reaches_bind (kept ScanRel.keeps_buildScanTables) <|
      reaches_bind (kept ScanRel.keeps_startDecode) <|
      reaches_bind (kept keeps_initEntropy) <|
      reaches_bind (kept ScanRel.keeps_startInput) <|
      reaches_modScan fun _ h => h.2
  · exact hs

theorem startScan_scanShape {dir : Direction} {s t : State} (hs : s.scanShape)
    (h : singleStep (startScanBody dir) s = .next t) : t.scanShape := by
  have hbody := ends_startScanBody dir hs
  rcases singleStep_cases h with ⟨-, rfl⟩ | ⟨-, ⟨u, hu, rfl⟩ | ⟨c, u, hu, rfl⟩ | ⟨c, rfl⟩⟩
  · exact hs
  · rw [hu] at hbody
    exact hbody
  · rw [hu] at hbody
    exact hbody
  · exact hs

theorem scanShape_exec {i : Instr} {s t : State} (hs : s.scanShape) (h : exec i s = .next t) : t.scanShape := by
  by_cases hi : ∃ dir, i = .startScan dir
  · obtain ⟨dir, rfl⟩ := hi
    exact startScan_scanShape hs h
  · rcases exec_startsNone (fun dir hd => hi ⟨dir, hd⟩) h with hk | hoff
    · unfold State.scanShape
      rw [hk]
      exact hs
    · exact fun hactive => absurd hactive (by simp [hoff])

theorem scanShape_access {s t : State} (hs : s.scanShape) (h : HostAccess s t) : t.scanShape := by
  cases h with
  | config => exact hs
  | memory sp a v => cases sp <;> exact hs
  | outside => exact hs

/-- Settles O59: `START_SCAN` leaves a scan with its shape (`ends_startScanBody`), and nothing else starts one
(`exec_startsNone`). -/
theorem scanShapeKept : Obligations.ScanShapeKept := by
  intro s t hs h
  exact step_keeps scanShape_exec id scanShape_access hs h

/-! ## The frame of every command (O9) -/

/-- What the command `i` leaves as it was in going from `s` to `t`, and how the ports may change. -/
structure CommandUnchanged (i : Instr) (s t : State) : Prop where
  cfg : t.cfg = s.cfg
  outCapacity : t.outCapacity = s.outCapacity
  host : t.host = s.host
  reply : t.reply = s.reply
  hspec : t.hspec = s.hspec
  qtbl : t.qtbl = s.qtbl
  regs : t.regs = { s.regs with outScan := t.regs.outScan, arithCond := t.regs.arithCond }
  outScan : i ≠ .eoi → i ≠ .startOutputPass → t.regs.outScan = s.regs.outScan
  arithCond : i ≠ .startImage → t.regs.arithCond = s.regs.arithCond
  result : ¬i.writesResult → t.status.result = s.status.result
  inPort : t.inPort <:+ s.inPort
  outPort : s.outPort <+: t.outPort
  idctPort : s.idctPort <+: t.idctPort

theorem CommandUnchanged.refl (i : Instr) (s : State) : CommandUnchanged i s s :=
  ⟨rfl, rfl, rfl, rfl, rfl, rfl, rfl, fun _ _ => rfl, fun _ => rfl, fun _ => rfl, List.suffix_refl _,
    List.prefix_refl _, List.prefix_refl _⟩

theorem CommandUnchanged.trans {i : Instr} {s t u : State} (h : CommandUnchanged i s t) (g : CommandUnchanged i t u) :
    CommandUnchanged i s u where
  cfg := g.cfg.trans h.cfg
  outCapacity := g.outCapacity.trans h.outCapacity
  host := g.host.trans h.host
  reply := g.reply.trans h.reply
  hspec := g.hspec.trans h.hspec
  qtbl := g.qtbl.trans h.qtbl
  regs := by rw [g.regs, h.regs]
  outScan he hp := (g.outScan he hp).trans (h.outScan he hp)
  arithCond hi := (g.arithCond hi).trans (h.arithCond hi)
  result hi := (g.result hi).trans (h.result hi)
  inPort := g.inPort.trans h.inPort
  outPort := h.outPort.trans g.outPort
  idctPort := h.idctPort.trans g.idctPort

/-- Every write of a command's body respects it: each part may differ only for the commands its field excepts. -/
def unchangedFrame (i : Instr) : CmdFrame i where
  rel := CommandUnchanged i
  writes _ := True
  refl := CommandUnchanged.refl i
  trans := CommandUnchanged.trans
  ent s _ _ := { CommandUnchanged.refl i s with }
  status := by
    intro s t ⟨_, hresult, _, _, _⟩
    exact { CommandUnchanged.refl i s with result := fun _ => hresult }
  statsWrite s _ _ := { CommandUnchanged.refl i s with }
  statsClear s _ _ := { CommandUnchanged.refl i s with }
  takes s _ h := { CommandUnchanged.refl i s with inPort := h }
  emits s _ := { CommandUnchanged.refl i s with outPort := List.prefix_append _ _ }
  sends s _ := { CommandUnchanged.refl i s with idctPort := List.prefix_append _ _ }
  coef s ref p v _ := by cases ref <;> exact { CommandUnchanged.refl i s with }
  ctl s _ _ := { CommandUnchanged.refl i s with }
  scan s _ := { CommandUnchanged.refl i s with }
  image s _ _ := { CommandUnchanged.refl i s with }
  clearBuf s _ := { CommandUnchanged.refl i s with }
  buffer _ := trivial
  built s _ _ _ _ _ := { CommandUnchanged.refl i s with }
  array _ _ := trivial
  result hi s _ := { CommandUnchanged.refl i s with result := fun hn => absurd hi hn }
  soi hi s := { CommandUnchanged.refl i s with regs := rfl, arithCond := fun hn => absurd hi hn }
  allocate _ s _ := { CommandUnchanged.refl i s with }
  outScan hi s _ _ :=
    { CommandUnchanged.refl i s with regs := rfl, outScan := fun he hp => absurd hi (by simp [he, hp]) }

/-- Settles O9: every command but `RESET` respects the frame `unchangedFrame`. -/
theorem commandFrame : Obligations.CommandFrame := by
  intro i s t hi h
  obtain ⟨hcfg, hcap, hhost, hreply, hhspec, hqtbl, hregs, hout, hcond, hresult, hin, houtp, hidct⟩ :=
    rel_of_exec (unchangedFrame i) (fun s _ _ _ => { CommandUnchanged.refl i s with }) hi h
  exact ⟨hcfg, hcap, hhost, hreply, hhspec, hqtbl, hregs, hout, hcond, hresult, hin, houtp, hidct⟩

/-! ## Configuration registers (O52) -/

theorem getD_setIfInBounds_same {n : Nat} (xs : Vector Word n) {i : Nat} (v d : Word) (hi : i < n) :
    (xs.setIfInBounds i v).getD i d = v := by
  simp [Vector.getD, hi]

theorem getD_setIfInBounds_other {n : Nat} (xs : Vector Word n) {i j : Nat} (v d : Word) (hij : j ≠ i) :
    (xs.setIfInBounds i v).getD j d = xs.getD j d := by
  by_cases hj : j < n <;> simp [Vector.getD, hj, hij.symm]

theorem Regs.read_compCfg (r : Regs) {c : Nat} (hc : c < 10) : r.read (0x020 + c) = some (r.compCfg.getD c 0) := by
  unfold Regs.read Regs.comp
  repeat rw [if_neg (by omega)]
  rw [if_pos ⟨by omega, by omega⟩, Nat.add_sub_cancel_left]

theorem Regs.read_arithCond (r : Regs) {k : Nat} (hk : k < 16) : r.read (0x030 + k) = some (r.arithCond.getD k 0) := by
  unfold Regs.read
  repeat rw [if_neg (by omega)]
  rw [if_pos ⟨by omega, by omega⟩, Nat.add_sub_cancel_left]

theorem Regs.write_compCfg (r : Regs) {c : Nat} (v : Word) (hc : c < 10) :
    r.write (0x020 + c) v = some { r with compCfg := r.compCfg.setIfInBounds c (v &&& 0xFFFF) } := by
  unfold Regs.write
  repeat rw [if_neg (by omega)]
  rw [if_pos ⟨by omega, by omega⟩, Nat.add_sub_cancel_left]

theorem Regs.write_arithCond (r : Regs) {k : Nat} (v : Word) (hk : k < 16) :
    r.write (0x030 + k) v = some { r with arithCond := r.arithCond.setIfInBounds k (v &&& 0xFFFF) } := by
  unfold Regs.write
  repeat rw [if_neg (by omega)]
  rw [if_pos ⟨by omega, by omega⟩, Nat.add_sub_cancel_left]

/-- `r'` is `r` with the register at `a` written: it reads as the bits of its fields, every other one as before. -/
def Regs.WrittenTo (r : Regs) (a : Nat) (x : Word) (r' : Regs) : Prop :=
  r'.read a = some x ∧ ∀ a', a' ≠ a → r'.read a' = r.read a'

theorem Regs.writtenTo_compCfg (r : Regs) {c : Nat} (x : Word) (hc : c < 10) :
    r.WrittenTo (0x020 + c) x { r with compCfg := r.compCfg.setIfInBounds c x } := by
  refine ⟨by rw [Regs.read_compCfg _ hc, getD_setIfInBounds_same _ _ _ hc], fun a' ha => ?_⟩
  by_cases hin : 0x020 ≤ a' ∧ a' < 0x02A
  · obtain ⟨c', rfl⟩ := Nat.exists_eq_add_of_le hin.1
    rw [Regs.read_compCfg _ (by omega), Regs.read_compCfg _ (by omega), getD_setIfInBounds_other _ _ _ (by omega)]
  · simp only [Regs.read, if_neg hin]

theorem Regs.writtenTo_arithCond (r : Regs) {k : Nat} (x : Word) (hk : k < 16) :
    r.WrittenTo (0x030 + k) x { r with arithCond := r.arithCond.setIfInBounds k x } := by
  refine ⟨by rw [Regs.read_arithCond _ hk, getD_setIfInBounds_same _ _ _ hk], fun a' ha => ?_⟩
  by_cases hin : 0x030 ≤ a' ∧ a' < 0x040
  · obtain ⟨k', rfl⟩ := Nat.exists_eq_add_of_le hin.1
    rw [Regs.read_arithCond _ (by omega), Regs.read_arithCond _ (by omega), getD_setIfInBounds_other _ _ _ (by omega)]
  · simp only [Regs.read, Regs.comp, if_neg hin]

/-- A write of a configuration register: it keeps the bits of the mask and writes no other register. -/
theorem Regs.write_masked {a : Nat} {m : Word} (h : configMask a = some m) (r : Regs) (v : Word) :
    ∃ r', r.write a v = some r' ∧ r.WrittenTo a (v &&& m) r' := by
  unfold configMask at h
  repeat' split at h
  all_goals cases h
  next h10 =>
    subst h10
    rw [show v &&& 0xFFFFFFFF = v from BitVec.and_allOnes]
    exact ⟨_, rfl, rfl, fun a' ha => by simp only [Regs.read, Regs.comp, if_neg ha]⟩
  next h11 =>
    subst h11
    exact ⟨_, rfl, rfl, fun a' ha => by simp only [Regs.read, Regs.comp, if_neg ha]⟩
  next h12 =>
    rcases h12 with rfl | rfl | rfl <;>
      exact ⟨_, rfl, rfl, fun a' ha => by simp only [Regs.read, Regs.comp, if_neg ha]⟩
  next h13 =>
    subst h13
    exact ⟨_, rfl, rfl, fun a' ha => by simp only [Regs.read, Regs.comp, if_neg ha]⟩
  next h16 =>
    subst h16
    exact ⟨_, rfl, rfl, fun a' ha => by simp only [Regs.read, Regs.comp, if_neg ha]⟩
  next h17 =>
    subst h17
    exact ⟨_, rfl, rfl, fun a' ha => by simp only [Regs.read, Regs.comp, if_neg ha]⟩
  next hvec =>
    rcases hvec with ⟨hlo, hhi⟩ | ⟨hlo, hhi⟩ <;> obtain ⟨c, rfl⟩ := Nat.exists_eq_add_of_le hlo
    · exact ⟨_, r.write_compCfg v (by omega), r.writtenTo_compCfg _ (by omega)⟩
    · exact ⟨_, r.write_arithCond v (by omega), r.writtenTo_arithCond _ (by omega)⟩

theorem configMask_cmd : configMask 0x008 = none := by decide

theorem readCsr_regs_congr {s : State} {r : Regs} {a : Nat} (h : r.read a = s.regs.read a) :
    State.readCsr { s with regs := r } a = s.readCsr a := by
  show (r.read a <|> _) = (s.regs.read a <|> _)
  rw [h]
  rfl

theorem readCsr_of_read {s : State} {a : Nat} {x : Word} (h : s.regs.read a = some x) : s.readCsr a = some x := by
  unfold State.readCsr
  rw [h]
  rfl

/-- Settles O52: a write keeps the bits of the register's fields (`Regs.write_masked`), and no view of the host but the
configuration registers reads them. -/
theorem configWrites : Obligations.ConfigWrites := by
  intro s a v m h
  obtain ⟨r, hw, hsame, hother⟩ := Regs.write_masked h s.regs v
  have hcmd : a ≠ 0x008 := by
    rintro rfl
    rw [configMask_cmd] at h
    cases h
  refine ⟨r, ?_, readCsr_of_read hsame, fun a' ha => readCsr_regs_congr (hother a' ha)⟩
  unfold hostCsrWrite
  rw [if_neg hcmd, hw]

/-! ## The registers the host reads (O53) -/

theorem bits_ofNat {n : Nat} (h : n < 2 ^ 32) (lo k : Nat) : bits (BitVec.ofNat 32 n) lo k = n / 2 ^ lo % 2 ^ k := by
  rw [bits, BitVec.toNat_ofNat, Nat.mod_eq_of_lt h]

theorem flag_le (b : Bool) : flag b ≤ 1 := by cases b <;> decide

theorem bit_of_flag {w : Word} {i : Nat} {b : Bool} (h : bits w i 1 = flag b) : bit w i = b := by
  rw [bit, h]
  cases b <;> rfl

theorem ResultKind.code_lt (k : ResultKind) : k.code < 4 := by cases k <;> decide
theorem SuspendCause.code_lt (c : SuspendCause) : c.code < 4 := by cases c <;> decide
theorem ScanMode.code_lt (m : ScanMode) : m.code < 11 := by cases m <;> decide

/-- Each field of `STATUS` stands at its place in `w` (`10_state.md` R63). -/
structure StatusFields (s : State) (w : Word) : Prop where
  resultKind : bits w 0 2 = s.status.resultKind.code
  faulted : bits w 2 1 = flag s.status.fault.isSome
  insufficient : bits w 3 1 = flag s.ent.insufficient
  arithErr : bits w 4 1 = flag s.arithErr
  scanActive : bits w 5 1 = flag s.scan.active
  imageActive : bits w 6 1 = flag s.image.active
  outputPass : bits w 7 1 = flag s.ctl.outputPass
  smoothing : bits w 8 1 = flag s.ctl.smoothing
  eoiReached : bits w 9 1 = flag s.image.eoiReached
  multiScan : bits w 10 1 = flag (decide (s.ctl.mode = .multiScan))
  encoding : bits w 11 1 = flag (decide (s.scan.dir = .encode))
  scanMode : bits w 12 4 = s.scan.mode.code
  suspendCause : bits w 16 2 = s.status.suspendCause.code
  reserved : bits w 18 14 = 0

theorem statusFields (s : State) : StatusFields s (BitVec.ofNat 32 s.statusWord) := by
  have hk := s.status.resultKind.code_lt
  have hm := s.scan.mode.code_lt
  have hc := s.status.suspendCause.code_lt
  have h2 := flag_le s.status.fault.isSome
  have h3 := flag_le s.ent.insufficient
  have h4 := flag_le s.arithErr
  have h5 := flag_le s.scan.active
  have h6 := flag_le s.image.active
  have h7 := flag_le s.ctl.outputPass
  have h8 := flag_le s.ctl.smoothing
  have h9 := flag_le s.image.eoiReached
  have h10 := flag_le (decide (s.ctl.mode = .multiScan))
  have h11 := flag_le (decide (s.scan.dir = .encode))
  have hlt : s.statusWord < 2 ^ 32 := by unfold State.statusWord; omega
  constructor <;> rw [bits_ofNat hlt, State.statusWord] <;> omega

theorem arithErr_iff (s : State) : s.arithErr = true ↔ s.scan.active = true ∧ s.scan.dir = .decode ∧
    s.scan.mode ∈ [.ariSeq, .ariDcFirst, .ariAcFirst, .ariDcRefine, .ariAcRefine] ∧ s.ent.ct = -1 := by
  have hmode : 6 ≤ s.scan.mode.code ↔
      s.scan.mode ∈ [ScanMode.ariSeq, .ariDcFirst, .ariAcFirst, .ariDcRefine, .ariAcRefine] := by
    cases s.scan.mode <;> decide
  unfold State.arithErr State.arithDecoding
  rw [Bool.and_eq_true, Bool.and_eq_true, Bool.and_eq_true, decide_eq_true_iff, decide_eq_true_iff, decide_eq_true_iff,
    hmode, and_assoc, and_assoc]

theorem ResultKind.code_listed (k : ResultKind) :
    (k, k.code) ∈ [(.done, 0), (.suspended, 1), (.rowCompleted, 2), (.scanCompleted, 3)] := by cases k <;> decide

theorem ScanMode.code_listed (m : ScanMode) :
    (m, m.code) ∈ [(.none, 0), (.hufSeq, 1), (.hufDcFirst, 2), (.hufAcFirst, 3), (.hufDcRefine, 4), (.hufAcRefine, 5),
      (.ariSeq, 6), (.ariDcFirst, 7), (.ariAcFirst, 8), (.ariDcRefine, 9), (.ariAcRefine, 10)] := by
  cases m <;> decide

theorem SuspendCause.code_listed (c : SuspendCause) :
    (c, c.code) ∈ [(.none, 0), (.inputEmpty, 1), (.outputFull, 2), (.scanNeeded, 3)] := by cases c <;> decide

theorem Status.faultCode_listed (t : Status) : (t.fault, BitVec.ofNat 32 t.faultCode) ∈
    [(none, 0), (some .illegalCommand, 1), (some .badState, 2), (some .badHuffTable, 3), (some .noHuffTable, 4),
      (some .noArithTable, 5), (some .badProgression, 6), (some .badComponent, 7), (some .badSampling, 8),
      (some .badMcuSize, 9), (some .badDimension, 10), (some .outOfMemory, 11), (some .badDctCoef, 12),
      (some .huffMissingCode, 13), (some .badProbState, 14)] := by
  unfold Status.faultCode
  cases t.fault with
  | none => decide
  | some c => cases c <;> decide

theorem Status.warnCode_listed (t : Status) : (t.warnLast, BitVec.ofNat 32 t.warnCode) ∈
    [(none, 0), (some .hitMarker, 1), (some .huffBadCode, 2), (some .arithBadCode, 3), (some .bogusProgression, 4),
      (some .notSequential, 5), (some .mustResync, 6), (some .extraneousData, 7)] := by
  unfold Status.warnCode
  cases t.warnLast with
  | none => decide
  | some w => cases w <;> decide

theorem bits_halves (hi lo : Nat) : bits (halves hi lo) 0 16 = lo % 2 ^ 16 ∧ bits (halves hi lo) 16 16 = hi % 2 ^ 16 := by
  have hlt : hi % 2 ^ 16 * 2 ^ 16 + lo % 2 ^ 16 < 2 ^ 32 := by omega
  constructor <;> rw [halves, bits_ofNat hlt] <;> omega

theorem getD_eq_getElem {α : Type} {n : Nat} (xs : Vector α n) (i : Fin n) (d : α) : xs.getD i d = xs[i] := by
  simp [Vector.getD]

theorem readCsr_lastDc (s : State) (i : Fin 4) : s.readCsr (0x050 + i) = some s.ent.lastDc[i] := by
  rw [← getD_eq_getElem s.ent.lastDc i 0]
  match i with
  | 0 => rfl
  | 1 => rfl
  | 2 => rfl
  | 3 => rfl

theorem readCsr_dcContext (s : State) (i : Fin 4) :
    s.readCsr (0x054 + i) = some (BitVec.ofNat 32 s.ent.dcContext[i].toNat) := by
  rw [← getD_eq_getElem s.ent.dcContext i 0]
  match i with
  | 0 => rfl
  | 1 => rfl
  | 2 => rfl
  | 3 => rfl

/-- The sizes of the components in blocks, at 0x060 up (`10_state.md` R69). -/
theorem readCsr_compSize (s : State) : ∀ c < 10, s.readCsr (0x060 + c) =
    some (halves (s.image.comp c).heightInBlocks (s.image.comp c).widthInBlocks)
  | 0, _ => rfl
  | 1, _ => rfl
  | 2, _ => rfl
  | 3, _ => rfl
  | 4, _ => rfl
  | 5, _ => rfl
  | 6, _ => rfl
  | 7, _ => rfl
  | 8, _ => rfl
  | 9, _ => rfl

/-- Settles O53: the fields of the status word (`statusFields`), the lists of codes, and each register by its address. -/
theorem statusWord : Obligations.StatusWord := by
  refine ⟨fun s => ?_, fun s => ?_, fun s => ?_⟩
  · have h := statusFields s
    refine ⟨BitVec.ofNat 32 s.statusWord, rfl, h.resultKind ▸ s.status.resultKind.code_listed, bit_of_flag h.faulted,
      bit_of_flag h.insufficient, ?_, bit_of_flag h.scanActive, bit_of_flag h.imageActive, bit_of_flag h.outputPass,
      bit_of_flag h.smoothing, bit_of_flag h.eoiReached, ?_, fun _ => ?_, h.scanMode ▸ s.scan.mode.code_listed,
      h.suspendCause ▸ s.status.suspendCause.code_listed, h.reserved⟩
    · rw [bit_of_flag h.arithErr, arithErr_iff]
    · rw [bit_of_flag h.multiScan, decide_eq_true_iff]
    · rw [bit_of_flag h.encoding, decide_eq_true_iff]
  · refine ⟨_, _, rfl, rfl, s.status.faultCode_listed, s.status.warnCode_listed, rfl, rfl, rfl, ?_⟩
    rw [← BitVec.ofNat_toNat]
    rfl
  · have pair : ∀ {a hi lo : Nat}, s.readCsr a = some (halves hi lo) →
        ∃ w, s.readCsr a = some w ∧ bits w 0 16 = lo % 2 ^ 16 ∧ bits w 16 16 = hi % 2 ^ 16 := fun h =>
      ⟨_, h, bits_halves _ _⟩
    exact ⟨⟨rfl, rfl, rfl, pair rfl, pair rfl, rfl, rfl, rfl, rfl, rfl⟩, ⟨rfl, rfl, rfl, rfl, rfl, rfl, rfl, rfl⟩,
      fun i => ⟨readCsr_lastDc s i, readCsr_dcContext s i⟩, fun c hc => pair (readCsr_compSize s c hc), rfl, pair rfl, rfl⟩

end Sys2Proof.Machine
end

section
/-! # Memories (`20_memory.md`)

Which commands write `COEF` (O10), what a memory write of the host changes (O54), and the accesses that have no step
(O55). -/

namespace Sys2Proof.Machine

/-! ## The writers of `COEF` (O10) -/

/-- `COEF` stays as it is: of the coefficient blocks, those of `MCUBUF` only may be written. -/
def coefFrame {i : Instr} (hcoef : ¬i.writesCoef) (himage : i ≠ .startImage) : CmdFrame i where
  rel s t := t.coef = s.coef
  writes ref := ∃ b, ref = .mcubuf b
  refl _ := rfl
  trans hst htu := htu.trans hst
  ent _ _ _ := rfl
  status _ _ _ := rfl
  statsWrite _ _ _ := rfl
  statsClear _ _ _ := rfl
  takes _ _ _ := rfl
  emits _ _ := rfl
  sends _ _ := rfl
  coef := by
    rintro s _ p v ⟨b, rfl⟩
    exact State.withCoef_buffer_coef s b p v
  ctl _ _ _ := rfl
  scan _ _ := rfl
  image _ _ _ := rfl
  clearBuf _ _ := rfl
  buffer b := ⟨b, rfl⟩
  built _ _ _ _ _ _ := rfl
  array hi := absurd hi hcoef
  result _ _ _ := rfl
  soi hi := absurd hi himage
  allocate hi := absurd hi himage
  outScan _ _ _ _ := rfl

/-- Settles O10: every other command respects the frame `coefFrame`. -/
theorem coefWriters : Obligations.CoefWriters := by
  intro i s t hcoef himage hreset h
  exact rel_of_exec (coefFrame hcoef himage) (fun _ _ _ _ => rfl) hreset h

/-! ## The elements of the memories (O54) -/

/-- A value that fits an element of `n` bits comes back from the element it was written to. -/
theorem word_read_write_same {n : Nat} {m : Cells (BitVec n)} (a : Nat) {v : Word} (hm : Cells.wf 0 m)
    (hv : v.toNat < 2 ^ n) :
    BitVec.ofNat 32 (Cells.read 0 (Cells.write 0 m a (BitVec.ofNat n v.toNat)) a).toNat = v := by
  rw [Cells.read_write_same _ hm, BitVec.toNat_ofNat, Nat.mod_eq_of_lt hv, BitVec.ofNat_toNat, BitVec.setWidth_eq]

/-- The element written reads as the value written, where the space is writable and the value fits. -/
theorem readElement_writeElement_same {s : State} {sp : Space} (a : Nat) {v : Word} (hs : Memory.wf s)
    (hsp : sp ≠ .dtbl) (hv : v.toNat < 2 ^ sp.width) : (s.writeElement sp a v).readElement sp a = v := by
  obtain ⟨hhspec, -, hqtbl, hstats, hmcubuf, hcoef, -⟩ := hs
  cases sp with
  | dtbl => exact absurd rfl hsp
  | hspec => exact word_read_write_same a hhspec hv
  | qtbl => exact word_read_write_same a hqtbl hv
  | stats => exact word_read_write_same a hstats hv
  | mcubuf => exact word_read_write_same a hmcubuf hv
  | coef => exact word_read_write_same a hcoef hv

/-- A write leaves every other address of its space alone. -/
theorem readElement_writeElement_otherAddress (s : State) (sp : Space) {a a' : Nat} (v : Word) (h : a' ≠ a) :
    (s.writeElement sp a v).readElement sp a' = s.readElement sp a' := by
  cases sp with
  | dtbl => rfl
  | hspec | qtbl | stats | mcubuf | coef =>
    simp only [State.writeElement, State.readElement, Cells.read_write_other _ h]

/-- A write leaves every other space alone. -/
theorem readElement_writeElement_otherSpace (s : State) {sp sp' : Space} (a a' : Nat) (v : Word) (h : sp' ≠ sp) :
    (s.writeElement sp a v).readElement sp' a' = s.readElement sp' a' := by
  cases sp with
  | dtbl => rfl
  | hspec => cases sp' with | hspec => exact absurd rfl h | _ => rfl
  | qtbl => cases sp' with | qtbl => exact absurd rfl h | _ => rfl
  | stats => cases sp' with | stats => exact absurd rfl h | _ => rfl
  | mcubuf => cases sp' with | mcubuf => exact absurd rfl h | _ => rfl
  | coef => cases sp' with | coef => exact absurd rfl h | _ => rfl

theorem readElement_writeElement_other (s : State) {sp sp' : Space} {a a' : Nat} (v : Word)
    (h : (sp', a') ≠ (sp, a)) : (s.writeElement sp a v).readElement sp' a' = s.readElement sp' a' := by
  by_cases hsp : sp' = sp
  · subst hsp
    exact readElement_writeElement_otherAddress s sp' v fun ha => h (by rw [ha])
  · exact readElement_writeElement_otherSpace s a a' v hsp

@[simp] theorem writeElement_cfg (s : State) (sp : Space) (a : Nat) (v : Word) :
    (s.writeElement sp a v).cfg = s.cfg := by cases sp <;> rfl

/-- A write of an element changes the memories the host writes and nothing else. -/
theorem writeElement_frame (s : State) (sp : Space) (a : Nat) (v : Word) :
    s.writeElement sp a v =
      { s with hspec := (s.writeElement sp a v).hspec, qtbl := (s.writeElement sp a v).qtbl,
               stats := (s.writeElement sp a v).stats, mcubuf := (s.writeElement sp a v).mcubuf,
               coef := (s.writeElement sp a v).coef } := by cases sp <;> rfl

theorem hostMemWrite_next {s : State} {sp : Space} {a : Nat} {v : Word} (ha : a < sp.size s.cfg) (hsp : sp ≠ .dtbl)
    (hv : v.toNat < 2 ^ sp.width) : hostMemWrite sp a v s = .next (s.writeElement sp a v) := by
  rw [hostMemWrite, if_neg (Nat.not_le.2 ha), if_neg hsp, if_neg (Nat.not_le.2 hv)]

theorem hostMemRead_next {s : State} {sp : Space} {a : Nat} (ha : a < sp.size s.cfg) :
    hostMemRead sp a s = .next { s with reply := .word (s.readElement sp a) } := by
  rw [hostMemRead, if_neg (Nat.not_le.2 ha)]

/-- Settles O54: the write is `State.writeElement`, and its read-back laws give the element and all others. -/
theorem memoryReadsBack : Obligations.MemoryReadsBack := by
  intro s sp a v hsp ha hv hs
  refine ⟨s.writeElement sp a v, hostMemWrite_next ha hsp hv, ?_,
    fun sp' a' h => readElement_writeElement_other s v h, writeElement_frame s sp a v⟩
  rw [hostMemRead_next (by rwa [writeElement_cfg]), readElement_writeElement_same a hs hsp hv]

/-! ## The accesses that have no step (O55) -/

/-- A chain of conditions answers where its first condition holds or the rest of the chain answers. -/
theorem isSome_ite_some {α : Type} {p : Prop} [Decidable p] (x : α) (o : Option α) :
    (if p then some x else o).isSome ↔ p ∨ o.isSome := by
  by_cases h : p <;> simp [h]

theorem isSome_configMask_iff (a : Nat) : (configMask a).isSome ↔
    0x010 ≤ a ∧ a ≤ 0x017 ∨ 0x020 ≤ a ∧ a ≤ 0x029 ∨ 0x030 ≤ a ∧ a ≤ 0x03F := by
  simp only [configMask, isSome_ite_some, Option.isSome_none, Bool.false_eq_true, or_false]
  omega

/-- The configuration registers are the ones with bits to write (`10_state.md` R54 to R61, R90, R91). -/
theorem Regs.isSome_read_iff (r : Regs) (a : Nat) : (r.read a).isSome ↔ (configMask a).isSome := by
  rw [isSome_configMask_iff]
  simp only [Regs.read, isSome_ite_some, Option.isSome_none, Bool.false_eq_true, or_false]
  omega

theorem Regs.isSome_write_iff (r : Regs) (a : Nat) (v : Word) : (r.write a v).isSome ↔ (configMask a).isSome := by
  rw [isSome_configMask_iff]
  simp only [Regs.write, isSome_ite_some, Option.isSome_none, Bool.false_eq_true, or_false]
  omega

theorem isSome_readStatus_iff (s : State) (a : Nat) : (s.readStatus a).isSome ↔ a ≤ 0x008 := by
  simp only [State.readStatus, isSome_ite_some, Option.isSome_none, Bool.false_eq_true, or_false]
  omega

theorem isSome_readRunning_iff (s : State) (a : Nat) : (s.readRunning a).isSome ↔ 0x040 ≤ a ∧ a ≤ 0x04F := by
  simp only [State.readRunning, isSome_ite_some, Option.isSome_none, Bool.false_eq_true, or_false]
  omega

theorem isSome_readGeometry_iff (s : State) (a : Nat) :
    (s.readGeometry a).isSome ↔ 0x050 ≤ a ∧ a ≤ 0x059 ∨ 0x060 ≤ a ∧ a ≤ 0x06C := by
  simp only [State.readGeometry, isSome_ite_some, Option.isSome_none, Bool.false_eq_true, or_false]
  omega

/-- The defined addresses of `CSR`: the configuration registers, those the host reads only, and `CMD`. -/
theorem isSome_readCsr_iff (s : State) (a : Nat) :
    (s.readCsr a).isSome ↔ (configMask a).isSome ∨ readOnlyCsr a ∨ a = 0x008 := by
  simp only [State.readCsr, Option.orElse_eq_orElse, Option.orElse_eq_or, Option.isSome_or, Bool.or_eq_true,
    Regs.isSome_read_iff, isSome_readStatus_iff, isSome_readRunning_iff, isSome_readGeometry_iff,
    isSome_configMask_iff, readOnlyCsr]
  omega

/-- An address is not both read-only and the address of a configuration register or of `CMD`. -/
theorem readOnlyCsr_not_written {a : Nat} (h : readOnlyCsr a) : configMask a = none ∧ a ≠ 0x008 := by
  rw [← Option.not_isSome_iff_eq_none, isSome_configMask_iff]
  unfold readOnlyCsr at h
  omega

/-- A write to what is neither `CMD` nor a configuration register is refused, by whether the address is defined. -/
theorem hostCsrWrite_refused {a : Nat} (s : State) (v : Word) (hmask : configMask a = none) (hcmd : a ≠ 0x008) :
    hostCsrWrite a v s = .refused (if (s.readCsr a).isSome then .readOnlyWrite else .undefinedCsr) := by
  have hw : s.regs.write a v = none := by
    rw [← Option.not_isSome_iff_eq_none, Regs.isSome_write_iff, hmask]
    exact Bool.false_ne_true
  rw [hostCsrWrite, if_neg hcmd, hw]

theorem hostCsrRead_refused {a : Nat} {s : State} (h : s.readCsr a = none) :
    hostCsrRead a s = .refused .undefinedCsr := by
  rw [hostCsrRead, h]

/-- Settles O55: what of `CSR` is defined (`isSome_readCsr_iff`) and what of it is written (`Regs.isSome_write_iff`);
the memories by their sizes. -/
theorem hostRefusals : Obligations.HostRefusals := by
  intro s a v
  refine ⟨fun hmask hro hcmd => ?_, fun hro => ?_, fun sp ha => ?_, fun ha => ?_⟩
  · have hcsr : s.readCsr a = none := by
      rw [← Option.not_isSome_iff_eq_none, isSome_readCsr_iff, hmask]
      simp [hro, hcmd]
    rw [hostCsrWrite_refused s v hmask hcmd, hcsr]
    exact ⟨rfl, hostCsrRead_refused hcsr⟩
  · obtain ⟨hmask, hcmd⟩ := readOnlyCsr_not_written hro
    rw [hostCsrWrite_refused s v hmask hcmd, if_pos ((isSome_readCsr_iff s a).2 (.inr (.inl hro)))]
  · exact ⟨if_pos ha, if_pos ha⟩
  · rw [hostMemWrite, if_neg (Nat.not_le.2 ha), if_pos rfl]

end Sys2Proof.Machine
end

section
/-! # Encoding and the issue of commands (`30_encoding.md`)

The decoder by its formats (O1, O2, O3), the commands a state does not admit (O7), and the host's steps (O4, O56). -/

namespace Sys2Proof.Machine

/-! ## The formats (R202 to R206)

For each format: the word is accepted as `i` where `i` is in the operand ranges and its operands are bits [23:0]. -/

theorem formatN_eq_ok_iff {w : Word} {i j : Instr} : formatN w i = .ok j ↔ bits w 0 24 = 0 ∧ i = j := by
  unfold formatN
  split <;> simp [*]

theorem bit_eq_iff {w : Word} {i : Nat} {x : Bool} : bit w i = x ↔ bits w i 1 = if x then 1 else 0 := by
  have hlt : bits w i 1 < 2 := Nat.mod_lt _ (by decide)
  cases x with
  | false =>
    rw [bit, beq_eq_false_iff_ne, if_neg Bool.false_ne_true]
    omega
  | true => rw [bit, beq_iff_eq, if_pos rfl]

theorem bits_eq_zero_iff {w : Word} {i : Nat} : bits w i 1 = 0 ↔ bit w i = false := by simp [bit_eq_iff]

theorem clsOf_eq_iff {w : Word} {cls : TableClass} : clsOf w = cls ↔ bits w 23 1 = if cls = .ac then 1 else 0 := by
  have hcls : clsOf w = cls ↔ bit w 23 = decide (cls = .ac) := by cases cls <;> simp [clsOf]
  rw [hcls, bit_eq_iff]
  simp only [decide_eq_true_eq]

/-- Bits [23:0] are those of a format H word exactly where its fields are `CLS`, `SLOT` and `SYM` and the rest is 0. -/
theorem encodeH_eq_operands_iff {w : Word} {cls : TableClass} {slot sym : Nat} (hslot : slotOk slot = true)
    (hsym : sym < 256) : encodeH cls slot sym = bits w 0 24 ↔
      (bits w 20 3 = 0 ∧ bits w 0 8 = 0) ∧ clsOf w = cls ∧ bits w 16 4 = slot ∧ bits w 8 8 = sym := by
  have hslot : slot < 16 := of_decide_eq_true hslot
  rw [clsOf_eq_iff, encodeH]
  unfold bits
  split <;> omega

theorem slotOk_bits (w : Word) (lo : Nat) : slotOk (bits w lo 4) = true := decide_eq_true (Nat.mod_lt _ (by decide))

theorem formatH_eq_ok_iff {w : Word} {mk : TableClass → Nat → Instr} {i : Instr} : formatH w mk = .ok i ↔
    ∃ cls slot, slotOk slot = true ∧ encodeH cls slot 0 = bits w 0 24 ∧ mk cls slot = i := by
  have hlow : bits w 0 16 = 0 ↔ bits w 0 8 = 0 ∧ bits w 8 8 = 0 := by unfold bits; omega
  unfold formatH
  constructor
  · intro h
    split at h
    · next hz =>
      exact ⟨clsOf w, bits w 16 4, slotOk_bits w 16, (encodeH_eq_operands_iff (slotOk_bits w 16) (by decide)).2
        ⟨⟨hz.1, (hlow.1 hz.2).1⟩, rfl, rfl, (hlow.1 hz.2).2⟩, Except.ok.inj h⟩
    · cases h
  · rintro ⟨cls, slot, hslot, ho, rfl⟩
    obtain ⟨⟨hhigh, hz⟩, rfl, rfl, hsym⟩ := (encodeH_eq_operands_iff hslot (by decide)).1 ho
    rw [if_pos ⟨hhigh, hlow.2 ⟨hz, hsym⟩⟩]

theorem formatHSym_eq_ok_iff {w : Word} {i : Instr} : formatHSym w = .ok i ↔
    ∃ cls slot, ∃ sym : Byte, slotOk slot = true ∧ encodeH cls slot sym.toNat = bits w 0 24 ∧
      .htEncode cls slot sym = i := by
  unfold formatHSym
  constructor
  · intro h
    split at h
    · next hz =>
      have hsym : bits w 8 8 = (BitVec.ofNat 8 (bits w 8 8)).toNat := (Nat.mod_mod _ _).symm
      exact ⟨clsOf w, bits w 16 4, _, slotOk_bits w 16, (encodeH_eq_operands_iff (slotOk_bits w 16)
        (BitVec.isLt _)).2 ⟨hz, rfl, rfl, hsym⟩, Except.ok.inj h⟩
    · cases h
  · rintro ⟨cls, slot, sym, hslot, ho, rfl⟩
    obtain ⟨hz, rfl, rfl, hsym⟩ := (encodeH_eq_operands_iff hslot sym.isLt).1 ho
    rw [if_pos hz, hsym, BitVec.ofNat_toNat, BitVec.setWidth_eq]

theorem formatB_eq_ok_iff {w : Word} {mk : Nat → Nat → Except Illegal Instr} {i : Instr} : formatB w mk = .ok i ↔
    ∃ n v, countOk n = true ∧ v < 2 ^ 16 ∧ n * 2 ^ 16 + v = bits w 0 24 ∧ mk n v = .ok i := by
  have hfields {n v : Nat} (hn : countOk n = true) (hv : v < 2 ^ 16) :
      n * 2 ^ 16 + v = bits w 0 24 ↔ bits w 21 3 = 0 ∧ bits w 16 5 = n ∧ bits w 0 16 = v := by
    have := Laws.count_lt hn
    unfold bits
    omega
  unfold formatB
  constructor
  · intro h
    split at h
    · cases h
    · next hz =>
      split at h
      · next hn =>
        have hv : bits w 0 16 < 2 ^ 16 := Nat.mod_lt _ (by decide)
        exact ⟨_, _, hn, hv, (hfields hn hv).2 ⟨Decidable.not_not.1 hz, rfl, rfl⟩, h⟩
      · cases h
  · rintro ⟨n, v, hn, hv, ho, h⟩
    obtain ⟨hz, rfl, rfl⟩ := (hfields hn hv).1 ho
    rw [if_neg (Decidable.not_not.2 hz), if_pos hn, h]

theorem encodeBin_fields {b : BinOperand} (h : b.wf = true) : ∃ bank slot bin,
    bank < 4 ∧ slot < 16 ∧ bin < 256 ∧ encodeBin b = bank * 2 ^ 22 + slot * 2 ^ 16 + bin * 2 ^ 8 := by
  cases b with
  | dc slot bin =>
    simp only [BinOperand.wf, slotOk, Bool.and_eq_true, decide_eq_true_eq] at h
    exact ⟨0, slot, bin, by decide, h.1, by omega, by simp [encodeBin]⟩
  | ac slot bin =>
    simp only [BinOperand.wf, slotOk, Bool.and_eq_true, decide_eq_true_eq] at h
    exact ⟨1, slot, bin, by decide, h.1, h.2, rfl⟩
  | fixed => exact ⟨2, 0, 0, by decide, by decide, by decide, rfl⟩

/-- The bin operand is legal and its `BANK`, `SLOT` and `BIN` are those of the word. -/
theorem binOf_eq_ok_iff {w : Word} {b : BinOperand} : binOf w = .ok b ↔
    b.wf = true ∧ encodeBin b = bits w 22 2 * 2 ^ 22 + bits w 16 4 * 2 ^ 16 + bits w 8 8 * 2 ^ 8 := by
  have hbank : bits w 22 2 < 4 := Nat.mod_lt _ (by decide)
  have hslot : bits w 16 4 < 16 := Nat.mod_lt _ (by decide)
  have hbin : bits w 8 8 < 256 := Nat.mod_lt _ (by decide)
  unfold binOf
  constructor
  · intro h
    repeat' split at h
    all_goals cases h
    · next h0 hlt => simp [BinOperand.wf, slotOk, encodeBin, h0, hlt, hslot]
    · next h1 => simp [BinOperand.wf, slotOk, encodeBin, h1, hslot, hbin]
    · next h2 hz => simp [BinOperand.wf, encodeBin, h2, hz]
  · rintro ⟨hb, he⟩
    cases b with
    | dc slot bin =>
      simp only [BinOperand.wf, slotOk, Bool.and_eq_true, decide_eq_true_eq, encodeBin] at hb he
      obtain ⟨h0, rfl, rfl⟩ : bits w 22 2 = 0 ∧ bits w 16 4 = slot ∧ bits w 8 8 = bin := by omega
      rw [if_pos h0, if_pos hb.2]
    | ac slot bin =>
      simp only [BinOperand.wf, slotOk, Bool.and_eq_true, decide_eq_true_eq, encodeBin] at hb he
      obtain ⟨h1, rfl, rfl⟩ : bits w 22 2 = 1 ∧ bits w 16 4 = slot ∧ bits w 8 8 = bin := by omega
      simp [h1]
    | fixed =>
      simp only [encodeBin] at he
      obtain ⟨h2, h0⟩ : bits w 22 2 = 2 ∧ bits w 16 4 = 0 ∧ bits w 8 8 = 0 := by omega
      simp [h2, h0]

theorem encodeBin_eq_operands_iff {w : Word} {b : BinOperand} {x : Bool} (hb : b.wf = true) :
    encodeBin b + (if x then 1 else 0) = bits w 0 24 ↔
      (bits w 20 2 = 0 ∧ bits w 1 7 = 0) ∧ binOf w = .ok b ∧ bit w 0 = x := by
  obtain ⟨bank, slot, bin, hbank, hslot, hbin, he⟩ := encodeBin_fields hb
  rw [binOf_eq_ok_iff, bit_eq_iff, he]
  simp only [hb, true_and]
  unfold bits
  split <;> omega

theorem formatA_eq_ok_iff {w : Word} {mk : BinOperand → Bool → Except Illegal Instr} {i : Instr} :
    formatA w mk = .ok i ↔
      ∃ b x, b.wf = true ∧ encodeBin b + (if x then 1 else 0) = bits w 0 24 ∧ mk b x = .ok i := by
  unfold formatA
  constructor
  · intro h
    split at h
    · next hz =>
      split at h
      · next b hbin =>
        have hb := (binOf_eq_ok_iff.1 hbin).1
        exact ⟨b, bit w 0, hb, (encodeBin_eq_operands_iff hb).2 ⟨hz, hbin, rfl⟩, h⟩
      · cases h
    · cases h
  · rintro ⟨b, x, hb, ho, h⟩
    obtain ⟨hz, hbin, rfl⟩ := (encodeBin_eq_operands_iff hb).1 ho
    rw [if_pos hz, hbin]
    exact h

theorem formatS_eq_ok_iff {w : Word} {i : Instr} : formatS w = .ok i ↔
    ∃ dir, encodeOperands (.startScan dir) = bits w 0 24 ∧ .startScan dir = i := by
  have hfields (dir : Direction) : encodeOperands (.startScan dir) = bits w 0 24 ↔
      bits w 0 23 = 0 ∧ (if bit w 23 then .encode else .decode) = dir := by
    have hdir : (if bit w 23 then .encode else .decode) = dir ↔ bit w 23 = decide (dir = .encode) := by
      cases dir <;> simp
    rw [hdir, bit_eq_iff]
    unfold bits
    cases dir <;> simp [encodeOperands] <;> omega
  simp only [hfields]
  unfold formatS
  split
  · next hz => simp [hz]
  · next hz => simp [hz]

/-! ## The decoder and the encoder (O1, O2) -/

theorem encodeOperands_lt {i : Instr} (h : i.wf = true) : encodeOperands i < 2 ^ 24 := by
  cases i with
  | htBuildDec | htBuildEnc | htDecode => exact Laws.encodeH_lt h (by decide)
  | htEncode cls slot sym => exact Laws.encodeH_lt h sym.isLt
  | htGetbits n =>
    have := Laws.count_lt h
    simp only [encodeOperands]
    omega
  | htPutbits n value =>
    have := Laws.count_lt h
    simp only [encodeOperands]
    omega
  | arithEncode bin x =>
    have := Laws.encodeBin_lt h
    simp only [encodeOperands]
    split <;> omega
  | arithDecode bin => exact Nat.lt_of_succ_lt (Laws.encodeBin_lt h)
  | startScan dir => cases dir <;> decide
  | _ => decide

theorem encode_eq_iff {i : Instr} {w : Word} (h : i.wf = true) :
    encode i = w ↔ opcode i = bits w 24 8 ∧ encodeOperands i = bits w 0 24 := by
  have hopc := Laws.opcode_lt i
  have hoperands := encodeOperands_lt h
  rw [← BitVec.toNat_inj, encode, BitVec.toNat_ofNat]
  unfold bits
  omega

/-- What a word decodes to stands in its fields, by the format of its opcode. The cases are numbered in the order of the
opcode map (R210); those left for the end have format N. -/
theorem fields_of_decode {w : Word} {i : Instr} (h : decode w = .ok i) :
    i.wf = true ∧ opcode i = bits w 24 8 ∧ encodeOperands i = bits w 0 24 := by
  unfold decode at h
  split at h
  -- format H: HT_BUILD_DEC, HT_BUILD_ENC, HT_DECODE
  case h_5 hop | h_6 hop | h_7 hop =>
    obtain ⟨cls, slot, hslot, ho, rfl⟩ := formatH_eq_ok_iff.1 h
    exact ⟨hslot, hop.symm, ho⟩
  -- format B: HT_GETBITS, whose VALUE is reserved
  case h_8 hop =>
    obtain ⟨n, v, hn, -, ho, hmk⟩ := formatB_eq_ok_iff.1 h
    split at hmk
    · next hv =>
      subst hv
      cases hmk
      exact ⟨hn, hop.symm, (Nat.add_zero _).symm.trans ho⟩
    · cases hmk
  -- format H: HT_ENCODE
  case h_9 hop =>
    obtain ⟨cls, slot, sym, hslot, ho, rfl⟩ := formatHSym_eq_ok_iff.1 h
    exact ⟨hslot, hop.symm, ho⟩
  -- format B: HT_PUTBITS
  case h_10 hop =>
    obtain ⟨n, v, hn, hv, ho, hmk⟩ := formatB_eq_ok_iff.1 h
    cases hmk
    exact ⟨hn, hop.symm, by rw [encodeOperands, BitVec.toNat_ofNat, Nat.mod_eq_of_lt hv, ho]⟩
  -- format A: ARITH_ENCODE
  case h_14 hop =>
    obtain ⟨b, x, hb, ho, hmk⟩ := formatA_eq_ok_iff.1 h
    cases hmk
    exact ⟨hb, hop.symm, ho⟩
  -- format A: ARITH_DECODE, whose bit 0 is reserved
  case h_17 hop =>
    obtain ⟨b, x, hb, ho, hmk⟩ := formatA_eq_ok_iff.1 h
    cases x <;> cases hmk
    exact ⟨hb, hop.symm, ho⟩
  -- format S
  case h_18 hop =>
    obtain ⟨dir, ho, rfl⟩ := formatS_eq_ok_iff.1 h
    exact ⟨rfl, hop.symm, ho⟩
  -- no row of the map
  case h_25 => cases h
  all_goals
    next hop =>
    obtain ⟨ho, rfl⟩ := formatN_eq_ok_iff.1 h
    exact ⟨rfl, hop.symm, ho.symm⟩

/-- A word with the fields of a well-formed command decodes to it, by the format of the command. -/
theorem decode_of_fields {w : Word} {i : Instr} (hwf : i.wf = true) (hop : opcode i = bits w 24 8)
    (ho : encodeOperands i = bits w 0 24) : decode w = .ok i := by
  rw [decode, ← hop]
  cases i with
  | htBuildDec cls slot | htBuildEnc cls slot | htDecode cls slot =>
    exact formatH_eq_ok_iff.2 ⟨cls, slot, hwf, ho, rfl⟩
  | htGetbits n => exact formatB_eq_ok_iff.2 ⟨n, 0, hwf, by decide, (Nat.add_zero _).trans ho, rfl⟩
  | htEncode cls slot sym => exact formatHSym_eq_ok_iff.2 ⟨cls, slot, sym, hwf, ho, rfl⟩
  | htPutbits n value => exact formatB_eq_ok_iff.2 ⟨n, value.toNat, hwf, value.isLt, ho, by simp⟩
  | arithEncode bin x => exact formatA_eq_ok_iff.2 ⟨bin, x, hwf, ho, rfl⟩
  | arithDecode bin => exact formatA_eq_ok_iff.2 ⟨bin, false, hwf, ho, rfl⟩
  | startScan dir => exact formatS_eq_ok_iff.2 ⟨dir, ho, rfl⟩
  | _ => exact formatN_eq_ok_iff.2 ⟨ho.symm, rfl⟩

theorem decode_eq_ok_iff {w : Word} {i : Instr} : decode w = .ok i ↔ i.wf = true ∧ encode i = w := by
  constructor
  · intro h
    obtain ⟨hwf, hfields⟩ := fields_of_decode h
    exact ⟨hwf, (encode_eq_iff hwf).2 hfields⟩
  · rintro ⟨hwf, hw⟩
    obtain ⟨hop, ho⟩ := (encode_eq_iff hwf).1 hw
    exact decode_of_fields hwf hop ho

/-- Settles O1: both halves are `decode_eq_ok_iff`, which goes format by format. -/
theorem decodeEncodeInverse : Obligations.DecodeEncodeInverse :=
  ⟨fun _ hwf => decode_eq_ok_iff.2 ⟨hwf, rfl⟩, fun _ _ h => decode_eq_ok_iff.1 h⟩

/-- Settles O2: the decoder evaluates on the four words. -/
theorem specWords : Obligations.SpecWords := ⟨rfl, rfl, rfl, rfl⟩

/-! ## Illegal words (O3) -/

theorem exists_check_eq_ok {α : Type} {p : Prop} [Decidable p] {x : Except Illegal α} {e : Illegal} :
    (∃ i, (if p then x else .error e) = .ok i) ↔ p ∧ ∃ i, x = .ok i := by
  by_cases hp : p <;> simp [hp]

theorem exists_check_not_eq_ok {α : Type} {p : Prop} [Decidable p] {x : Except Illegal α} {e : Illegal} :
    (∃ i, (if p then .error e else x) = .ok i) ↔ ¬p ∧ ∃ i, x = .ok i := by
  by_cases hp : p <;> simp [hp]

theorem exists_formatA_eq_ok {w : Word} {mk : BinOperand → Bool → Except Illegal Instr} :
    (∃ i, formatA w mk = .ok i) ↔
      (bits w 20 2 = 0 ∧ bits w 1 7 = 0) ∧ ∃ b, binOf w = .ok b ∧ ∃ i, mk b (bit w 0) = .ok i := by
  unfold formatA
  rw [exists_check_eq_ok]
  cases binOf w <;> simp

theorem exists_binOf_eq_ok {w : Word} : (∃ b, binOf w = .ok b) ↔
    bits w 22 2 = 0 ∧ bits w 8 8 < 64 ∨ bits w 22 2 = 1 ∨
      bits w 22 2 = 2 ∧ bits w 16 4 = 0 ∧ bits w 8 8 = 0 := by
  unfold binOf
  repeat' split
  all_goals simp [*]

/-- At each opcode of the map both sides are what its format asks of the operands; at any other opcode neither holds.
The cases are numbered in the order of the opcode map (R210); those left for the end have format N. -/
theorem legalWord_iff (w : Word) : LegalWord w ↔ ∃ i, decode w = .ok i := by
  unfold decode
  split
  case h_5 | h_6 | h_7 => simp [LegalWord, *, formatH, exists_check_eq_ok]
  case h_9 => simp [LegalWord, *, formatHSym, exists_check_eq_ok]
  case h_8 | h_10 => simp [LegalWord, *, formatB, countOk, exists_check_eq_ok, and_assoc]
  case h_14 => simp [LegalWord, *, exists_formatA_eq_ok, exists_binOf_eq_ok, and_assoc]
  case h_17 =>
    simp [LegalWord, *, exists_formatA_eq_ok, exists_binOf_eq_ok, exists_check_not_eq_ok, bits_eq_zero_iff, and_assoc,
      and_comm, and_left_comm]
  case h_18 => simp [LegalWord, *, formatS, exists_check_eq_ok]
  case h_25 =>
    simp only [imp_false] at *
    simp [LegalWord, *]
  all_goals simp [LegalWord, *, formatN, exists_check_eq_ok]

theorem State.raiseFault_eq_faulted {s : State} (h : s.status.fault = none) (c : FaultCode) :
    s.raiseFault c = s.faulted c := by
  simp [State.raiseFault, State.faulted, h]

theorem issue_illegal {w : Word} {s : State} (h : ∀ i, decode w ≠ .ok i) (hf : s.status.fault = none) :
    issue w s = .next (s.faulted .illegalCommand) := by
  unfold issue
  split
  · next i hi => exact absurd hi (h i)
  · rw [command_raise hf (run_raise _ _), State.raiseFault_eq_faulted hf]

/-- Settles O3: every format accepts the words that are legal at its opcodes (`legalWord_iff`); the others raise. -/
theorem illegalWords : Obligations.IllegalWords := fun w =>
  ⟨legalWord_iff w, fun _ hw hf => issue_illegal (fun i hi => hw ((legalWord_iff w).2 ⟨i, hi⟩)) hf⟩

/-! ## Commands a state does not admit (O7) -/

section
variable {s : State} {b : State → Bool}

/-- What a procedure demands first decides it before anything is written. -/
theorem run_get_demand_false {α : Type} {p : State → Unit → Proc α} {c : FaultCode} (h : ¬b s = true) :
    (get >>= fun s => demand (b s) c >>= p s) s = .error (.raise c) s := by
  rw [run_get_bind, run_demand_bind, if_neg h]

theorem command_badState {p : State → Unit → Proc ResultKind} (hf : s.status.fault = none) (h : ¬b s = true) :
    command (get >>= fun s => demand (b s) .badState >>= p s) s = .next (s.faulted .badState) := by
  rw [command_raise hf (run_get_demand_false h), State.raiseFault_eq_faulted hf]

theorem singleStep_badState {p : State → Unit → Proc Unit} (hf : s.status.fault = none) (h : ¬b s = true) :
    singleStep (get >>= fun s => demand (b s) .badState >>= p s) s = .next (s.faulted .badState) := by
  rw [singleStep_raise hf (run_get_demand_false h), State.raiseFault_eq_faulted hf]

/-- An engine, table or bit command while a scan is active. -/
theorem engine_badState {p : Proc Unit} (hf : s.status.fault = none) (h : ¬s.scan.active = false) :
    singleStep (do demandNoScan; p) s = .next (s.faulted .badState) := by
  have hd : demandNoScan s = .error (.raise .badState) s := by simp [demandNoScan, h]
  rw [singleStep_raise hf (run_bind_error hd), State.raiseFault_eq_faulted hf]

end

/-- Settles O7: every command that does not admit every state first demands what its rule asks. -/
theorem badState : Obligations.BadState := by
  intro i s hf h
  cases i with
  | nop | reset | startImage => exact absurd trivial h
  | htBuildDec | htBuildEnc | htDecode | htGetbits | htEncode | htPutbits | htFlush | htResetBits | arithEncInit
  | arithEncode | arithEncFlush | arithDecInit | arithDecode => exact engine_badState hf h
  | eoi | startScan | encodeMcu | decodeMcu | finishScan =>
    exact singleStep_badState hf (mt (Iff.mp (by simp [Admits, and_assoc])) h)
  | startOutputPass =>
    exact singleStep_badState hf (mt (Iff.mp (by simp [Admits, and_assoc, Decidable.imp_iff_not_or])) h)
  | consumeInput | produceOutput =>
    exact command_badState hf (mt (Iff.mp (by simp [Admits, and_assoc])) h)

/-! ## Steps of the host (O4, O56) -/

theorem step_cmdWrite {s : State} {w : Word} {rest : List HostOp} {i : Instr}
    (hs : s.host = .csrWrite 0x008 w :: rest) (hw : decode w = .ok i) : step s = exec i { s with host := rest } := by
  rw [step, hs]
  show hostCsrWrite 0x008 w { s with host := rest } = _
  rw [hostCsrWrite, if_pos rfl, issue, hw]

theorem decodeTableWord_eq_some_iff {nbits w : Nat} {i : Instr} :
    decodeTableWord nbits w = some i ↔ decode (BitVec.ofNat 32 (w % 2 ^ nbits)) = .ok i := by
  unfold decodeTableWord
  split <;> simp [*]

/-- Settles O4: the host's write to `CMD` issues the word, which `decode` reads as the command. -/
theorem stepRunsCommand : Obligations.StepRunsCommand := by
  intro s i
  refine ⟨fun w rest => step_cmdWrite, fun nbits w h => ?_, fun h => ?_⟩
  · exact step_cmdWrite rfl (decodeTableWord_eq_some_iff.1 h)
  · rw [step, h]

/-- Settles O56: the operations by their definitions; `in.take` of no more bytes than there are is not refused. -/
theorem portOperations : Obligations.PortOperations := by
  intro s bs n
  exact ⟨rfl, fun h => if_neg (Nat.not_lt.2 h), rfl, rfl⟩

end Sys2Proof.Machine
end
